-- ==== Sys2Proof/Word.lean ====
section
/-! DEFINITION. The word types of the HBE: every register, command and buffer word is 32 bits
(spec 00_scope.md R10, 20_memory.md R53); a byte is one little-endian lane of a word. -/

namespace Sys2Proof

/-- A 32-bit word (R10): a register's contents, a command word, or the encoding of a binary32 value. -/
abbrev Word := BitVec 32

/-- One byte lane of a word (R53). -/
abbrev Byte := BitVec 8

/-- An 18-bit byte address, all the HBE decodes of a bus address (R48, R49). -/
abbrev BusAddr := BitVec 18

end Sys2Proof
end

