-- ==== Sys2Proof/Syntax.lean ====
section
/-! DEFINITION. The commands of the HBE: one constructor per row of spec/opcode_table.json
(30_encoding.md table T6). Each carries the ARG field of its word (table T5), also where the command
ignores it (R69), so that a word's command and the word determine each other (log entry 20). -/

namespace Sys2Proof

/-- A command word's meaning: the row of table T6 and its unsigned ARG (R69). -/
inductive Instr where
  /-- NOP, OP 0x00 (44_control_commands.md R130); ARG ignored. -/
  | nop (arg : Nat)
  /-- PREPARE, OP 0x01 (R131); ARG ignored. -/
  | prepare (arg : Nat)
  /-- RESET, OP 0x02 (R132); ARG ignored. -/
  | reset (arg : Nat)
  /-- PROCESS, OP 0x03 (43_bank_mixer.md R115); `n` is the block length in samples. -/
  | process (n : Nat)
  /-- OSC_SETFREQ, OP 0x10 (40_oscillator.md R88); ARG ignored. -/
  | oscSetfreq (arg : Nat)
  /-- OSC_ADVANCE, OP 0x11 (R89); `n` is the sample count. -/
  | oscAdvance (n : Nat)
  /-- OSC_RESET, OP 0x12 (R90); ARG ignored. -/
  | oscReset (arg : Nat)
deriving DecidableEq, Repr

end Sys2Proof
end

