-- ==== Sys2Proof/WellFormed.lean ====
section
/-! DEFINITION. Which commands have an encoding: ARG is an unsigned 24-bit field, 0 to 16777215
(30_encoding.md R68, R69). -/

namespace Sys2Proof

/-- The ARG field of a command (table T5). -/
def Instr.arg : Instr → Nat
  | .nop a => a
  | .prepare a => a
  | .reset a => a
  | .process n => n
  | .oscSetfreq a => a
  | .oscAdvance n => n
  | .oscReset a => a

/-- A command is well formed when its ARG fits the 24-bit field (R69). -/
def Instr.wellFormed (i : Instr) : Bool := decide (i.arg < 2 ^ 24)

end Sys2Proof
end

