-- ==== Sys2Proof/Decode.lean ====
section
/-! DEFINITION. Decoding and encoding of command words (30_encoding.md tables T5 and T6). The decoder is
total: a word whose OP is in no row is rejected by name (R71), and a byte sequence shorter than one
word has no command. -/

namespace Sys2Proof

/-- Why bits are no command. -/
inductive DecodeError where
  /-- The OP byte is in no row of table T6 (R71); the machine refuses it with BAD_OPCODE. -/
  | badOpcode (op : Byte)
  /-- Fewer than the four bytes of a command word (R68, R72). -/
  | truncated (bytes : Nat)
deriving DecidableEq, Repr

/-- The field OP = w[7:0] of a command word (table T5). -/
def opField (w : Word) : Byte := w.extractLsb' 0 8

/-- The field ARG = w[31:8], zero-extended, neither sign-extended nor scaled (R69). -/
def argField (w : Word) : Nat := (w.extractLsb' 8 24).toNat

/-- The OP of a command (table T6). -/
def Instr.opcode : Instr → Byte
  | .nop _ => 0x00
  | .prepare _ => 0x01
  | .reset _ => 0x02
  | .process _ => 0x03
  | .oscSetfreq _ => 0x10
  | .oscAdvance _ => 0x11
  | .oscReset _ => 0x12

/-- The command a word encodes, selected by its OP alone (R70). -/
def decode (w : Word) : Except DecodeError Instr :=
  if opField w = 0x00 then .ok (.nop (argField w))
  else if opField w = 0x01 then .ok (.prepare (argField w))
  else if opField w = 0x02 then .ok (.reset (argField w))
  else if opField w = 0x03 then .ok (.process (argField w))
  else if opField w = 0x10 then .ok (.oscSetfreq (argField w))
  else if opField w = 0x11 then .ok (.oscAdvance (argField w))
  else if opField w = 0x12 then .ok (.oscReset (argField w))
  else .error (.badOpcode (opField w))

/-- The word whose four bytes, lowest address first, are given: little-endian (20_memory.md R53). -/
def wordOfBytes (b0 b1 b2 b3 : Byte) : Word := b3 ++ b2 ++ b1 ++ b0

/-- Byte lane `j` of a word, bits [8j+7:8j] (R53). -/
def byteOfWord (w : Word) (j : Nat) : Byte := w.extractLsb' (8 * j) 8

/-- The command at the head of a byte sequence, with the bytes after it: every command is exactly one
word (R68, R72). -/
def decodeBytes : List Byte → Except DecodeError (Instr × List Byte)
  | b0 :: b1 :: b2 :: b3 :: rest => (decode (wordOfBytes b0 b1 b2 b3)).map (·, rest)
  | bytes => .error (.truncated bytes.length)

/-- The word of a command, `{ARG, OP}` (R68). -/
def encode (i : Instr) : Word := BitVec.ofNat 24 i.arg ++ i.opcode

/-- The four bytes of a command's word, lowest address first (R53). -/
def encodeBytes (i : Instr) : List Byte := (List.range 4).map (byteOfWord (encode i))

/-- The command the decoder reads from a table row's bits: the row's `nbits` bits are `w`, the bits
above them are zero, laid out as the bytes of one little-endian word. -/
def decodeTableWord (nbits w : Nat) : Option Instr :=
  let word : Word := BitVec.ofNat 32 (w % 2 ^ nbits)
  match decodeBytes ((List.range 4).map (byteOfWord word)) with
  | .ok (i, _) => some i
  | .error _ => none

end Sys2Proof
end

