-- ==== Sys2Proof/Config.lean ====
section
/-! DEFINITION. What one HBE instance fixes (00_scope.md R8) and the values the spec leaves open
(93_implementation_defined.md, part 1): opaque constants without a body, so that a claim holds for
every value of them. The bounds the spec does set are in their types or in `Machine/Functions.lean`. -/

namespace Sys2Proof.Config

/-- `CAPACITY` of R8: 200 harmonic channels. -/
def capacity : Nat := 200

/-- `BUF_WORDS` of R8: words in each sample buffer. -/
def bufWords : Nat := 4096

/-- The ID register's constant (10_state.md R25). -/
def idWord : Word := 0x48424E4B

/-- The VERSION register's constant, version 1.0 (00_scope.md R4, 10_state.md R25). -/
def versionWord : Word := 0x00010000

/-- A binary32 value in [-1, 1] that is no NaN, as sign and magnitude bits: the magnitude bits of such
a value are those of 0 up to those of 1.0 (`0x3F800000`), so the type holds exactly the values R15
allows a noise draw (-0.0 included) and R17 allows `CFG_SIN`. -/
structure UnitValue where
  negative  : Bool
  magnitude : Fin 0x3F800001
deriving DecidableEq, Repr, Inhabited

/-- Free value (log entry 6): `CFG_SIN` away from the four phases R17 pins. -/
opaque freeSine : Word → UnitValue

/-- Free value (log entry 6): `CFG_TAN`, of which R17 and 42_filter.md R113 require nothing. -/
opaque freeTan : Word → Word

/-- Free value (log entry 6): `CFG_POW` away from the points R17 pins. -/
opaque freePow : Word → Word → Word

/-- Free value (log entry 5): the noise draws of R15 and 43_bank_mixer.md R118, by draw number. -/
opaque noise : Nat → UnitValue

/-- Free value (log entry 4): what a buffer byte holds after the given power-on (10_state.md R47). -/
opaque powerOnByte : Nat → Nat → Byte

/-- Free value (log entry 8): which of two equal operands of `max` is returned when they are zeros of
different sign (R12, 41_update_engine.md R102). -/
opaque maxTakesFirst : Word → Word → Bool

/-- Open parameter `BASE_ADDR` (20_memory.md R49): where the platform maps the HBE's window. No rule of
the HBE depends on it. -/
opaque baseAddr : Nat

/-- The platform address of an HBE byte address (20_memory.md R49, 60_exceptions.md R149). -/
def platformAddress (a : BusAddr) : Nat := baseAddr + a.toNat

end Sys2Proof.Config
end

