-- ==== Sys2Proof/Machine/Binary32.lean ====
section
/-! DEFINITION. Binary32 arithmetic (00_scope.md R12 to R14): every operation decodes its operands,
computes the exact rational result and rounds once to nearest, ties to even. The results are those of
IEEE 754, which the spec names and does not restate (log entry 9). -/

namespace Sys2Proof.Machine

/-- +0.0, `ONE`, `-ONE`, `HALF`, `TWENTY`, `TENTH32`, `PI32` and the canonical NaN (R12, R14). -/
def F32.zero : Word := 0x00000000
def F32.one : Word := 0x3F800000
def F32.negOne : Word := 0xBF800000
def F32.half : Word := 0x3F000000
def F32.twenty : Word := 0x41A00000
def F32.tenth : Word := 0x3DCCCCCD
def F32.pi : Word := 0x40490FDB
def F32.qNaN : Word := 0x7FC00000

/-- What a binary32 encoding denotes: no number, an infinity, or a rational with the sign its encoding
carries (so that the two zeros stay apart). -/
inductive F32Value where
  | nan
  | inf (neg : Bool)
  | fin (neg : Bool) (q : Rat)
deriving DecidableEq, Repr

/-- Sign in bit 31, biased exponent in [30:23], fraction in [22:0] (20_memory.md R53). -/
def F32.sign (w : Word) : Bool := w.getLsbD 31
def F32.expField (w : Word) : Nat := (w.extractLsb' 23 8).toNat
def F32.fracField (w : Word) : Nat := (w.extractLsb' 0 23).toNat

/-- The magnitude of a finite encoding: `m * 2^max(e,1) / 2^150`, where the significand `m` has the
hidden bit unless the exponent field is 0 (subnormals kept, R12). -/
def F32.finiteMagnitude (e f : Nat) : Rat :=
  mkRat ((if e = 0 then f else 2 ^ 23 + f) * 2 ^ max e 1) (2 ^ 150)

/-- The value of an encoding (R12). -/
def F32.value (w : Word) : F32Value :=
  let e := F32.expField w
  let f := F32.fracField w
  if e = 255 then (if f = 0 then .inf (F32.sign w) else .nan)
  else .fin (F32.sign w) (if F32.sign w then -(F32.finiteMagnitude e f) else F32.finiteMagnitude e f)

/-- The rational a finite encoding denotes (R13); 0 for the encodings that denote none, which no rule
uses. -/
def F32.toRat (w : Word) : Rat :=
  match F32.value w with
  | .fin _ q => q
  | _ => 0

/-- `RNE_int(q)`: the nearest integer, ties to even (R13). -/
def rneInt (q : Rat) : Int :=
  let f := q.floor
  let r := q - f
  if r < 1 / 2 then f
  else if 1 / 2 < r then f + 1
  else if f % 2 = 0 then f else f + 1

/-- The magnitude bits of a non-negative rational rounded to binary32. With `t` the value in units of
the least subnormal and `k` the bits of `t` beyond the 24 of a significand, the significand `t / 2^k`
rounded to an integer and added to `k * 2^23` is the encoding, a carry out of the significand
included; from the encoding of infinity on it is infinity (R12, R13). -/
def rneMagnitude (q : Rat) : Nat :=
  let t := q * 2 ^ 149
  let k := Nat.log2 t.floor.toNat - 23
  min (k * 2 ^ 23 + (rneInt (t / 2 ^ k)).toNat) 0x7F800000

/-- The encoding with the given sign and magnitude bits. -/
def F32.ofParts (neg : Bool) (magnitude : Nat) : Word :=
  BitVec.ofNat 32 ((if neg then 2 ^ 31 else 0) + magnitude)

/-- The absolute value of a rational. -/
def absRat (q : Rat) : Rat := if q < 0 then -q else q

/-- A rational rounded once to binary32 under the given sign, the sign of a zero result. -/
def roundSigned (neg : Bool) (q : Rat) : Word := F32.ofParts neg (rneMagnitude (absRat q))

/-- `RNE32(q)` (R13): overflow gives a signed infinity. -/
def rne32 (q : Rat) : Word := roundSigned (decide (q < 0)) q

/-- The binary32 value of a small integer, exact below 2^24 (`f32(j)` of R12). -/
def f32 (j : Nat) : Word := rne32 (j : Rat)

/-- The opposite sign. -/
def neg32 (a : Word) : Word := a ^^^ 0x80000000

/-- IEEE 754 addition (R12). An exact zero sum is +0.0 unless both operands are negative zeros. -/
def add32 (a b : Word) : Word :=
  match F32.value a, F32.value b with
  | .nan, _ => F32.qNaN
  | .inf _, .nan => F32.qNaN
  | .fin _ _, .nan => F32.qNaN
  | .inf s, .inf t => if s = t then F32.ofParts s 0x7F800000 else F32.qNaN
  | .inf s, .fin _ _ => F32.ofParts s 0x7F800000
  | .fin _ _, .inf t => F32.ofParts t 0x7F800000
  | .fin s x, .fin t y => if x + y = 0 then F32.ofParts (s && t) 0 else rne32 (x + y)

/-- IEEE 754 subtraction, the sum with the opposite (R12). -/
def sub32 (a b : Word) : Word := add32 a (neg32 b)

/-- IEEE 754 multiplication (R12). -/
def mul32 (a b : Word) : Word :=
  match F32.value a, F32.value b with
  | .nan, _ => F32.qNaN
  | .inf _, .nan => F32.qNaN
  | .fin _ _, .nan => F32.qNaN
  | .inf s, .inf t => F32.ofParts (s ^^ t) 0x7F800000
  | .inf s, .fin t y => if y = 0 then F32.qNaN else F32.ofParts (s ^^ t) 0x7F800000
  | .fin s x, .inf t => if x = 0 then F32.qNaN else F32.ofParts (s ^^ t) 0x7F800000
  | .fin s x, .fin t y => roundSigned (s ^^ t) (x * y)

/-- IEEE 754 division (R12): `0/0` and `inf/inf` are NaN, another division by zero is an infinity. -/
def div32 (a b : Word) : Word :=
  match F32.value a, F32.value b with
  | .nan, _ => F32.qNaN
  | .inf _, .nan => F32.qNaN
  | .fin _ _, .nan => F32.qNaN
  | .inf _, .inf _ => F32.qNaN
  | .inf s, .fin t _ => F32.ofParts (s ^^ t) 0x7F800000
  | .fin s _, .inf t => F32.ofParts (s ^^ t) 0
  | .fin s x, .fin t y =>
    if y = 0 then (if x = 0 then F32.qNaN else F32.ofParts (s ^^ t) 0x7F800000)
    else roundSigned (s ^^ t) (x / y)

/-- IEEE 754 `a < b`, false on a NaN (R12). -/
def lt32 (a b : Word) : Bool :=
  match F32.value a, F32.value b with
  | .nan, _ => false
  | .inf _, .nan => false
  | .fin _ _, .nan => false
  | .inf s, .inf t => s && !t
  | .inf s, .fin _ _ => s
  | .fin _ _, .inf t => !t
  | .fin _ x, .fin _ y => decide (x < y)

/-- IEEE 754 `a <= b`, false on a NaN (R12). -/
def le32 (a b : Word) : Bool :=
  match F32.value a, F32.value b with
  | .nan, _ => false
  | .inf _, .nan => false
  | .fin _ _, .nan => false
  | .inf s, .inf t => s || !t
  | .inf s, .fin _ _ => s
  | .fin _ _, .inf t => !t
  | .fin _ x, .fin _ y => decide (x ≤ y)

/-- IEEE 754 `a == b`, false on a NaN; the two zeros are equal (R12). -/
def eq32 (a b : Word) : Bool :=
  match F32.value a, F32.value b with
  | .nan, _ => false
  | .inf _, .nan => false
  | .fin _ _, .nan => false
  | .inf s, .inf t => s == t
  | .inf _, .fin _ _ => false
  | .fin _ _, .inf _ => false
  | .fin _ x, .fin _ y => decide (x = y)

/-- Neither an infinity nor a NaN (R12). -/
def isFinite32 (a : Word) : Bool := F32.expField a != 255

/-- Finite and greater than zero: the condition of 43_bank_mixer.md R117 and 44_control_commands.md
R131. -/
def isPositive32 (a : Word) : Bool := isFinite32 a && lt32 F32.zero a

/-- `max` of R12, for operands that are no NaN. Of two zeros of different sign the spec does not say
which is returned: a free choice (log entry 8). -/
def max32 (a b : Word) : Word :=
  if lt32 a b then b else if lt32 b a then a else if a = b then a
  else if Config.maxTakesFirst a b then a else b

/-- `min` of R12, for operands that are no NaN. Its one use, against `ONE`, meets no two equal operands
with different encodings. -/
def min32 (a b : Word) : Word := if lt32 b a then b else a

end Sys2Proof.Machine
end

