-- ==== Sys2Proof/Machine/Functions.lean ====
section
/-! DEFINITION. The configuration functions and the noise draw (00_scope.md R15, R17): exactly the
properties R17 requires of every configuration are built in, everything else is a free value of
`Config` (log entries 5 and 6). -/

namespace Sys2Proof.Machine

/-- The encoding of a value in [-1, 1]. -/
def unitWord (u : Config.UnitValue) : Word := F32.ofParts u.negative u.magnitude.val

/-- `CFG_SIN` (R17): +0.0, 1.0, +0.0 and -1.0 at the four quarter phases, and a value in [-1, 1]
everywhere. -/
def cfgSin (p : Word) : Word :=
  if p = 0x00000000 then F32.zero
  else if p = 0x40000000 then F32.one
  else if p = 0x80000000 then F32.zero
  else if p = 0xC0000000 then F32.negOne
  else unitWord (Config.freeSine p)

/-- `CFG_TAN` (R17): nothing is required of it (42_filter.md R113). -/
def cfgTan (x : Word) : Word := Config.freeTan x

/-- `CFG_POW` (R17): `CFG_POW(1.0, y) = 1.0` for every `y`, and `CFG_POW(x, 1.0) = x` for finite
`x > 0`. -/
def cfgPow (x y : Word) : Word :=
  if x = F32.one then F32.one
  else if y = F32.one && isPositive32 x then x
  else Config.freePow x y

/-- The noise draw of the given number (R15): any value in [-1, 1], never a NaN. -/
def noiseDraw (k : Nat) : Word := unitWord (Config.noise k)

end Sys2Proof.Machine
end

