-- ==== Sys2Proof/Machine/State.lean ====
section
/-! DEFINITION. The state of the HBE as plain data (10_state.md, 20_memory.md R48 and R51,
70_reset_and_hazards.md table T11), the reasons a step can stop, and the state after power-on reset.
INVENTORY.md lists every field with its rule. -/

namespace Sys2Proof.Machine

/-- The error codes the HBE reports (60_exceptions.md table T9); codes 7 to 15 are never reported. -/
inductive ErrCode where
  | none | busy | badOpcode | notPrepared | badLength | badConfig | badSettings
deriving DecidableEq, Repr

/-- The thirteen read-write settings and configuration registers that a command latches at its issue
(30_encoding.md R75, 10_state.md table T1): the same record is the registers and a snapshot of them.
HCOUNT is write-any-read-legal, 0 to 200 (10_state.md R36); MOD_CTRL has four fields (R37). -/
structure Settings where
  srCfg     : Word
  maxblkCfg : Word
  oscFreq   : Word
  f0        : Word
  qbase     : Word
  curve     : Word
  timbre    : Word
  detune    : Word
  link      : Word
  depth     : Word
  rate      : Word
  hcount    : Fin 201
  modCtrl   : BitVec 4
deriving DecidableEq, Repr

/-- An issued command: its word (opcode w[7:0], argument w[31:8]) and the settings latched with it
(10_state.md R43, 30_encoding.md R73). -/
structure Pending where
  word : Word
  snap : Settings
deriving DecidableEq, Repr

/-- The oscillator's phase, increment and enable (10_state.md R40). -/
structure Osc where
  p   : Word
  inc : Word
  en  : Bool
deriving DecidableEq, Repr

/-- The two integrator states of one filter (10_state.md R41, 42_filter.md R107). -/
structure Svf where
  s1 : Word
  s2 : Word
deriving DecidableEq, Repr

/-- The two sides of the HBE (00_scope.md R8). -/
inductive Side where
  | left | right
deriving DecidableEq, Repr

/-- One harmonic channel: a filter for each side (10_state.md R41). -/
structure Channel where
  left  : Svf
  right : Svf
deriving DecidableEq, Repr

/-- What the buffer bytes no write has touched hold: zero once PREPARE has cleared them
(44_control_commands.md R131), or the draws of the given power-on (10_state.md R47). -/
inductive Fill where
  | powerOn (draw : Nat)
  | cleared
deriving DecidableEq, Repr

/-- The buffer memory of 20_memory.md R51: the bytes written since the last power-on or PREPARE, by
address, over a fill. -/
structure Memory where
  fill  : Fill
  cells : List Host.Cell
deriving DecidableEq, Repr

/-- The size of a bus access: 1, 2 or 4 bytes (20_memory.md R48). -/
inductive AccessSize where
  | byte | half | word
deriving DecidableEq, Repr

/-- The bus port's answer to a transaction: `(rdata, err)` to a read, `err` to a write (R48). -/
inductive BusResponse where
  | read (rdata : Word) (err : Bool)
  | write (err : Bool)
deriving DecidableEq, Repr

/-- What comes next from outside: a bus transaction of the host (R48), its polling loop WAIT
(30_encoding.md R79), or the reset pin driven to a level (70_reset_and_hazards.md R153). -/
inductive HostOp where
  | read (addr : BusAddr) (size : AccessSize)
  | write (addr : BusAddr) (size : AccessSize) (wdata : Word)
  | wait
  | rst (level : Bool)
deriving DecidableEq, Repr

/-- The two agents (00_scope.md R19). -/
inductive Agent where
  | host | engine
deriving DecidableEq, Repr

/-- The whole state. BUSY, OSC_EN and `irq` are computed (10_state.md R43, 40_oscillator.md R88,
60_exceptions.md R142); ID and VERSION are constants (10_state.md R25). The last four fields are the
model's own: the host's coming operations, whose turn it is, and the two draw counters. -/
structure State where
  rstN       : Bool
  irqEn      : Bool
  settings   : Settings
  liveSr     : Word
  liveMaxblk : Fin 4097
  osc        : Osc
  ch         : Vector Channel 200
  pending    : Option Pending
  done       : Bool
  err        : Bool
  busErr     : Bool
  prepared   : Bool
  errCode    : ErrCode
  hdone      : BitVec 8
  mem        : Memory
  busResp    : Option BusResponse
  host       : List HostOp
  turns      : List Agent
  drawn      : Nat
  powerOns   : Nat
deriving DecidableEq, Repr

/-- Why the machine stops. -/
inductive Fault where
  /-- A bus transaction while `rst_n` is low: it "gets no response the model defines"
  (70_reset_and_hazards.md R153, 93_implementation_defined.md I16). Raised by the host's bus operations
  only, never by a command. Safe: the model stops where the spec defines nothing. -/
  | accessDuringReset
deriving DecidableEq, Repr

/-- Why a command has no meaning here. -/
inductive Refusal where
  /-- A command of the table the model gives no meaning to. Raised by no arm of `exec`: every command
  has its meaning. Safe. -/
  | notModelled (mnemonic : String)
deriving DecidableEq, Repr

/-- Power-on values of the settings registers (10_state.md table T1). -/
def Settings.reset : Settings where
  srCfg     := 0x473B8000
  maxblkCfg := 0x00000200
  oscFreq   := 0x00000000
  f0        := 0x42C80000
  qbase     := 0x3F800000
  curve     := 0x3F800000
  timbre    := 0x3F000000
  detune    := 0x3F800000
  link      := 0x00000000
  depth     := 0x00000000
  rate      := 0x00000000
  hcount    := 50
  modCtrl   := 0

/-- A filter at rest (10_state.md R41). -/
def Svf.zero : Svf := ⟨0, 0⟩

/-- A channel at rest. -/
def Channel.zero : Channel := ⟨Svf.zero, Svf.zero⟩

/-- The channel file at rest, all 800 words +0.0 (10_state.md R41, 44_control_commands.md R132). -/
def chZero : Vector Channel 200 := Vector.replicate 200 Channel.zero

/-- The oscillator disabled at phase 0 (10_state.md R40). -/
def Osc.off : Osc := ⟨0, 0, false⟩

/-- The state right after power-on reset (10_state.md R47, 70_reset_and_hazards.md R153 and T11). The
model's own fields and the bus port's outputs have the values of log entries 1, 2, 4, 5 and 13. -/
def State.reset : State where
  rstN       := true
  irqEn      := false
  settings   := Settings.reset
  liveSr     := 0x00000000
  liveMaxblk := 0
  osc        := Osc.off
  ch         := chZero
  pending    := none
  done       := false
  err        := false
  busErr     := false
  prepared   := false
  errCode    := .none
  hdone      := 0
  mem        := ⟨.powerOn 0, []⟩
  busResp    := none
  host       := []
  turns      := []
  drawn      := 0
  powerOns   := 0

end Sys2Proof.Machine
end

