-- ==== Sys2Proof/Machine/Ops.lean ====
section
/-! DEFINITION. The named operations over memory, the channel file and the command latch: reading and
writing buffer words (20_memory.md R51, R53), issuing a command (30_encoding.md R73 to R75), and ending
its performance, refused or not (R76, 60_exceptions.md R137). -/

namespace Sys2Proof.Machine

/-- `for k in 0..n-1` (00_scope.md R16): runs `k = 0, 1, ..., n-1` in order, nothing when `n = 0`. -/
def forTo {α : Type} (f : Nat → α → α) : Nat → α → α
  | 0, a => a
  | n + 1, a => f n (forTo f n a)

/-! ### Buffer memory -/

/-- The byte a sorted cell list holds at an address, if any. -/
def cellAt : List Host.Cell → Nat → Option Byte
  | [], _ => none
  | c :: cs, a => if c.1 = a then some c.2 else cellAt cs a

/-- The cell list without the cell of an address. -/
def dropCell (cs : List Host.Cell) (a : Nat) : List Host.Cell := cs.filter (fun c => c.1 != a)

/-- The cell list with a byte put at an address, in rising order of addresses. -/
def putCell : List Host.Cell → Nat → Byte → List Host.Cell
  | [], a, b => [(a, b)]
  | c :: cs, a, b =>
    if a < c.1 then (a, b) :: c :: cs
    else if c.1 = a then (a, b) :: cs
    else c :: putCell cs a b

/-- The byte a cell must not hold, because an unlisted address reads as it: zero once the buffers have
been cleared; before that an unlisted byte is a draw, which is no byte of the model's own. -/
def Memory.unlisted (m : Memory) : Option Byte :=
  match m.fill with
  | .cleared => some 0
  | .powerOn _ => none

/-- What an unlisted address reads as (log entry 4). -/
def Memory.fillByte (m : Memory) (a : Nat) : Byte :=
  match m.fill with
  | .cleared => 0
  | .powerOn draw => Config.powerOnByte draw a

/-- Addresses strictly rising from a lower bound, no cell equal to what is unlisted. -/
def canonicalFrom (unlisted : Option Byte) : Nat → List Host.Cell → Bool
  | _, [] => true
  | lo, c :: cs => decide (lo ≤ c.1) && (some c.2 != unlisted) && canonicalFrom unlisted (c.1 + 1) cs

/-- The canonical form of the memory: equal memories are equal data. -/
def Memory.wf (m : Memory) : Bool := canonicalFrom m.unlisted 0 m.cells

/-- One byte of memory. -/
def Memory.readByte (m : Memory) (a : Nat) : Byte := (cellAt m.cells a).getD (m.fillByte a)

/-- Write one byte, keeping the canonical form: the value an unlisted address reads as removes the
cell. -/
def Memory.writeByte (m : Memory) (a : Nat) (b : Byte) : Memory :=
  { m with cells := if some b = m.unlisted then dropCell m.cells a else putCell m.cells a b }

/-- One word, little-endian (20_memory.md R53). -/
def Memory.readWord (m : Memory) (a : Nat) : Word :=
  wordOfBytes (m.readByte a) (m.readByte (a + 1)) (m.readByte (a + 2)) (m.readByte (a + 3))

/-- Write one word, all 32 bits (R53, R56). -/
def Memory.writeWord (m : Memory) (a : Nat) (w : Word) : Memory :=
  (((m.writeByte a (byteOfWord w 0)).writeByte (a + 1) (byteOfWord w 1)).writeByte (a + 2)
    (byteOfWord w 2)).writeByte (a + 3) (byteOfWord w 3)

/-- The five sample buffers (20_memory.md R51). -/
inductive Buf where
  | inL | inR | outL | outR | mod
deriving DecidableEq, Repr

/-- The byte address of word 0 of a buffer (table T3). -/
def Buf.base : Buf → Nat
  | .inL => 0x10000
  | .inR => 0x14000
  | .outL => 0x18000
  | .outR => 0x1C000
  | .mod => 0x20000

/-- The byte address of word `k` of a buffer, `B + 4*k` (R51). -/
def wordAddr (b : Buf) (k : Nat) : Nat := b.base + 4 * k

/-- The input and output buffer of a side. -/
def Side.inBuf : Side → Buf
  | .left => .inL
  | .right => .inR
def Side.outBuf : Side → Buf
  | .left => .outL
  | .right => .outR

/-- `IN_L[k]`, `MOD[k]` and so on (00_scope.md R11). -/
def State.buf (s : State) (b : Buf) (k : Nat) : Word := s.mem.readWord (wordAddr b k)

/-- `IN_L[k] <- w` and so on (R11). -/
def State.setBuf (s : State) (b : Buf) (k : Nat) (w : Word) : State :=
  { s with mem := s.mem.writeWord (wordAddr b k) w }

/-- Every word of the five buffers +0.0 (44_control_commands.md R131). -/
def Memory.zeroed : Memory := ⟨.cleared, []⟩

/-! ### Channel file -/

/-- The filter of one side of a channel. -/
def Channel.side (c : Channel) : Side → Svf
  | .left => c.left
  | .right => c.right
def Channel.setSide (c : Channel) (sd : Side) (f : Svf) : Channel :=
  match sd with
  | .left => { c with left := f }
  | .right => { c with right := f }

/-- Channel `i`; the indices the rules use are 0 to 199 (00_scope.md R9). -/
def State.chan (s : State) (i : Nat) : Channel := s.ch[i]?.getD Channel.zero

/-- `ch[i][s]` (00_scope.md R11). -/
def State.svf (s : State) (i : Nat) (sd : Side) : Svf := (s.chan i).side sd

/-- `ch[i][s] <- f`. -/
def State.setSvf (s : State) (i : Nat) (sd : Side) (f : Svf) : State :=
  { s with ch := s.ch.setIfInBounds i ((s.chan i).setSide sd f) }

/-! ### The command latch -/

/-- STATUS.BUSY: 1 exactly when the latch holds a command (10_state.md R43). -/
def State.busy (s : State) : Bool := s.pending.isSome

/-- The snapshot a command reads its settings from (30_encoding.md R75): the pending command's. With
an empty latch, which the engine never performs, the registers as an issue would latch them (log entry
14). -/
def State.snap (s : State) : Settings :=
  match s.pending with
  | some c => c.snap
  | none => s.settings

/-- Issue of a command word (30_encoding.md R73): the latch takes the word and the snapshot, DONE, ERR
and ERRCODE are cleared. -/
def State.issue (s : State) (w : Word) : State :=
  { s with pending := some ⟨w, s.settings⟩, done := false, err := false, errCode := .none }

/-- A CMD write while a command is pending is rejected (R74). -/
def State.rejectIssue (s : State) : State := { s with err := true, errCode := .busy }

/-- A host write to CMD (R73, R74). -/
def State.writeCmd (s : State) (w : Word) : State := if s.busy then s.rejectIssue else s.issue w

/-- What the performance of a command comes to: its effect, or `raise CmdError(c)` (00_scope.md
R15). -/
inductive CmdResult where
  | performed (s : State)
  | raised (c : ErrCode)
deriving DecidableEq, Repr

/-- The end of a refused command (60_exceptions.md R137): BUSY = 0, DONE = 1, ERR = 1, ERRCODE = c,
nothing else changed. This is the one operation by which a command takes its exception. -/
def State.refuse (s : State) (c : ErrCode) : State :=
  { s with pending := none, done := true, err := true, errCode := c }

/-- The end of a performed command (30_encoding.md R76): BUSY = 0, DONE = 1; ERR and ERRCODE stay as a
CMD write rejected meanwhile left them (60_exceptions.md R139). -/
def State.finish (s : State) : State := { s with pending := none, done := true }

/-- The engine's step around a performance started in state `s` (30_encoding.md R76). -/
def complete (s : State) : CmdResult → State
  | .performed t => t.finish
  | .raised c => s.refuse c

/-- The host's acknowledgement, its nearest thing to a return from an exception (60_exceptions.md R143,
R146): a write of `v` to STATUS clears DONE, ERR with ERRCODE, and BUSERR where its bits are 1, and
ignores every other bit (10_state.md R28). -/
def State.writeStatus (s : State) (v : Word) : State :=
  { s with
    done := s.done && !v.getLsbD 1
    err := s.err && !v.getLsbD 2
    errCode := if v.getLsbD 2 then .none else s.errCode
    busErr := s.busErr && !v.getLsbD 3 }

/-- The host with the given operations still to do. -/
def State.withHost (s : State) (ops : List HostOp) : State := { s with host := ops }

/-- The command in the latch, with the engine to move: where a host's CMD write leaves the machine. Used
by `State.withFetchWord` (log entry 3). -/
def State.placeCommand (s : State) (w : Word) : State :=
  { s.issue w with rstN := true, turns := .engine :: s.turns }

/-- What power-on reset leaves (70_reset_and_hazards.md R153): every piece of state takes its power-on value, the
buffers a fresh draw. The pin has the given level; what the host still has to do, whose turn it is and
the draws taken so far are the model's own and stay. -/
def State.powerOn (s : State) (level : Bool) : State :=
  { State.reset with
    rstN := level
    mem := ⟨.powerOn (s.powerOns + 1), []⟩
    host := s.host
    turns := s.turns
    drawn := s.drawn
    powerOns := s.powerOns + 1 }

/-- The reset pin driven to a level (70_reset_and_hazards.md R153): while it is low, and when it rises,
every piece of state takes its power-on value. A pin that is high and stays high resets nothing. -/
def State.driveReset (s : State) (level : Bool) : State :=
  if s.rstN && level then s else s.powerOn level

end Sys2Proof.Machine
end

