-- ==== Sys2Proof/Machine/Flags.lean ====
section
/-! DEFINITION. STATUS, the HBE's only flags (10_state.md R27, R39), as the word a host reads, and the
interrupt output (60_exceptions.md R142). -/

namespace Sys2Proof.Machine

/-- The number of an error code (60_exceptions.md table T9). -/
def ErrCode.code : ErrCode → BitVec 4
  | .none => 0
  | .busy => 1
  | .badOpcode => 2
  | .notPrepared => 3
  | .badLength => 4
  | .badConfig => 5
  | .badSettings => 6

/-- STATUS as read (table T2): reserved bits read 0; BUSY and OSC_EN are the latch's and the
oscillator's. -/
def State.status (s : State) : Word :=
  (0 : BitVec 8) ++ s.hdone ++ (0 : BitVec 4) ++ s.errCode.code ++ (0 : BitVec 2) ++
    BitVec.ofBool s.osc.en ++ BitVec.ofBool s.prepared ++ BitVec.ofBool s.busErr ++
    BitVec.ofBool s.err ++ BitVec.ofBool s.done ++ BitVec.ofBool s.busy

/-- The interrupt output: the level `CTRL.IRQ_EN ∧ STATUS.DONE` (R142). -/
def State.irq (s : State) : Bool := s.irqEn && s.done

end Sys2Proof.Machine
end

