-- ==== Sys2Proof/Machine/Bus.lean ====
section
/-! DEFINITION. The bus interface (20_memory.md): the address map, the register window
(10_state.md table T1), and the two transactions `Read(addr, size)` and `Write(addr, size, wdata)`. -/

namespace Sys2Proof.Machine

/-- The registers of table T1 (10_state.md R23). -/
inductive Reg where
  | id | version | cmd | status | ctrl | srCfg | maxblkCfg | liveSr | liveMaxblk | oscFreq
  | oscPhase | oscInc | f0 | qbase | curve | timbre | detune | link | depth | rate | hcount | modCtrl
deriving DecidableEq, Repr

/-- Every register, in the order of table T1. -/
def Reg.all : List Reg :=
  [.id, .version, .cmd, .status, .ctrl, .srCfg, .maxblkCfg, .liveSr, .liveMaxblk, .oscFreq,
    .oscPhase, .oscInc, .f0, .qbase, .curve, .timbre, .detune, .link, .depth, .rate, .hcount, .modCtrl]

/-- The byte offset of a register (table T1). -/
def Reg.offset : Reg → Nat
  | .id => 0x000
  | .version => 0x004
  | .cmd => 0x008
  | .status => 0x00C
  | .ctrl => 0x010
  | .srCfg => 0x014
  | .maxblkCfg => 0x018
  | .liveSr => 0x01C
  | .liveMaxblk => 0x020
  | .oscFreq => 0x024
  | .oscPhase => 0x028
  | .oscInc => 0x02C
  | .f0 => 0x040
  | .qbase => 0x044
  | .curve => 0x048
  | .timbre => 0x04C
  | .detune => 0x050
  | .link => 0x054
  | .depth => 0x058
  | .rate => 0x05C
  | .hcount => 0x060
  | .modCtrl => 0x064

/-- The register at an offset of the register window; none at a reserved offset (R23, R24). -/
def Reg.atOffset (off : Nat) : Option Reg := Reg.all.find? (fun r => r.offset == off)

/-- What an aligned byte address selects (20_memory.md table T3): a register offset, a word of a
buffer, or a reserved address. -/
inductive Target where
  | register (off : Nat)
  | bufWord (b : Buf) (k : Nat)
  | reserved
deriving DecidableEq, Repr

/-- The address map (table T3). -/
def targetOf (addr : BusAddr) : Target :=
  let a := addr.toNat
  if a < 0x01000 then .register a
  else if a < 0x10000 then .reserved
  else if a < 0x14000 then .bufWord .inL ((a - 0x10000) / 4)
  else if a < 0x18000 then .bufWord .inR ((a - 0x14000) / 4)
  else if a < 0x1C000 then .bufWord .outL ((a - 0x18000) / 4)
  else if a < 0x20000 then .bufWord .outR ((a - 0x1C000) / 4)
  else if a < 0x24000 then .bufWord .mod ((a - 0x20000) / 4)
  else .reserved

/-- A host read of a register (10_state.md R23 to R37); CMD reads 0 (R26). -/
def State.readReg (s : State) : Reg → Word
  | .id => Config.idWord
  | .version => Config.versionWord
  | .cmd => 0
  | .status => s.status
  | .ctrl => (BitVec.ofBool s.irqEn).setWidth 32
  | .srCfg => s.settings.srCfg
  | .maxblkCfg => s.settings.maxblkCfg
  | .liveSr => s.liveSr
  | .liveMaxblk => BitVec.ofNat 32 s.liveMaxblk.val
  | .oscFreq => s.settings.oscFreq
  | .oscPhase => s.osc.p
  | .oscInc => s.osc.inc
  | .f0 => s.settings.f0
  | .qbase => s.settings.qbase
  | .curve => s.settings.curve
  | .timbre => s.settings.timbre
  | .detune => s.settings.detune
  | .link => s.settings.link
  | .depth => s.settings.depth
  | .rate => s.settings.rate
  | .hcount => BitVec.ofNat 32 s.settings.hcount.val
  | .modCtrl => s.settings.modCtrl.setWidth 32

/-- What HCOUNT stores of a written value: `min(v, 200)` (10_state.md R36). -/
def clampHcount (v : Word) : Fin 201 := Fin.ofNat 201 (min v.toNat 200)

/-- The settings registers after a host write to one of them; every other register leaves them as they
are (10_state.md R30 to R37). -/
def Settings.write (S : Settings) (v : Word) : Reg → Settings
  | .srCfg => { S with srCfg := v }
  | .maxblkCfg => { S with maxblkCfg := v }
  | .oscFreq => { S with oscFreq := v }
  | .f0 => { S with f0 := v }
  | .qbase => { S with qbase := v }
  | .curve => { S with curve := v }
  | .timbre => { S with timbre := v }
  | .detune => { S with detune := v }
  | .link => { S with link := v }
  | .depth => { S with depth := v }
  | .rate => { S with rate := v }
  | .hcount => { S with hcount := clampHcount v }
  | .modCtrl => { S with modCtrl := v.setWidth 4 }
  | .id | .version | .cmd | .status | .ctrl | .liveSr | .liveMaxblk | .oscPhase | .oscInc => S

/-- A host write to a register (10_state.md R23 to R37, 20_memory.md R57): CMD issues, STATUS clears,
CTRL and the settings store, the read-only registers ignore it. -/
def State.writeReg (s : State) (v : Word) : Reg → State
  | .cmd => s.writeCmd v
  | .status => s.writeStatus v
  | .ctrl => { s with irqEn := v.getLsbD 0 }
  | r => { s with settings := s.settings.write v r }

/-- Whether an access is a bus error (20_memory.md R54, R55, R58): a size other than 4, a misaligned
address, or a buffer access while BUSY = 1. -/
def State.isBusError (s : State) (addr : BusAddr) (size : AccessSize) : Bool :=
  size != .word || addr.toNat % 4 != 0 ||
    (s.busy && match targetOf addr with
      | .bufWord _ _ => true
      | .register _ => false
      | .reserved => false)

/-- A bus error (R55): BUSERR is set, nothing else of the HBE changes. -/
def State.busFault (s : State) (r : BusResponse) : State := { s with busErr := true, busResp := some r }

/-- The word an accepted read returns (R24, R51, R52): reserved addresses read 0. -/
def State.readTarget (s : State) : Target → Word
  | .register off =>
    match Reg.atOffset off with
    | some r => s.readReg r
    | none => 0
  | .bufWord b k => s.buf b k
  | .reserved => 0

/-- An accepted write (R24, R51, R52): reserved addresses and MOD ignore it. -/
def State.writeTarget (s : State) (v : Word) : Target → State
  | .register off =>
    match Reg.atOffset off with
    | some r => s.writeReg v r
    | none => s
  | .bufWord b k => if b = .mod then s else s.setBuf b k v
  | .reserved => s

/-- `Read(addr, size)` (R48): the response is left on the port. -/
def State.busRead (s : State) (addr : BusAddr) (size : AccessSize) : State :=
  if s.isBusError addr size then s.busFault (.read 0 true)
  else { s with busResp := some (.read (s.readTarget (targetOf addr)) false) }

/-- `Write(addr, size, wdata)` (R48). -/
def State.busWrite (s : State) (addr : BusAddr) (size : AccessSize) (v : Word) : State :=
  if s.isBusError addr size then s.busFault (.write true)
  else { s.writeTarget v (targetOf addr) with busResp := some (.write false) }

end Sys2Proof.Machine
end

