-- ==== Sys2Proof/Machine/Operands.lean ====
section
/-! DEFINITION. The operands of the commands: the fields of a snapshot (30_encoding.md R75), the
Nyquist frequency (10_state.md R31), and the checks of a block length and of the settings
(43_bank_mixer.md R116, R117; 44_control_commands.md R131). -/

namespace Sys2Proof.Machine

/-- The four MOD_CTRL fields of a snapshot (10_state.md R37). -/
def Settings.fmEn (S : Settings) : Bool := S.modCtrl.getLsbD 0
def Settings.dmEn (S : Settings) : Bool := S.modCtrl.getLsbD 1
def Settings.tmEn (S : Settings) : Bool := S.modCtrl.getLsbD 2
def Settings.noiseEn (S : Settings) : Bool := S.modCtrl.getLsbD 3

/-- "Any modulation target enabled" (R37). -/
def Settings.anyMod (S : Settings) : Bool := S.fmEn || S.dmEn || S.tmEn

/-- The active harmonic count `N` (10_state.md R36). -/
def Settings.n (S : Settings) : Nat := S.hcount.val

/-- The Nyquist frequency, "sample rate / 2" (R31). -/
def nyquist (sr : Word) : Word := mul32 sr F32.half

/-- A block length PROCESS and OSC_ADVANCE accept: `n <= LIVE_MAXBLK` (R116, 40_oscillator.md R89). -/
def State.lengthOk (s : State) (n : Nat) : Bool := decide (n ≤ s.liveMaxblk.val)

/-- `SettingsLegal(S)` (R117). LINK is not checked. -/
def Settings.legal (S : Settings) : Bool :=
  isPositive32 S.f0 && isPositive32 S.qbase && isPositive32 S.curve &&
    (isFinite32 S.timbre && le32 F32.zero S.timbre && le32 S.timbre F32.one) &&
    isFinite32 S.detune && isFinite32 S.depth && isFinite32 S.rate

/-- The configuration PREPARE accepts: a finite positive sample rate and a block-size limit of 1 to 4096
(44_control_commands.md R131). -/
def Settings.configOk (S : Settings) : Bool :=
  isPositive32 S.srCfg && decide (1 ≤ S.maxblkCfg.toNat) && decide (S.maxblkCfg.toNat ≤ 4096)

end Sys2Proof.Machine
end

