-- ==== Sys2Proof/Machine/Filter.lean ====
section
/-! DEFINITION. The band-pass filter (42_filter.md): the topology-preserving-transform state-variable
filter, evaluated in the order written. -/

namespace Sys2Proof.Machine

/-- The coefficients `(g, R2, h)` of R108. -/
structure SvfCoeffs where
  g  : Word
  r2 : Word
  h  : Word
deriving DecidableEq, Repr

/-- `SvfCoeffs` from the prewarped gain `g` and the resonance `q` (R108). -/
def svfCoeffsOf (g q : Word) : SvfCoeffs :=
  let r2 := div32 F32.one q
  { g := g, r2 := r2,
    h := div32 F32.one (add32 (add32 F32.one (mul32 r2 g)) (mul32 g g)) }

/-- The argument `pi*y/sr` of the tangent (R108). -/
def svfArgument (sr y : Word) : Word := div32 (mul32 F32.pi y) sr

/-- `SvfCoeffs(y, q)` (R108). The prewarped gain is whatever `CFG_TAN` returns (R113). -/
def svfCoeffs (sr y q : Word) : SvfCoeffs := svfCoeffsOf (cfgTan (svfArgument sr y)) q

/-- `SvfStep` (R109): the band-pass output and the new filter state. -/
def svfStep (f : Svf) (c : SvfCoeffs) (x : Word) : Word × Svf :=
  let yHP := mul32 c.h (sub32 (sub32 x (mul32 f.s1 (add32 c.g c.r2))) f.s2)
  let yBP := add32 (mul32 yHP c.g) f.s1
  let s1' := add32 (mul32 yHP c.g) yBP
  let yLP := add32 (mul32 yBP c.g) f.s2
  let s2' := add32 (mul32 yBP c.g) yLP
  (yBP, { s1 := s1', s2 := s2' })

end Sys2Proof.Machine
end

