-- ==== Sys2Proof/Machine/Oscillator.lean ====
section
/-! DEFINITION. The oscillator (40_oscillator.md): the two primitives R81 and R82 and the commands
OSC_SETFREQ, OSC_ADVANCE and OSC_RESET (R88 to R90). -/

namespace Sys2Proof.Machine

/-- The increment of a ratio `r`: `RNE_int(r * 2^32) mod 2^32`, the product exact (R81, R91). -/
def incrementOf (r : Word) : Word := BitVec.ofInt 32 (rneInt (F32.toRat r * 2 ^ 32))

/-- `OscSetFrequency(f, sr)` (R81): an active setting keeps the phase, a disabling one zeroes it. -/
def Osc.setFrequency (o : Osc) (f sr : Word) : Osc :=
  if isPositive32 f && isFinite32 (div32 f sr) then
    { p := o.p, inc := incrementOf (div32 f sr), en := true }
  else Osc.off

/-- The sample an oscillator gives: the sine of its phase, or +0.0 while disabled (R82). -/
def Osc.sample (o : Osc) : Word := if o.en then cfgSin o.p else F32.zero

/-- The oscillator after one sample; the phase wraps modulo 2^32 and stands while disabled (R82). -/
def Osc.next (o : Osc) : Osc := if o.en then { o with p := o.p + o.inc } else o

/-- One pass of `OscAdvance`: `MOD[k]` takes the sample, then the phase advances (R82). -/
def oscSample (k : Nat) (s : State) : State :=
  { s.setBuf .mod k s.osc.sample with osc := s.osc.next }

/-- `OscAdvance(n)` (R82). -/
def oscAdvance (n : Nat) (s : State) : State := forTo oscSample n s

/-- OSC_SETFREQ (R88). -/
def performOscSetfreq (s : State) : CmdResult :=
  if !s.prepared then .raised .notPrepared
  else .performed { s with osc := s.osc.setFrequency s.snap.oscFreq s.liveSr }

/-- OSC_ADVANCE (R89): NOT_PREPARED, then BAD_LENGTH (60_exceptions.md R138). -/
def performOscAdvance (n : Nat) (s : State) : CmdResult :=
  if !s.prepared then .raised .notPrepared
  else if !s.lengthOk n then .raised .badLength
  else .performed (oscAdvance n s)

/-- OSC_RESET (R90): `osc.P <- 0`, never refused. -/
def performOscReset (s : State) : CmdResult := .performed { s with osc := { s.osc with p := 0 } }

/-- The meaning of OSC_SETFREQ: R88 within the engine's step of 30_encoding.md R76. -/
def execOscSetfreq (s : State) : Host.Outcome State Fault Refusal :=
  .next (complete s (performOscSetfreq s))

/-- The meaning of OSC_ADVANCE: R89 within the engine's step of R76. -/
def execOscAdvance (n : Nat) (s : State) : Host.Outcome State Fault Refusal :=
  .next (complete s (performOscAdvance n s))

/-- The meaning of OSC_RESET: R90 within the engine's step of R76. -/
def execOscReset (s : State) : Host.Outcome State Fault Refusal :=
  .next (complete s (performOscReset s))

end Sys2Proof.Machine
end

