-- ==== Sys2Proof/Machine/UpdateEngine.lean ====
section
/-! DEFINITION. The Update Engine (41_update_engine.md): frequency placement, aliasing guard, resonance
and gain laws, pure functions of the harmonic index `i`, the modulation value `m`, the snapshot `S` and
the sample rate in use. Each formula is evaluated left to right, one rounding per operation. -/

namespace Sys2Proof.Machine

/-- The factor `1 + m*DEPTH` of R92 and R93. -/
def modFactor (m : Word) (S : Settings) : Word := add32 F32.one (mul32 m S.depth)

/-- `DetuneEff(m, S)` (R92): both zeros clamp to `TENTH32`, after the bias. -/
def detuneEff (m : Word) (S : Settings) : Word :=
  let d0 := if S.dmEn then mul32 S.detune (modFactor m S) else S.detune
  if eq32 d0 F32.zero then F32.tenth else d0

/-- `FmFactor(m, S)` (R93). -/
def fmFactor (m : Word) (S : Settings) : Word := if S.fmEn then modFactor m S else F32.one

/-- `PartialPow(i, m, S)` (R93). -/
def partialPow (i : Nat) (m : Word) (S : Settings) : Word :=
  if i = 0 then F32.one else cfgPow (f32 (i + 1)) (detuneEff m S)

/-- `Freq(i, m, S)` (R93). -/
def freq (i : Nat) (m : Word) (S : Settings) : Word :=
  mul32 (mul32 (fmFactor m S) S.f0) (partialPow i m S)

/-- `Nominal(i, S)` (R94). -/
def nominal (i : Nat) (S : Settings) : Word := freq i F32.zero S

/-- The fold of a value above Nyquist: the least multiple of the sample rate that brings it to Nyquist
or below is subtracted, exactly, and the difference rounded once (R96). -/
def fold (sr x : Word) : Word :=
  if lt32 (nyquist sr) x then
    let k : Int := ((F32.toRat x - F32.toRat (nyquist sr)) / F32.toRat sr).ceil
    rne32 (F32.toRat x - (k : Rat) * F32.toRat sr)
  else x

/-- `Wrap(x)` (R96): the fold, then the reflection `(20 - y1) + 20`. -/
def wrap (sr x : Word) : Word :=
  let y1 := fold sr x
  if lt32 y1 F32.twenty then add32 (sub32 F32.twenty y1) F32.twenty else y1

/-- `Placed(i, m, S)` (R97): the placed frequency of a valid instant, none of an invalid one. An invalid
instant's frequency is used by no rule (43_bank_mixer.md R121). -/
def placed (sr : Word) (i : Nat) (m : Word) (S : Settings) : Option Word :=
  let f := freq i m S
  if isFinite32 f then
    let y := wrap sr f
    if le32 F32.twenty y && lt32 y (nyquist sr) then some y else none
  else none

/-- `Qi(i, S)` (R99). -/
def resonance (i : Nat) (S : Settings) : Word :=
  mul32 S.qbase (add32 (div32 (f32 i) (f32 2)) F32.one)

/-- `normalization(Q) = 1/Q` (R101). -/
def normalization (q : Word) : Word := div32 F32.one q

/-- `CurveBase(i, S)` (R100). -/
def curveBase (i : Nat) (S : Settings) : Word :=
  add32 (mul32 (div32 F32.negOne (f32 S.n)) (f32 i)) F32.one

/-- `CurveGain(i, S)` (R100). -/
def curveGain (i : Nat) (S : Settings) : Word :=
  mul32 (cfgPow (curveBase i S) (div32 F32.one S.curve)) (normalization (resonance i S))

/-- `clamp01(t)` (R102). -/
def clamp01 (t : Word) : Word := min32 F32.one (max32 F32.zero t)

/-- `TimbreEff(m, S)` (R102). -/
def timbreEff (m : Word) (S : Settings) : Word :=
  if S.tmEn then clamp01 (add32 S.timbre (mul32 m S.depth)) else S.timbre

/-- `BalanceGain(i, m, S)` (R102): parity of the index `i`. -/
def balanceGain (i : Nat) (m : Word) (S : Settings) : Word :=
  if i = 0 then F32.one
  else if i % 2 = 1 then sub32 F32.one (timbreEff m S)
  else timbreEff m S

/-- The record `Update(i, m, S)` returns (R104); `y` is present exactly when the instant is valid. -/
structure Update where
  y  : Option Word
  q  : Word
  cg : Word
  bg : Word
deriving DecidableEq, Repr

/-- `Update(i, m, S)` (R104). -/
def update (sr : Word) (i : Nat) (m : Word) (S : Settings) : Update where
  y  := placed sr i m S
  q  := resonance i S
  cg := curveGain i S
  bg := balanceGain i m S

end Sys2Proof.Machine
end

