-- ==== Sys2Proof/Machine/Bank.lean ====
section
/-! DEFINITION. The harmonic bank and the mixer (43_bank_mixer.md): PROCESS and its parts. -/

namespace Sys2Proof.Machine

/-- One pass of `NoisePrepass` (R118): a draw for IN_L[k], then one for IN_R[k]. -/
def noiseSample (k : Nat) (s : State) : State :=
  { (s.setBuf .inL k (noiseDraw s.drawn)).setBuf .inR k (noiseDraw (s.drawn + 1)) with
    drawn := s.drawn + 2 }

/-- `NoisePrepass(n)` (R118). -/
def noisePrepass (n : Nat) (s : State) : State := forTo noiseSample n s

/-- One pass of the output clear (R119). -/
def clearSample (k : Nat) (s : State) : State :=
  (s.setBuf .outL k F32.zero).setBuf .outR k F32.zero

/-- The output clear of a block (R119). -/
def clearOutput (n : Nat) (s : State) : State := forTo clearSample n s

/-- One filtered and gained sample (R121): curve gain, then balance gain; an invalid instant is +0.0 and
holds the filter state (42_filter.md R110). -/
def channelStep (sr : Word) (u : Update) (f : Svf) (x : Word) : Word × Svf :=
  match u.y with
  | some y =>
    let r := svfStep f (svfCoeffs sr y u.q) x
    (mul32 (mul32 r.1 u.cg) u.bg, r.2)
  | none => (F32.zero, f)

/-- The mixer's rule (R122): copy harmonic 0, add every later one. -/
def mixWord (i : Nat) (old out : Word) : Word := if i = 0 then out else add32 old out

/-- `SampleStep(i, k, S)` on one side (R121, R122). -/
def sideStep (i k : Nat) (u : Update) (sd : Side) (s : State) : State :=
  let r := channelStep s.liveSr u (s.svf i sd) (s.buf sd.inBuf k)
  (s.setSvf i sd r.2).setBuf sd.outBuf k (mixWord i (s.buf sd.outBuf k) r.1)

/-- `SampleStep(i, k, S)` (R121): `m = MOD[k]`, left then right. -/
def sampleStep (S : Settings) (i k : Nat) (s : State) : State :=
  let u := update s.liveSr i (s.buf .mod k) S
  sideStep i k u .right (sideStep i k u .left s)

/-- One processed harmonic: its samples in order (R115). -/
def harmonicBlock (S : Settings) (n i : Nat) (s : State) : State := forTo (sampleStep S i) n s

/-- The harmonic loop (R115, R120) from harmonic `i` on, at most `fuel` harmonics: it ends at the first
harmonic whose nominal frequency is not below Nyquist. The state and the number `H` reached. -/
def harmonicLoop (S : Settings) (n : Nat) : Nat → Nat → State → State × Nat
  | 0, i, s => (s, i)
  | fuel + 1, i, s =>
    if lt32 (nominal i S) (nyquist s.liveSr) then
      harmonicLoop S n fuel (i + 1) (harmonicBlock S n i s)
    else (s, i)

/-- The oscillator's part of a block (40_oscillator.md R87). -/
def modulate (S : Settings) (n : Nat) (s : State) : State :=
  oscAdvance n
    { s with osc := s.osc.setFrequency (if S.anyMod then S.rate else F32.zero) s.liveSr }

/-- A block up to the harmonic loop: oscillator, noise, output clear, in the order of R115. -/
def preBlock (S : Settings) (n : Nat) (s : State) : State :=
  let t := modulate S n s
  clearOutput n (if S.noiseEn then noisePrepass n t else t)

/-- A block: R115 after its checks. -/
def processBlock (S : Settings) (n : Nat) (s : State) : State :=
  let r := harmonicLoop S n S.n 0 (preBlock S n s)
  { r.1 with hdone := BitVec.ofNat 8 r.2 }

/-- PROCESS (R115): NOT_PREPARED, then BAD_LENGTH, then BAD_SETTINGS (60_exceptions.md R138). -/
def performProcess (n : Nat) (s : State) : CmdResult :=
  if !s.prepared then .raised .notPrepared
  else if !s.lengthOk n then .raised .badLength
  else if !s.snap.legal then .raised .badSettings
  else .performed (processBlock s.snap n s)

/-- The meaning of PROCESS: R115 within the engine's step of 30_encoding.md R76. -/
def execProcess (n : Nat) (s : State) : Host.Outcome State Fault Refusal :=
  .next (complete s (performProcess n s))

end Sys2Proof.Machine
end

