-- ==== Sys2Proof/Machine/Control.lean ====
section
/-! DEFINITION. The control commands NOP, PREPARE and RESET (44_control_commands.md). -/

namespace Sys2Proof.Machine

/-- NOP (R130). -/
def performNop (s : State) : CmdResult := .performed s

/-- What a successful PREPARE leaves (R131): everything it lists, and no other register. -/
def State.prepare (s : State) : State :=
  { s with
    liveSr := s.snap.srCfg
    liveMaxblk := Fin.ofNat 4097 s.snap.maxblkCfg.toNat
    ch := chZero
    osc := Osc.off
    mem := Memory.zeroed
    prepared := true
    hdone := 0 }

/-- PREPARE (R131): BAD_CONFIG unless the configuration is legal. -/
def performPrepare (s : State) : CmdResult :=
  if !s.snap.configOk then .raised .badConfig else .performed s.prepare

/-- RESET (R132): the 800 channel words, nothing else. -/
def performReset (s : State) : CmdResult := .performed { s with ch := chZero }

/-- The meaning of NOP: R130 within the engine's step of 30_encoding.md R76. -/
def execNop (s : State) : Host.Outcome State Fault Refusal := .next (complete s (performNop s))

/-- The meaning of PREPARE: R131 within the engine's step of R76. -/
def execPrepare (s : State) : Host.Outcome State Fault Refusal :=
  .next (complete s (performPrepare s))

/-- The meaning of RESET: R132 within the engine's step of R76. -/
def execReset (s : State) : Host.Outcome State Fault Refusal := .next (complete s (performReset s))

end Sys2Proof.Machine
end

