-- ==== Sys2Proof/Machine/Dispatch.lean ====
section
/-! DEFINITION. The meaning of every command (30_encoding.md table T6), one arm each. -/

namespace Sys2Proof.Machine

def exec (i : Instr) (s : State) : Host.Outcome State Fault Refusal :=
  match i with
  | .nop _ => Sys2Proof.Machine.execNop s
  | .prepare _ => Sys2Proof.Machine.execPrepare s
  | .reset _ => Sys2Proof.Machine.execReset s
  | .process n => Sys2Proof.Machine.execProcess n s
  | .oscSetfreq _ => Sys2Proof.Machine.execOscSetfreq s
  | .oscAdvance n => Sys2Proof.Machine.execOscAdvance n s
  | .oscReset _ => Sys2Proof.Machine.execOscReset s

end Sys2Proof.Machine
end

