-- ==== Sys2Proof/Machine/Turns.lean ====
section
/-! DEFINITION. The steps of the two agents (00_scope.md R19) and who takes the next one: one
interleaving of host accesses and engine steps (20_memory.md R60, 60_exceptions.md R144), held as data
in `State.turns` (log entry 1). -/

namespace Sys2Proof.Machine

/-- The engine's one step (30_encoding.md R76): the pending command is performed, or refused with
BAD_OPCODE when its word is no command (R71). With an empty latch the engine has no step to take. -/
def engineStep (s : State) : Host.Outcome State Fault Refusal :=
  match s.pending with
  | none => .next s
  | some c =>
    match decode c.word with
    | .ok i => exec i s
    | .error _ => .next (s.refuse .badOpcode)

/-- A bus operation of the host; none is defined while `rst_n` is low (70_reset_and_hazards.md
R153). -/
def whenOutOfReset (s t : State) : Host.Outcome State Fault Refusal :=
  if s.rstN then .next t else .fault .accessDuringReset

/-- WAIT (30_encoding.md R79): one read of STATUS; the loop goes on while the bit read is 1. -/
def waitStep (s : State) (rest : List HostOp) : State :=
  let t := s.busRead 0x0000C .word
  if s.busy then t else t.withHost rest

/-- The host's next step; with nothing left to do the host is idle. Driving the reset pin is defined at
either level of it (R153). -/
def hostStep (s : State) : Host.Outcome State Fault Refusal :=
  match s.host with
  | [] => .next s
  | .read a z :: rest => whenOutOfReset s ((s.withHost rest).busRead a z)
  | .write a z v :: rest => whenOutOfReset s ((s.withHost rest).busWrite a z v)
  | .wait :: rest => whenOutOfReset s (waitStep s rest)
  | .rst level :: rest => .next ((s.withHost rest).driveReset level)

/-- Whose step is next: the head of `turns`; when the list has run out, the engine's as soon as a command
is pending, else the host's (so every pending command is performed in the end, R77). -/
def State.nextAgent (s : State) : Agent :=
  match s.turns with
  | a :: _ => a
  | [] => if s.busy then .engine else .host

/-- The state once the next turn has been taken off the list. -/
def State.takeTurn (s : State) : State := { s with turns := s.turns.tail }

/-- The step of an agent. -/
def agentStep (a : Agent) (s : State) : Host.Outcome State Fault Refusal :=
  match a with
  | .engine => engineStep s
  | .host => hostStep s

end Sys2Proof.Machine
end

