-- ==== Sys2Proof/Machine/Step.lean ====
section
/-! DEFINITION. One step of the machine: the agent whose turn it is takes its step. -/

namespace Sys2Proof.Machine

/-- One step of the interleaving of the host and the engine (20_memory.md R60). -/
def step (s : State) : Host.Outcome State Fault Refusal := agentStep s.nextAgent s.takeTurn

/-- The state in which the command whose table bits are `w` is pending and the engine moves next. The
HBE fetches nothing (10_state.md R22): a command comes by a host's CMD write, and this stands for that
write (log entry 3). -/
def State.withFetchWord (s : State) (nbits w : Nat) : State :=
  s.placeCommand (BitVec.ofNat 32 (w % 2 ^ nbits))

end Sys2Proof.Machine
end

