-- ==== Sys2Proof/Safety.lean ====
section
/-! DEFINITION. What holds of the HBE's state in every run: the invariant the claims about "every
state" use as a premise where the rules rest on it. -/

namespace Sys2Proof.Machine

/-- The invariant of the machine. -/
structure State.Inv (s : State) : Prop where
  /-- Equal memories are equal data. -/
  memWf : s.mem.wf = true
  /-- Only buffer bytes are listed (20_memory.md table T3). -/
  memInBuffers : ∀ c ∈ s.mem.cells, 0x10000 ≤ c.1 ∧ c.1 < 0x24000
  /-- HDONE is 0 to 200 (10_state.md R27, R45). -/
  hdoneLe : s.hdone.toNat ≤ 200
  /-- A disabled oscillator has phase and increment 0 (40_oscillator.md R81, R90). -/
  oscOff : s.osc.en = false → s.osc = Osc.off
  /-- DONE is 0 while a command is pending (30_encoding.md R73, R76). -/
  pendingNotDone : s.busy = true → s.done = false
  /-- ERRCODE is 0 exactly when ERR is 0 (10_state.md R28, 60_exceptions.md R139). -/
  errCode : s.err = false ↔ s.errCode = .none
  /-- Once prepared, the sample rate is finite and positive, the block limit at least 1, and no buffer
  byte is a power-on draw (44_control_commands.md R131). -/
  prepared : s.prepared = true →
    isPositive32 s.liveSr = true ∧ 1 ≤ s.liveMaxblk.val ∧ s.mem.fill = .cleared
  /-- Before that, the live values, HDONE, the oscillator and the channels have their power-on values
  (10_state.md R31, R40, R41, R44, R45). -/
  unprepared : s.prepared = false →
    s.liveSr = 0 ∧ s.liveMaxblk = 0 ∧ s.hdone = 0 ∧ s.osc = Osc.off ∧ s.ch = chZero
  /-- While `rst_n` is low the registers and buffers have their power-on values and no command is
  pending (70_reset_and_hazards.md R153). -/
  inReset : s.rstN = false →
    s.pending = none ∧ s.settings = Settings.reset ∧ s.irqEn = false ∧ s.prepared = false ∧
      s.done = false ∧ s.err = false ∧ s.busErr = false ∧ s.mem = ⟨.powerOn s.powerOns, []⟩

end Sys2Proof.Machine
end

