-- ==== Sys2Proof/Certificates/Slice0/Obligations.lean ====
section
/-! DEFINITION. What is claimed of the model, statement by statement; OBLIGATIONS.json gives each its
rules. Where a statement says what a command leaves unchanged, it does so by naming every field of the
state that may differ. -/

open Sys2Proof Sys2Proof.Machine

/-! ### Notions the statements use -/

/-- `z` is the integer nearest to `q`, the even one of two (00_scope.md R13). -/
def Sys2Proof.Claims.NearestEven (q : Rat) (z : Int) : Prop :=
  |q - z| ≤ 1 / 2 ∧ (|q - z| = 1 / 2 → z % 2 = 0)

/-- One filtered and gained sample of a valid instant, every operation written out: the resonance (R99),
the coefficients at the placed frequency `y` (42_filter.md R108), the filter step (R109), the curve gain
(41_update_engine.md R100, R101) and the balance gain `bg`, in this order (43_bank_mixer.md R121). -/
def Sys2Proof.Claims.validSample (sr : Word) (S : Settings) (i : Nat) (y bg x : Word) (f : Svf) :
    Word × Svf :=
  let one : Word := 0x3F800000
  let q := mul32 S.qbase (add32 (div32 (f32 i) (f32 2)) one)
  let g := cfgTan (div32 (mul32 0x40490FDB y) sr)
  let r2 := div32 one q
  let h := div32 one (add32 (add32 one (mul32 r2 g)) (mul32 g g))
  let yHP := mul32 h (sub32 (sub32 x (mul32 f.s1 (add32 g r2))) f.s2)
  let yBP := add32 (mul32 yHP g) f.s1
  let s1' := add32 (mul32 yHP g) yBP
  let yLP := add32 (mul32 yBP g) f.s2
  let s2' := add32 (mul32 yBP g) yLP
  let cg := mul32 (cfgPow (add32 (mul32 (div32 0xBF800000 (f32 S.n)) (f32 i)) one) (div32 one S.curve))
    (div32 one q)
  (mul32 (mul32 yBP cg) bg, ⟨s1', s2'⟩)

/-- One channel and side as a stream function: modulation values and input samples in, gained outputs
and the last filter state out (43_bank_mixer.md R121). At a valid instant the filter runs at the placed
frequency and the two gains follow; at an invalid one the output is +0.0 and the filter state is held
(42_filter.md R110). -/
def Sys2Proof.Claims.stream (sr : Word) (S : Settings) (i : Nat) :
    List (Word × Word) → Svf → List Word × Svf
  | [], f => ([], f)
  | (m, x) :: rest, f =>
    let r := match placed sr i m S with
      | some y => validSample sr S i y (balanceGain i m S) x f
      | none => (F32.zero, f)
    let q := Sys2Proof.Claims.stream sr S i rest r.2
    (r.1 :: q.1, q.2)

/-- The outputs of harmonics 0, 1, 2, ... mixed: `(((out_0 + out_1) + out_2) + ...)`, silence when there
are none (R119, R122). -/
def Sys2Proof.Claims.mixOf : List Word → Word
  | [] => F32.zero
  | y :: ys => ys.foldl add32 y

/-- The words PROCESS stores to (R115): the first `n` of MOD, OUT_L and OUT_R, and of the inputs when
noise is on. -/
def Sys2Proof.Claims.ProcessStores (S : Settings) (n : Nat) (b : Buf) (k : Nat) : Prop :=
  k < n ∧ (b = .mod ∨ b = .outL ∨ b = .outR ∨ (S.noiseEn = true ∧ (b = .inL ∨ b = .inR)))

/-- A byte address outside word `k` of buffer `b`. -/
def Sys2Proof.Claims.Outside (a : Nat) (b : Buf) (k : Nat) : Prop :=
  a < wordAddr b k ∨ wordAddr b k + 4 ≤ a

/-- The conditions under which PROCESS is not refused (R115, R116, R117). -/
def Sys2Proof.Claims.ProcessAccepted (s : State) (n : Nat) : Prop :=
  s.prepared = true ∧ n ≤ s.liveMaxblk.val ∧ s.snap.legal = true

/-- What a host reads at every register of table T1 (10_state.md), by its address as a number. STATUS is
taken apart in `StatusWordLayout`. -/
def Sys2Proof.Claims.registerReads (s : State) : List (BusAddr × Word) :=
  [(0x00000, 0x48424E4B), (0x00004, 0x00010000), (0x00008, 0), (0x0000C, s.status),
    (0x00010, (BitVec.ofBool s.irqEn).setWidth 32), (0x00014, s.settings.srCfg),
    (0x00018, s.settings.maxblkCfg), (0x0001C, s.liveSr),
    (0x00020, BitVec.ofNat 32 s.liveMaxblk.val), (0x00024, s.settings.oscFreq), (0x00028, s.osc.p),
    (0x0002C, s.osc.inc), (0x00040, s.settings.f0), (0x00044, s.settings.qbase),
    (0x00048, s.settings.curve), (0x0004C, s.settings.timbre), (0x00050, s.settings.detune),
    (0x00054, s.settings.link), (0x00058, s.settings.depth), (0x0005C, s.settings.rate),
    (0x00060, BitVec.ofNat 32 s.settings.n), (0x00064, s.settings.modCtrl.setWidth 32)]

/-- The five buffers at their base addresses (20_memory.md table T3). -/
def Sys2Proof.Claims.bufferBases : List (Buf × Nat) :=
  [(.inL, 0x10000), (.inR, 0x14000), (.outL, 0x18000), (.outR, 0x1C000), (.mod, 0x20000)]

/-- The infinity and the zero of a sign, as encodings. -/
def Sys2Proof.Claims.infOf (neg : Bool) : Word := if neg then 0xFF800000 else 0x7F800000
def Sys2Proof.Claims.zeroOf (neg : Bool) : Word := if neg then 0x80000000 else 0x00000000

open Sys2Proof.Claims

/-! ### Encoding -/

/-- Decoding the word of a well-formed command gives the command back. That a command which ignores ARG
(R69) keeps it is the model's choice (log entry 20). -/
def Obligations.DecodeOfEncodeIsTheCommand : Prop :=
  ∀ i : Instr, i.wellFormed = true → decode (encode i) = .ok i

/-- A word that decodes is the word of its command, so no two words are one command and no bit is
dropped. This is the model's choice, not a rule: an `Instr` keeps ARG also where R69 has the command
ignore it, so that words and commands correspond one to one (log entry 20, DESIGN CHOICE). -/
def Obligations.EncodeOfDecodeIsTheWord : Prop :=
  ∀ (w : Word) (i : Instr), decode w = .ok i → i.wellFormed = true ∧ encode i = w

/-- OP alone selects the command, ARG is passed on unscaled (to the commands that ignore it too, log
entry 20), and every other OP is rejected by name. -/
def Obligations.OpcodeByteAloneSelectsTheCommand : Prop :=
  ∀ w : Word,
    (opField w ∈ [0x00, 0x01, 0x02, 0x03, 0x10, 0x11, 0x12] →
      ∃ i : Instr, decode w = .ok i ∧ i.opcode = opField w ∧ i.arg = w.toNat / 256) ∧
    (opField w ∉ [0x00, 0x01, 0x02, 0x03, 0x10, 0x11, 0x12] →
      decode w = .error (.badOpcode (opField w)))

/-- Words written out from tables T5 and T6 (95_test_vectors.md section 2.1). -/
def Obligations.SampleWordsDecodeAsTabled : Prop :=
  decode 0x00000000 = .ok (.nop 0) ∧ decode 0x00000300 = .ok (.nop 3) ∧
  decode 0x12345601 = .ok (.prepare 0x123456) ∧ decode 0x00000002 = .ok (.reset 0) ∧
  decode 0x00100003 = .ok (.process 4096) ∧ decode 0xFFFFFF03 = .ok (.process 16777215) ∧
  decode 0x00000010 = .ok (.oscSetfreq 0) ∧ decode 0x00000511 = .ok (.oscAdvance 5) ∧
  decode 0x00000012 = .ok (.oscReset 0) ∧ decode 0x00000004 = .error (.badOpcode 0x04) ∧
  decode 0x0000000F = .error (.badOpcode 0x0F) ∧ decode 0x00000013 = .error (.badOpcode 0x13) ∧
  decode 0x000004FF = .error (.badOpcode 0xFF)

/-- Four little-endian bytes are exactly one command, and fewer are none. -/
def Obligations.FourBytesAreOneCommand : Prop :=
  (∀ (i : Instr) (rest : List Byte), i.wellFormed = true →
    decodeBytes (encodeBytes i ++ rest) = .ok (i, rest)) ∧
  (∀ bytes : List Byte, bytes.length < 4 → decodeBytes bytes = .error (.truncated bytes.length))

/-! ### The step, the latch and refusals -/

/-- When the engine's turn comes with a command pending, the step is the command's meaning. The step
takes the turn off the list and adds nothing else. -/
def Obligations.StepPerformsThePendingCommand : Prop :=
  ∀ (s : State) (c : Pending) (i : Instr), s.nextAgent = .engine → s.pending = some c →
    decode c.word = .ok i → step s = exec i { s with turns := s.turns.tail }

/-- The host's turn: idle, a read, a write, one pass of WAIT, or the reset pin driven: a power-on reset
while it is low and when it rises, nothing while it is high and stays high (R153). -/
def Obligations.StepTakesTheHostsOperation : Prop :=
  ∀ s : State, s.nextAgent = .host →
    (s.host = [] → step s = .next { s with turns := s.turns.tail }) ∧
    (∀ a z rest, s.rstN = true → s.host = .read a z :: rest →
      step s = .next ({ s with turns := s.turns.tail, host := rest }.busRead a z)) ∧
    (∀ a z v rest, s.rstN = true → s.host = .write a z v :: rest →
      step s = .next ({ s with turns := s.turns.tail, host := rest }.busWrite a z v)) ∧
    (∀ rest, s.rstN = true → s.host = .wait :: rest →
      step s = .next { { s with turns := s.turns.tail }.busRead 0x0000C .word with
        host := if s.busy then s.host else rest }) ∧
    (∀ level rest, s.host = .rst level :: rest →
      (s.rstN = false ∨ level = false →
        step s = .next ({ s with turns := s.turns.tail, host := rest }.powerOn level)) ∧
      (s.rstN = true → level = true →
        step s = .next { s with turns := s.turns.tail, host := rest }))

/-- R71: a word with a reserved OP issues like any other and its performance is refused with BAD_OPCODE,
which is code 2 (table T9), changing nothing else. -/
def Obligations.ReservedOpcodeIssuesAndIsRefused : Prop :=
  ∀ (s : State) (w : Word),
    (0x04 ≤ (opField w).toNat ∧ (opField w).toNat ≤ 0x0F) ∨ 0x13 ≤ (opField w).toNat →
    (s.busy = false → s.busWrite 0x00008 .word w =
      { s with pending := some ⟨w, s.settings⟩, done := false, err := false, errCode := .none,
               busResp := some (.write false) }) ∧
    (∀ c, s.pending = some c → c.word = w → s.nextAgent = .engine →
      step s = .next { s with turns := s.turns.tail, pending := none, done := true, err := true,
                              errCode := .badOpcode } ∧
      ErrCode.badOpcode.code = 2)

/-- R73: a CMD write while BUSY = 0 issues the command. -/
def Obligations.CmdWriteIssuesTheCommand : Prop :=
  ∀ (s : State) (w : Word), s.busy = false →
    s.busWrite 0x00008 .word w =
      { s with pending := some ⟨w, s.settings⟩, done := false, err := false, errCode := .none,
               busResp := some (.write false) } ∧
    (s.busWrite 0x00008 .word w).busy = true

/-- R74: a CMD write while BUSY = 1 is discarded with ERRCODE 1 and no bus error. -/
def Obligations.CmdWriteWhileBusyIsRejected : Prop :=
  ∀ (s : State) (w : Word), s.busy = true →
    s.busWrite 0x00008 .word w =
      { s with err := true, errCode := .busy, busResp := some (.write false) } ∧
    ErrCode.busy.code = 1

/-- R75: the snapshot is taken at the issue, and a performance reads the settings from it and never from
the registers. -/
def Obligations.PerformanceReadsItsSnapshotOnly : Prop :=
  (∀ (s : State) (w : Word), s.busy = false → (s.writeCmd w).pending = some ⟨w, s.settings⟩) ∧
  ∀ (i : Instr) (s : State) (c : Pending) (S' : Settings), s.pending = some c →
    ∃ t, exec i s = .next t ∧ exec i { s with settings := S' } = .next { t with settings := S' }

/-- Every performance ends with BUSY = 0 and DONE = 1, changes no settings or control register, leaves
`irq` at IRQ_EN, and either keeps ERR and ERRCODE or is a refusal that changes STATUS only. -/
def Obligations.EveryPerformanceEndsDone : Prop :=
  ∀ (i : Instr) (s : State), ∃ t, exec i s = .next t ∧
    t = { s with pending := none, done := true, err := t.err, errCode := t.errCode,
                 liveSr := t.liveSr, liveMaxblk := t.liveMaxblk, osc := t.osc, ch := t.ch,
                 prepared := t.prepared, hdone := t.hdone, mem := t.mem, drawn := t.drawn } ∧
    t.busy = false ∧ t.irq = s.irqEn ∧
    ((t.err = s.err ∧ t.errCode = s.errCode) ∨
      ∃ c, c ∈ [ErrCode.notPrepared, .badLength, .badConfig, .badSettings] ∧
        t = { s with pending := none, done := true, err := true, errCode := c })

/-- R137, R138: which commands are refused, in the order of the causes, and that a refusal changes
STATUS and nothing else. -/
def Obligations.RefusalsInPriorityOrder : Prop :=
  ∀ (s : State) (n a : Nat),
    (s.prepared = false →
      exec (.process n) s = .next { s with pending := none, done := true, err := true, errCode := .notPrepared } ∧
      exec (.oscSetfreq a) s = .next { s with pending := none, done := true, err := true, errCode := .notPrepared } ∧
      exec (.oscAdvance n) s = .next { s with pending := none, done := true, err := true, errCode := .notPrepared }) ∧
    (s.prepared = true → s.liveMaxblk.val < n →
      exec (.process n) s = .next { s with pending := none, done := true, err := true, errCode := .badLength } ∧
      exec (.oscAdvance n) s = .next { s with pending := none, done := true, err := true, errCode := .badLength }) ∧
    (s.prepared = true → n ≤ s.liveMaxblk.val → s.snap.legal = false →
      exec (.process n) s = .next { s with pending := none, done := true, err := true, errCode := .badSettings }) ∧
    (¬(isPositive32 s.snap.srCfg = true ∧ 1 ≤ s.snap.maxblkCfg.toNat ∧ s.snap.maxblkCfg.toNat ≤ 4096) →
      exec (.prepare a) s = .next { s with pending := none, done := true, err := true, errCode := .badConfig }) ∧
    [ErrCode.notPrepared, .badLength, .badConfig, .badSettings].map ErrCode.code = [3, 4, 5, 6]

/-- R117: the settings PROCESS accepts, bound by bound, in the rationals the encodings denote, and that
it refuses the others. -/
def Obligations.SettingsLegalBounds : Prop :=
  (∀ (n : Nat) (s : State), s.prepared = true → n ≤ s.liveMaxblk.val → s.snap.legal = false →
    exec (.process n) s =
      .next { s with pending := none, done := true, err := true, errCode := .badSettings }) ∧
  ∀ S : Settings, S.legal = true ↔
    (isFinite32 S.f0 = true ∧ 0 < F32.toRat S.f0) ∧
    (isFinite32 S.qbase = true ∧ 0 < F32.toRat S.qbase) ∧
    (isFinite32 S.curve = true ∧ 0 < F32.toRat S.curve) ∧
    (isFinite32 S.timbre = true ∧ 0 ≤ F32.toRat S.timbre ∧ F32.toRat S.timbre ≤ 1) ∧
    isFinite32 S.detune = true ∧ isFinite32 S.depth = true ∧ isFinite32 S.rate = true

/-- R77: a pending command is performed after finitely many host accesses: with `rst_n` high and left
alone, the engine's turn comes, the command still pending, after at most the turns listed, and the step
then taken performs it. -/
def Obligations.PendingCommandIsPerformedInTheEnd : Prop :=
  ∀ (s : State) (c : Pending), s.rstN = true → s.pending = some c →
    (∀ level, HostOp.rst level ∉ s.host) →
    ∃ (k : Nat) (t u : State), k ≤ s.turns.length ∧
      Host.Core.run Sys2Proof.core k s = .next t ∧ t.pending = some c ∧ t.nextAgent = .engine ∧
      step t = .next u ∧ Host.Core.run Sys2Proof.core (k + 1) s = .next u ∧
      u.busy = false ∧ u.done = true

/-! ### The bus -/

/-- R54, R55, R58: which accesses are bus errors and all that a bus error does. -/
def Obligations.BusErrorsAndTheirEffect : Prop :=
  ∀ (s : State) (a : BusAddr) (z : AccessSize) (v : Word),
    (s.isBusError a z = true ↔
      z ≠ .word ∨ a.toNat % 4 ≠ 0 ∨ (s.busy = true ∧ 0x10000 ≤ a.toNat ∧ a.toNat < 0x24000)) ∧
    (s.isBusError a z = true →
      s.busRead a z = { s with busErr := true, busResp := some (.read 0 true) } ∧
      s.busWrite a z v = { s with busErr := true, busResp := some (.write true) }) ∧
    (s.isBusError a z = false →
      (∃ w, (s.busRead a z).busResp = some (.read w false)) ∧
      (s.busWrite a z v).busResp = some (.write false))

/-- R57, R23 to R37, R51, R52: an accepted read changes nothing but the port's response and reads the same
again. Every register reads what table T1's rules say at its address, ID, VERSION and CMD their constants;
while idle word `k` of a buffer, MOD included, reads as that word. -/
def Obligations.AcceptedReadsChangeNothing : Prop :=
  ∀ s : State,
    (∀ a : BusAddr, s.isBusError a .word = false →
      ∃ w, s.busRead a .word = { s with busResp := some (.read w false) } ∧
        (s.busRead a .word).busRead a .word = s.busRead a .word) ∧
    (∀ p ∈ registerReads s, s.busRead p.1 .word = { s with busResp := some (.read p.2 false) }) ∧
    (∀ p ∈ bufferBases, ∀ k, k < 4096 → s.busy = false →
      s.busRead (BitVec.ofNat 18 (p.2 + 4 * k)) .word =
        { s with busResp := some (.read (s.buf p.1 k) false) })

/-- R51, R56: a buffer word written by the host is read back; every other byte, and every other piece of
state, is as before. -/
def Obligations.BufferWriteThenRead : Prop :=
  ∀ (s : State) (b : Buf) (k : Nat) (v : Word), s.busy = false → b ≠ .mod → k < 4096 →
    ∃ t, s.busWrite (BitVec.ofNat 18 (wordAddr b k)) .word v = t ∧
      t = { s with mem := t.mem, busResp := some (.write false) } ∧
      (t.busRead (BitVec.ofNat 18 (wordAddr b k)) .word).busResp = some (.read v false) ∧
      (∀ a, Outside a b k → t.mem.readByte a = s.mem.readByte a)

/-- R24, R25, R52, R33: reserved addresses, reserved register offsets, the MOD window and the read-only
registers ignore a write; what is reserved reads 0; none of it is a bus error (MOD while idle). -/
def Obligations.ReservedAndReadOnlyIgnoreWrites : Prop :=
  ∀ (s : State) (a : BusAddr) (v : Word), a.toNat % 4 = 0 →
    (((0x030 ≤ a.toNat ∧ a.toNat ≤ 0x03C) ∨ (0x068 ≤ a.toNat ∧ a.toNat < 0x10000) ∨ 0x24000 ≤ a.toNat) →
      s.busWrite a .word v = { s with busResp := some (.write false) } ∧
      s.busRead a .word = { s with busResp := some (.read 0 false) }) ∧
    (a.toNat ∈ [0x000, 0x004, 0x01C, 0x020, 0x028, 0x02C] →
      s.busWrite a .word v = { s with busResp := some (.write false) }) ∧
    (0x20000 ≤ a.toNat → a.toNat < 0x24000 → s.busy = false →
      s.busWrite a .word v = { s with busResp := some (.write false) })

/-- R23, R29, R30, R37, R57: a write to a configuration or settings register only stores the word (MOD_CTRL
and CTRL their defined bits): it reads back, no other register reads differently, and the rest of the
state is as it was. HCOUNT has its own statement. -/
def Obligations.SettingsRegistersReadBack : Prop :=
  ∀ (s t : State) (v : Word) (r : Reg),
    r ∈ [Reg.srCfg, .maxblkCfg, .oscFreq, .f0, .qbase, .curve, .timbre, .detune, .link, .depth, .rate,
      .modCtrl, .ctrl] →
    s.busWrite (BitVec.ofNat 18 r.offset) .word v = t →
    (r = .ctrl → t = { s with irqEn := v.getLsbD 0, busResp := some (.write false) }) ∧
    (r ≠ .ctrl → t = { s with settings := t.settings, busResp := some (.write false) }) ∧
    ∀ r', t.readReg r' =
      if r' = r then (if r = .modCtrl then v &&& 0xF else if r = .ctrl then v &&& 1 else v)
      else s.readReg r'

/-- R36: HCOUNT stores `min(v, 200)` and nothing else, reads it back, resets to 50, and is the `N` of the
next issue. -/
def Obligations.HcountStoresTheMinimum : Prop :=
  (∀ (s t : State) (v : Word), s.busWrite 0x00060 .word v = t →
    t = { s with settings := { s.settings with hcount := t.settings.hcount },
                 busResp := some (.write false) } ∧
    t.settings.n = min v.toNat 200 ∧
    (t.busRead 0x00060 .word).busResp = some (.read (BitVec.ofNat 32 (min v.toNat 200)) false) ∧
    ∀ w, (t.issue w).snap.n = min v.toNat 200) ∧
  State.reset.readReg .hcount = 50

/-- R28: what a host write to STATUS does, and all it does. -/
def Obligations.StatusWriteClearsFlags : Prop :=
  ∀ (s : State) (v : Word),
    s.busWrite 0x0000C .word v =
      { s with done := if v.getLsbD 1 then false else s.done
               err := if v.getLsbD 2 then false else s.err
               errCode := if v.getLsbD 2 then .none else s.errCode
               busErr := if v.getLsbD 3 then false else s.busErr
               busResp := some (.write false) }

/-- R27: the fields of STATUS as read, reserved bits 0. -/
def Obligations.StatusWordLayout : Prop :=
  ∀ s : State,
    (s.busRead 0x0000C .word).busResp = some (.read s.status false) ∧
    s.status.getLsbD 0 = s.pending.isSome ∧ s.status.getLsbD 1 = s.done ∧
    s.status.getLsbD 2 = s.err ∧ s.status.getLsbD 3 = s.busErr ∧
    s.status.getLsbD 4 = s.prepared ∧ s.status.getLsbD 5 = s.osc.en ∧
    s.status.extractLsb' 8 4 = s.errCode.code ∧ s.status.extractLsb' 16 8 = s.hdone ∧
    s.status &&& 0xFF00F0C0 = 0

/-- R142, R143: `irq` is the level IRQ_EN ∧ DONE: a performance leaves it at IRQ_EN, a read keeps it, a
CMD write lowers it or is rejected and keeps it, a write of 1 to DONE or of 0 to IRQ_EN lowers it, and
setting IRQ_EN while DONE = 1 raises it. -/
def Obligations.InterruptFollowsDoneAndEnable : Prop :=
  State.reset.irq = false ∧ ∀ s : State,
    (s.irq = true ↔ s.irqEn = true ∧ s.done = true) ∧
    (∀ i t, exec i s = .next t → t.irq = s.irqEn) ∧
    (∀ a z, (s.busRead a z).irq = s.irq) ∧
    (∀ a z v, s.isBusError a z = true → (s.busWrite a z v).irq = s.irq) ∧
    (∀ v, (s.busWrite 0x00008 .word v).irq = (s.busy && s.irq)) ∧
    (∀ v, (s.busWrite 0x0000C .word v).irq = (s.irq && !v.getLsbD 1)) ∧
    (∀ v, (s.busWrite 0x00010 .word v).irq = (v.getLsbD 0 && s.done))

/-! ### Reset -/

/-- R47: the power-on values, register by register, and the power-on buffers, each byte a draw; with the
registers' offsets of table T1 and the buffers' bases of table T3 as numbers. -/
def Obligations.PowerOnValues : Prop :=
  (Reg.all.map Reg.offset =
    [0x000, 0x004, 0x008, 0x00C, 0x010, 0x014, 0x018, 0x01C, 0x020, 0x024, 0x028, 0x02C, 0x040, 0x044,
      0x048, 0x04C, 0x050, 0x054, 0x058, 0x05C, 0x060, 0x064]) ∧
  Reg.all =
    [.id, .version, .cmd, .status, .ctrl, .srCfg, .maxblkCfg, .liveSr, .liveMaxblk, .oscFreq, .oscPhase,
      .oscInc, .f0, .qbase, .curve, .timbre, .detune, .link, .depth, .rate, .hcount, .modCtrl] ∧
  (∀ p ∈ bufferBases, ∀ k, wordAddr p.1 k = p.2 + 4 * k) ∧
  (Reg.all.map State.reset.readReg =
    [0x48424E4B, 0x00010000, 0, 0, 0, 0x473B8000, 0x200, 0, 0, 0, 0, 0, 0x42C80000, 0x3F800000,
      0x3F800000, 0x3F000000, 0x3F800000, 0, 0, 0, 50, 0]) ∧
  State.reset.osc = ⟨0, 0, false⟩ ∧ State.reset.pending = none ∧ State.reset.prepared = false ∧
  State.reset.hdone = 0 ∧ State.reset.irq = false ∧
  (∀ i sd, i < 200 → State.reset.svf i sd = ⟨0, 0⟩) ∧
  (∀ a, State.reset.mem.readByte a = Config.powerOnByte 0 a)

/-- R153: while `rst_n` is low, and when it rises, every register has its power-on value, the latch is
empty and the buffers are a fresh draw; the operations the host still has to do stay. A pin driven high
that is high already changes nothing. -/
def Obligations.ResetPinRestoresEverything : Prop :=
  ∀ (s : State) (level : Bool) (rest : List HostOp), s.nextAgent = .host →
    s.host = .rst level :: rest →
    (s.rstN = false ∨ level = false →
      ∃ t, step s = .next t ∧ t.rstN = level ∧ (∀ r, t.readReg r = State.reset.readReg r) ∧
        t.settings = State.reset.settings ∧ t.pending = none ∧ t.prepared = false ∧
        t.osc = ⟨0, 0, false⟩ ∧ (∀ i sd, t.svf i sd = ⟨0, 0⟩) ∧ t.irq = false ∧
        t.powerOns = s.powerOns + 1 ∧
        (∀ a, t.mem.readByte a = Config.powerOnByte t.powerOns a) ∧ t.host = rest) ∧
    (s.rstN = true → level = true →
      step s = .next { s with turns := s.turns.tail, host := rest })

/-- R153: a bus transaction while `rst_n` is low gets no response the model defines: the step stops. -/
def Obligations.AccessDuringResetStops : Prop :=
  ∀ (s : State) (op : HostOp) (rest : List HostOp), s.nextAgent = .host → s.rstN = false →
    s.host = op :: rest → (∀ level, op ≠ .rst level) → step s = .fault .accessDuringReset

/-! ### The control commands -/

/-- R130: NOP sets DONE and nothing else, whether or not PREPARED is set. -/
def Obligations.NopOnlySetsDone : Prop :=
  ∀ (a : Nat) (s : State), exec (.nop a) s = .next { s with pending := none, done := true }

/-- R131: a PREPARE with a legal configuration installs it and clears channels, oscillator and all
buffers; it changes nothing else. -/
def Obligations.PrepareInstallsAndClears : Prop :=
  ∀ (a : Nat) (s : State), isPositive32 s.snap.srCfg = true → 1 ≤ s.snap.maxblkCfg.toNat →
    s.snap.maxblkCfg.toNat ≤ 4096 →
    ∃ t, exec (.prepare a) s = .next t ∧
      t = { s with liveSr := s.snap.srCfg, liveMaxblk := t.liveMaxblk, osc := ⟨0, 0, false⟩, ch := t.ch,
                   mem := t.mem, prepared := true, hdone := 0, pending := none, done := true } ∧
      t.liveMaxblk.val = s.snap.maxblkCfg.toNat ∧
      (∀ i sd, i < 200 → t.svf i sd = ⟨0, 0⟩) ∧ (∀ b k, k < 4096 → t.buf b k = 0)

/-- R132: RESET zeroes the 800 channel words and sets DONE; nothing else changes. -/
def Obligations.ResetZeroesTheChannelFileOnly : Prop :=
  ∀ (a : Nat) (s : State), ∃ t, exec (.reset a) s = .next t ∧
    t = { s with ch := t.ch, pending := none, done := true } ∧
    (∀ i sd, i < 200 → t.svf i sd = ⟨0, 0⟩)

/-! ### The oscillator -/

/-- R90: OSC_RESET zeroes the phase and sets DONE; nothing else changes. -/
def Obligations.OscResetZeroesThePhaseOnly : Prop :=
  ∀ (a : Nat) (s : State), exec (.oscReset a) s =
    .next { s with osc := ⟨0, s.osc.inc, s.osc.en⟩, pending := none, done := true }

/-- R81, R88: OSC_SETFREQ with a finite positive frequency and a finite ratio enables the oscillator at
the increment nearest to `r * 2^32` (ties to even, modulo 2^32) and keeps the phase; any other frequency
disables it and zeroes phase and increment. Nothing else changes. -/
def Obligations.OscSetfreqSetsTheNearestIncrement : Prop :=
  ∀ (a : Nat) (s : State), s.prepared = true →
    (isPositive32 s.snap.oscFreq = true → isFinite32 (div32 s.snap.oscFreq s.liveSr) = true →
      ∃ z : Int, NearestEven (F32.toRat (div32 s.snap.oscFreq s.liveSr) * 2 ^ 32) z ∧
        exec (.oscSetfreq a) s =
          .next { s with osc := ⟨s.osc.p, BitVec.ofInt 32 z, true⟩, pending := none, done := true }) ∧
    (isPositive32 s.snap.oscFreq = false ∨ isFinite32 (div32 s.snap.oscFreq s.liveSr) = false →
      exec (.oscSetfreq a) s = .next { s with osc := ⟨0, 0, false⟩, pending := none, done := true })

/-- R82, R89: OSC_ADVANCE by an enabled oscillator writes the sine of the phase before each increment to
MOD[0..n-1], advances the phase by `n` increments, and changes nothing else. -/
def Obligations.OscAdvanceWritesTheSine : Prop :=
  ∀ (n : Nat) (s : State), s.prepared = true → n ≤ s.liveMaxblk.val → s.osc.en = true →
    ∃ t, exec (.oscAdvance n) s = .next t ∧
      t = { s with osc := ⟨s.osc.p + BitVec.ofNat 32 n * s.osc.inc, s.osc.inc, true⟩, mem := t.mem,
                   pending := none, done := true } ∧
      (∀ k, k < n → t.buf .mod k = cfgSin (s.osc.p + BitVec.ofNat 32 k * s.osc.inc)) ∧
      (∀ a, (∀ k, k < n → Outside a .mod k) → t.mem.readByte a = s.mem.readByte a)

/-- R84: while disabled, `OscAdvance(n)` writes +0.0 to every MOD word it reaches and leaves the phase,
for every `n`; and so does the command OSC_ADVANCE, which changes nothing else. -/
def Obligations.OscAdvanceWhileDisabledIsSilent : Prop :=
  ∀ (n : Nat) (s : State), s.osc.en = false →
    ((oscAdvance n s).osc = s.osc ∧ ∀ k, k < n → k < 4096 → (oscAdvance n s).buf .mod k = 0) ∧
    (s.prepared = true → n ≤ s.liveMaxblk.val →
      ∃ t, exec (.oscAdvance n) s = .next t ∧
        t = { s with mem := t.mem, pending := none, done := true } ∧
        (∀ k, k < n → t.buf .mod k = 0) ∧
        (∀ a, (∀ k, k < n → Outside a .mod k) → t.mem.readByte a = s.mem.readByte a))

/-- R86: the samples of two advances of `m` and `n` are those of one of `m + n`, and so is the phase; and
the same of two PROCESS commands with one snapshot, the rate being the same in both blocks. -/
def Obligations.PhaseContinuesAcrossBlocks : Prop :=
  (∀ (m n : Nat) (s : State), s.prepared = true → m + n ≤ s.liveMaxblk.val →
    ∃ a b c, exec (.oscAdvance m) s = .next a ∧ exec (.oscAdvance n) a = .next b ∧
      exec (.oscAdvance (m + n)) s = .next c ∧ b.osc = c.osc ∧
      (∀ k, k < m → a.buf .mod k = c.buf .mod k) ∧ (∀ k, k < n → b.buf .mod k = c.buf .mod (m + k))) ∧
  (∀ (m n : Nat) (s : State), ProcessAccepted s (m + n) →
    ∃ a b c, exec (.process m) s = .next a ∧
      exec (.process n) { a with pending := s.pending } = .next b ∧
      exec (.process (m + n)) s = .next c ∧ b.osc = c.osc ∧
      (∀ k, k < m → a.buf .mod k = c.buf .mod k) ∧ (∀ k, k < n → b.buf .mod k = c.buf .mod (m + k)))

/-- R86: a step that moves the phase is power-on reset, PREPARE, OSC_RESET, an advance of an enabled
oscillator, or a disabling; PROCESS either disables or advances by its block. -/
def Obligations.PhaseMovesOnlyByNamedEvents : Prop :=
  ∀ s t : State, step s = .next t → t.osc.p ≠ s.osc.p →
    (s.nextAgent = .host ∧ ∃ level rest, s.host = .rst level :: rest ∧
      (s.rstN = false ∨ level = false)) ∨
    (s.nextAgent = .engine ∧ ∃ c i, s.pending = some c ∧ decode c.word = .ok i ∧
      ((∃ a, i = .prepare a) ∨ (∃ a, i = .oscReset a) ∨
        (∃ n, i = .oscAdvance n ∧ s.osc.en = true) ∨
        (∃ a, i = .oscSetfreq a ∧ t.osc = ⟨0, 0, false⟩) ∨
        (∃ n, i = .process n ∧ (t.osc = ⟨0, 0, false⟩ ∨
          (t.osc.en = true ∧ t.osc.p = s.osc.p + BitVec.ofNat 32 n * t.osc.inc)))))

/-- R17, R15: the configuration functions have the properties required of every configuration, and a
noise draw is a number in [-1, 1]. -/
def Obligations.ConfigurationFunctionsAsRequired : Prop :=
  cfgSin 0 = 0 ∧ cfgSin 0x40000000 = 0x3F800000 ∧ cfgSin 0x80000000 = 0 ∧
  cfgSin 0xC0000000 = 0xBF800000 ∧
  (∀ p, isFinite32 (cfgSin p) = true ∧ -1 ≤ F32.toRat (cfgSin p) ∧ F32.toRat (cfgSin p) ≤ 1) ∧
  (∀ y, cfgPow 0x3F800000 y = 0x3F800000) ∧ (∀ x, isPositive32 x = true → cfgPow x 0x3F800000 = x) ∧
  (∀ k, isFinite32 (noiseDraw k) = true ∧ -1 ≤ F32.toRat (noiseDraw k) ∧ F32.toRat (noiseDraw k) ≤ 1)

/-! ### Arithmetic -/

/-- R13: `RNE32` gives a nearest binary32 value, the one with an even last bit of two, and a signed
infinity from the midpoint above the greatest finite value on. -/
def Obligations.RoundingIsNearestTiesToEven : Prop :=
  ∀ q : Rat,
    (isFinite32 (rne32 q) = true ↔ |q| < 2 ^ 128 - 2 ^ 103) ∧
    (isFinite32 (rne32 q) = false → rne32 q = if q < 0 then 0xFF800000 else 0x7F800000) ∧
    (isFinite32 (rne32 q) = true → ∀ w : Word, isFinite32 w = true →
      |F32.toRat (rne32 q) - q| ≤ |F32.toRat w - q| ∧
      (F32.toRat w ≠ F32.toRat (rne32 q) → |F32.toRat (rne32 q) - q| = |F32.toRat w - q| →
        (rne32 q).getLsbD 0 = false))

/-- R12: on finite operands each operation is its exact rational result rounded once where that is not
zero, and a zero where it is; a quotient by zero is an infinity, 0/0 a NaN; then what the infinities give;
and the comparisons. That these are IEEE 754's results is log entry 9, the signs of zeros log entry 10. -/
def Obligations.ArithmeticRoundsTheExactResultOnce : Prop :=
  (∀ a b : Word, isFinite32 a = true → isFinite32 b = true →
    (F32.toRat a + F32.toRat b ≠ 0 → add32 a b = rne32 (F32.toRat a + F32.toRat b)) ∧
    (F32.toRat a + F32.toRat b = 0 → add32 a b = zeroOf (F32.sign a && F32.sign b)) ∧
    (F32.toRat a - F32.toRat b ≠ 0 → sub32 a b = rne32 (F32.toRat a - F32.toRat b)) ∧
    (F32.toRat a - F32.toRat b = 0 → sub32 a b = zeroOf (F32.sign a && !F32.sign b)) ∧
    (F32.toRat a * F32.toRat b ≠ 0 → mul32 a b = rne32 (F32.toRat a * F32.toRat b)) ∧
    (F32.toRat a * F32.toRat b = 0 → mul32 a b = zeroOf (F32.sign a ^^ F32.sign b)) ∧
    (F32.toRat a ≠ 0 → F32.toRat b ≠ 0 → div32 a b = rne32 (F32.toRat a / F32.toRat b)) ∧
    (F32.toRat a = 0 → F32.toRat b ≠ 0 → div32 a b = zeroOf (F32.sign a ^^ F32.sign b)) ∧
    (F32.toRat a ≠ 0 → F32.toRat b = 0 → div32 a b = infOf (F32.sign a ^^ F32.sign b)) ∧
    (F32.toRat a = 0 → F32.toRat b = 0 → div32 a b = 0x7FC00000) ∧
    lt32 a b = decide (F32.toRat a < F32.toRat b) ∧ le32 a b = decide (F32.toRat a ≤ F32.toRat b) ∧
    eq32 a b = decide (F32.toRat a = F32.toRat b)) ∧
  (∀ (s : Bool) (b : Word), isFinite32 b = true →
    add32 (infOf s) b = infOf s ∧ add32 b (infOf s) = infOf s ∧
    sub32 (infOf s) b = infOf s ∧ sub32 b (infOf s) = infOf (!s) ∧
    (F32.toRat b ≠ 0 → mul32 (infOf s) b = infOf (s ^^ F32.sign b) ∧
      mul32 b (infOf s) = infOf (s ^^ F32.sign b)) ∧
    (F32.toRat b = 0 → mul32 (infOf s) b = 0x7FC00000 ∧ mul32 b (infOf s) = 0x7FC00000) ∧
    div32 (infOf s) b = infOf (s ^^ F32.sign b) ∧ div32 b (infOf s) = zeroOf (s ^^ F32.sign b) ∧
    lt32 (infOf s) b = s ∧ lt32 b (infOf s) = !s ∧ le32 (infOf s) b = s ∧ le32 b (infOf s) = !s ∧
    eq32 (infOf s) b = false ∧ eq32 b (infOf s) = false) ∧
  (∀ s t : Bool,
    add32 (infOf s) (infOf t) = (if s = t then infOf s else 0x7FC00000) ∧
    sub32 (infOf s) (infOf t) = (if s = t then 0x7FC00000 else infOf s) ∧
    mul32 (infOf s) (infOf t) = infOf (s ^^ t) ∧ div32 (infOf s) (infOf t) = 0x7FC00000 ∧
    lt32 (infOf s) (infOf t) = (s && !t) ∧ le32 (infOf s) (infOf t) = (s || !t) ∧
    eq32 (infOf s) (infOf t) = (s == t))

/-- R12: a result that is a NaN is the canonical quiet NaN, for every operation and operands; a NaN operand
gives it, and makes every comparison false. -/
def Obligations.NanResultsAreCanonical : Prop :=
  (∀ a b r : Word, r ∈ [add32 a b, sub32 a b, mul32 a b, div32 a b] → F32.value r = .nan →
    r = 0x7FC00000) ∧
  (∀ a b r : Word, F32.value a = .nan ∨ F32.value b = .nan →
    (r ∈ [add32 a b, sub32 a b, mul32 a b, div32 a b] → r = 0x7FC00000) ∧
    lt32 a b = false ∧ le32 a b = false ∧ eq32 a b = false)

/-! ### The update laws -/

/-- R93, R94: the frequency law, the modulation factor applied under FM_EN only; without FM_EN and DM_EN
the modulation value has no part in it; and the nominal frequency written out: at modulation value zero
both factors are exactly `ONE`. -/
def Obligations.NominalFrequencyWrittenOut : Prop :=
  ∀ (S : Settings) (i : Nat),
    (∀ m, S.fmEn = true → freq i m S =
      mul32 (mul32 (add32 F32.one (mul32 m S.depth)) S.f0)
        (if i = 0 then F32.one else cfgPow (f32 (i + 1)) (detuneEff m S))) ∧
    (∀ m, S.fmEn = false → freq i m S =
      mul32 (mul32 F32.one S.f0)
        (if i = 0 then F32.one else cfgPow (f32 (i + 1)) (detuneEff m S))) ∧
    (∀ m m', S.fmEn = false → S.dmEn = false → freq i m S = freq i m' S) ∧
    (S.legal = true →
      nominal 0 S = S.f0 ∧
      (0 < i → nominal i S = mul32 S.f0
        (cfgPow (f32 (i + 1)) (if eq32 S.detune F32.zero then F32.tenth else S.detune))))

/-- R99: for every harmonic of the bank the resonance is `baseQ * (i/2 + 1)`, real division, rounded
once. -/
def Obligations.ResonanceIsRoundedOnce : Prop :=
  ∀ (S : Settings) (i : Nat), i ≤ 199 → isFinite32 S.qbase = true →
    resonance i S = roundSigned (F32.sign S.qbase) (F32.toRat S.qbase * ((i : Rat) / 2 + 1))

/-- R96, R98: `Wrap` folds a value above Nyquist by the multiple of the sample rate that brings it into
`(nyq - sr, nyq]`, computed exactly and rounded once, then reflects what is below 20. It keeps what lies
in [20, nyq], never goes below 20, and is idempotent where its value is at most Nyquist. -/
def Obligations.WrapKeepsTheBandAndTheFloor : Prop :=
  ∀ (sr x : Word), isPositive32 sr = true → isFinite32 x = true →
    (∃ y1 : Word,
      (lt32 (nyquist sr) x = false → y1 = x) ∧
      (lt32 (nyquist sr) x = true → ∃ k : Int, 1 ≤ k ∧
        F32.toRat (nyquist sr) - F32.toRat sr < F32.toRat x - k * F32.toRat sr ∧
        F32.toRat x - k * F32.toRat sr ≤ F32.toRat (nyquist sr) ∧
        y1 = rne32 (F32.toRat x - k * F32.toRat sr)) ∧
      wrap sr x = if lt32 y1 F32.twenty then add32 (sub32 F32.twenty y1) F32.twenty else y1) ∧
    (le32 F32.twenty x = true → le32 x (nyquist sr) = true → wrap sr x = x) ∧
    le32 F32.twenty (wrap sr x) = true ∧
    (le32 (wrap sr x) (nyquist sr) = true → wrap sr (wrap sr x) = wrap sr x)

/-- R98 says `Wrap(Wrap(x)) = Wrap(x)` EXACTLY when `Wrap(x) <= nyq`. That fails at the fixed point
`x = 20 + nyq` of fold and reflection: at 48000 Hz, `Wrap(24020) = 24020`, above Nyquist. -/
def Obligations.WrapIsIdempotentOnlyUpToNyquist : Prop :=
  ∀ (sr x : Word), isPositive32 sr = true → isFinite32 x = true →
    (wrap sr (wrap sr x) = wrap sr x ↔ le32 (wrap sr x) (nyquist sr) = true)

/-- R100, R101: the curve gain is the power of its base, times `1/Q`; the base is a finite positive number
for every harmonic of the bank, and 1 for the fundamental. -/
def Obligations.CurveBaseIsPositive : Prop :=
  ∀ (S : Settings) (i : Nat), i < S.n →
    isPositive32 (curveBase i S) = true ∧ (i = 0 → curveBase i S = F32.one) ∧
    curveGain i S =
      mul32 (cfgPow (add32 (mul32 (div32 0xBF800000 (f32 S.n)) (f32 i)) F32.one) (div32 F32.one S.curve))
        (div32 F32.one (resonance i S))

/-- R102: the timbre blend is TIMBRE without TM_EN and TIMBRE + m*DEPTH clamped to [0, 1] with it (of a
blend that is a zero the sign is log entry 8); it stays in [0, 1] under every modulation value. -/
def Obligations.TimbreBlendStaysInRange : Prop :=
  ∀ (S : Settings) (m t : Word), S.legal = true → isFinite32 m = true →
    t = add32 S.timbre (mul32 m S.depth) →
    isFinite32 (timbreEff m S) = true ∧ 0 ≤ F32.toRat (timbreEff m S) ∧
      F32.toRat (timbreEff m S) ≤ 1 ∧
    (S.tmEn = false → timbreEff m S = S.timbre) ∧
    (S.tmEn = true →
      (lt32 t F32.zero = true → timbreEff m S = 0x00000000) ∧
      (eq32 t F32.zero = true → eq32 (timbreEff m S) F32.zero = true) ∧
      (lt32 F32.zero t = true → lt32 t F32.one = true → timbreEff m S = t) ∧
      (le32 F32.one t = true → timbreEff m S = 0x3F800000))

/-- R103, R102: the balance gain by parity of the index: the fundamental exactly 1, odd indices the
complement of the blend, even indices the blend. -/
def Obligations.BalanceGainByParity : Prop :=
  ∀ (S : Settings) (m : Word),
    balanceGain 0 m S = F32.one ∧
    (∀ j, balanceGain (2 * j + 1) m S = sub32 F32.one (timbreEff m S)) ∧
    (∀ j, balanceGain (2 * j + 2) m S = timbreEff m S)

/-- R92: the effective detune is never a zero, under any modulation, so the harmonics never collapse to
one frequency. Under DM_EN the setting is biased by the factor `1 + m*DEPTH`, else it is taken as it is;
what is not a zero after the bias is kept, and a zero is replaced by `TENTH32`. -/
def Obligations.EffectiveDetuneIsNeverZero : Prop :=
  ∀ (S : Settings) (m d : Word),
    d = (if S.dmEn then mul32 S.detune (add32 F32.one (mul32 m S.depth)) else S.detune) →
    eq32 (detuneEff m S) F32.zero = false ∧
    (eq32 d F32.zero = false → detuneEff m S = d) ∧
    (eq32 d F32.zero = true → detuneEff m S = 0x3DCCCCCD)

/-- R124: with no modulation target enabled the update of a harmonic does not depend on the modulation
value. -/
def Obligations.UpdateIgnoresModulationWhenOff : Prop :=
  ∀ (sr : Word) (i : Nat) (m m' : Word) (S : Settings), S.anyMod = false →
    update sr i m S = update sr i m' S

/-! ### The filter -/

/-- R111: from the zero state a zero input gives a zero output and keeps the state zero, for every
finite set of coefficients (with a finite `g + R2`). -/
def Obligations.FilterKeepsSilence : Prop :=
  ∀ c : SvfCoeffs, isFinite32 c.g = true → isFinite32 c.r2 = true → isFinite32 c.h = true →
    isFinite32 (add32 c.g c.r2) = true → svfStep ⟨0, 0⟩ c 0 = (0, ⟨0, 0⟩)

/-- R111: a NaN input, or a NaN in the state, makes output and state the canonical NaN, whatever the
coefficients; so a NaN state stays until PREPARE or RESET. -/
def Obligations.FilterNanSticks : Prop :=
  ∀ (f : Svf) (c : SvfCoeffs) (x : Word),
    (F32.value x = .nan ∨ F32.value f.s1 = .nan ∨ F32.value f.s2 = .nan) →
    svfStep f c x = (F32.qNaN, ⟨F32.qNaN, F32.qNaN⟩)

/-! ### PROCESS -/

/-- The frame of PROCESS (R115, R126): it changes the oscillator, the channel states of the harmonics it
processed, and those only at valid samples (R110), HDONE, the draw counter and the words it stores to, and
nothing else. -/
def Obligations.ProcessFrame : Prop :=
  ∀ (n : Nat) (s : State), ProcessAccepted s n →
    ∃ t, exec (.process n) s = .next t ∧
      t = { s with mem := t.mem, osc := t.osc, ch := t.ch, hdone := t.hdone, drawn := t.drawn,
                   pending := none, done := true } ∧
      t.drawn = s.drawn + (if s.snap.noiseEn then 2 * n else 0) ∧
      (∀ i sd, t.hdone.toNat ≤ i → t.svf i sd = s.svf i sd) ∧
      (∀ i sd, (∀ k, k < n → placed s.liveSr i (t.buf .mod k) s.snap = none) →
        t.svf i sd = s.svf i sd) ∧
      (∀ a, (∀ b k, ProcessStores s.snap n b k → Outside a b k) →
        t.mem.readByte a = s.mem.readByte a)

/-- R123, R120: HDONE is the number of harmonics processed: the least index whose nominal frequency is
not below Nyquist, or `S.N` if there is none. -/
def Obligations.HdoneCountsUpToTheNyquistBreak : Prop :=
  ∀ (n : Nat) (s : State), ProcessAccepted s n →
    ∃ t, exec (.process n) s = .next t ∧ t.hdone.toNat ≤ s.snap.n ∧
      (∀ i, i < t.hdone.toNat → lt32 (nominal i s.snap) (mul32 s.liveSr F32.half) = true) ∧
      (t.hdone.toNat < s.snap.n →
        lt32 (nominal t.hdone.toNat s.snap) (mul32 s.liveSr F32.half) = false)

/-- R87: PROCESS drives the oscillator at RATE when a target is enabled and disables it otherwise, then
advances it once by the block: MOD[k] is the modulation value of sample `k`, +0.0 when no target is
enabled. -/
def Obligations.ProcessDrivesTheOscillator : Prop :=
  ∀ (n : Nat) (s : State), ProcessAccepted s n →
    ∃ t o, exec (.process n) s = .next t ∧
      o = s.osc.setFrequency (if s.snap.anyMod then s.snap.rate else F32.zero) s.liveSr ∧
      (s.snap.anyMod = false → o = ⟨0, 0, false⟩) ∧
      t.osc = (if o.en then ⟨o.p + BitVec.ofNat 32 n * o.inc, o.inc, true⟩ else o) ∧
      (∀ k, k < n → t.buf .mod k =
        if o.en then cfgSin (o.p + BitVec.ofNat 32 k * o.inc) else F32.zero)

/-- R118: with NOISE_EN the first `n` words of both inputs are separate draws; without it the inputs are
unchanged. -/
def Obligations.NoiseReplacesTheInputs : Prop :=
  ∀ (n : Nat) (s : State), ProcessAccepted s n →
    ∃ t, exec (.process n) s = .next t ∧
      (s.snap.noiseEn = true → ∀ k, k < n →
        t.buf .inL k = noiseDraw (s.drawn + 2 * k) ∧ t.buf .inR k = noiseDraw (s.drawn + 2 * k + 1)) ∧
      (s.snap.noiseEn = false → ∀ k, k < 4096 →
        t.buf .inL k = s.buf .inL k ∧ t.buf .inR k = s.buf .inR k) ∧
      (∀ k, n ≤ k → k < 4096 → t.buf .inL k = s.buf .inL k ∧ t.buf .inR k = s.buf .inR k)

/-- R119, R129: when the fundamental is not below Nyquist, or HCOUNT is 0, no harmonic is processed: the
block is silent, HDONE is 0 and every channel keeps its state. -/
def Obligations.NoHarmonicGivesSilence : Prop :=
  ∀ (n : Nat) (s : State), ProcessAccepted s n →
    (s.snap.n = 0 ∨ lt32 s.snap.f0 (mul32 s.liveSr F32.half) = false) →
    ∃ t, exec (.process n) s = .next t ∧ t.hdone = 0 ∧
      (∀ k, k < n → t.buf .outL k = 0 ∧ t.buf .outR k = 0) ∧ (∀ i sd, t.svf i sd = s.svf i sd)

/-- The bank as streams (R115, R119 to R122, R126): the loops of PROCESS over harmonics and samples, with
their reads and writes of buffers and channel states, compute on each side what a filter per harmonic run
over the block's modulation and input words computes, the outputs mixed in rising order of the index. The
filter runs at the valid instants, those whose frequency is finite and whose wrapped value lies in
[20, nyq) (R97); at the others the sample is +0.0 and the state is held (R110, `stream`). Coefficients, filter step and
curve gain are written out operation by operation (R99 to R101, R108, R109, `validSample`). -/
def Obligations.ProcessIsTheStreamedBank : Prop :=
  ∀ (n : Nat) (s : State), ProcessAccepted s n →
    (∀ i m y, placed s.liveSr i m s.snap = some y ↔
      isFinite32 (freq i m s.snap) = true ∧ y = wrap s.liveSr (freq i m s.snap) ∧
        le32 0x41A00000 y = true ∧ lt32 y (mul32 s.liveSr F32.half) = true) ∧
    ∃ t, exec (.process n) s = .next t ∧ ∀ sd : Side,
      (∀ k, k < n → t.buf sd.outBuf k = mixOf ((List.range t.hdone.toNat).map fun i =>
        (stream s.liveSr s.snap i ((List.range n).map fun j => (t.buf .mod j, t.buf sd.inBuf j))
          (s.svf i sd)).1.getD k 0)) ∧
      (∀ i, i < 200 → t.svf i sd = if i < t.hdone.toNat then
        (stream s.liveSr s.snap i ((List.range n).map fun j => (t.buf .mod j, t.buf sd.inBuf j))
          (s.svf i sd)).2 else s.svf i sd)

/-- R126: the two sides do not mix: two runs that agree on one side's inputs and filter states, on the
snapshot, the sample rate, the oscillator and the draws, agree on that side's outputs and filter states,
whatever the other side holds. -/
def Obligations.SidesDoNotInterfere : Prop :=
  ∀ (n : Nat) (s s' : State) (sd : Side), ProcessAccepted s n → ProcessAccepted s' n →
    s'.snap = s.snap → s'.liveSr = s.liveSr → s'.osc = s.osc → s'.drawn = s.drawn →
    (∀ k, k < n → s'.buf sd.inBuf k = s.buf sd.inBuf k) →
    (∀ i, i < 200 → s'.svf i sd = s.svf i sd) →
    ∃ t t', exec (.process n) s = .next t ∧ exec (.process n) s' = .next t' ∧
      (∀ k, k < n → t'.buf sd.outBuf k = t.buf sd.outBuf k) ∧
      (∀ i, i < 200 → t'.svf i sd = t.svf i sd)

/-! ### The invariant -/

/-- The invariant holds after power-on reset. -/
def Obligations.InvariantHoldsAtReset : Prop := State.reset.Inv

/-- Every step from a state of the invariant gives one of the invariant. -/
def Obligations.InvariantIsKeptByEveryStep : Prop :=
  ∀ s t : State, s.Inv → step s = .next t → t.Inv
end

