-- ==== Sys2Proof/Laws/Loop.lean ====
section
/-! SUPPORT. The one induction over the loops of the rules (00_scope.md R16): what holds before the
first pass and is kept by every pass holds after the last. -/

namespace Sys2Proof.Machine

variable {α β : Type} {f : Nat → α → α}

@[simp] theorem forTo_zero (a : α) : forTo f 0 a = a := rfl
@[simp] theorem forTo_succ (n : Nat) (a : α) : forTo f (n + 1) a = f n (forTo f n a) := rfl

/-- Loop invariant: `P k` holds before pass `k`. -/
theorem forTo_induct (P : Nat → α → Prop) (n : Nat) (a : α) (h0 : P 0 a)
    (hstep : ∀ k b, k < n → P k b → P (k + 1) (f k b)) : P n (forTo f n a) := by
  induction n with
  | zero => exact h0
  | succ n ih =>
    exact hstep n _ (Nat.lt_succ_self n) (ih fun k b hk => hstep k b (Nat.lt_succ_of_lt hk))

/-- What no pass changes, the loop does not change. -/
theorem forTo_keep (g : α → β) (n : Nat) (a : α) (h : ∀ k b, k < n → g (f k b) = g b) :
    g (forTo f n a) = g a :=
  forTo_induct (fun _ b => g b = g a) n a rfl fun k b hk hb => (h k b hk).trans hb

/-- A loop of `m + n` passes is one of `m` followed by one of `n`, its passes counted on. -/
theorem forTo_add (m n : Nat) (a : α) :
    forTo f (m + n) a = forTo (fun k => f (m + k)) n (forTo f m a) := by
  induction n with
  | zero => rfl
  | succ n ih => rw [← Nat.add_assoc, forTo_succ, ih, forTo_succ]

/-- Passes that agree on the states that occur give the same loop. -/
theorem forTo_congr (g : Nat → α → α) (n : Nat) (a : α) (h : ∀ k, k < n → f k = g k) :
    forTo f n a = forTo g n a := by
  induction n with
  | zero => rfl
  | succ n ih => simp [ih fun k hk => h k (Nat.lt_succ_of_lt hk), h n (Nat.lt_succ_self n)]

end Sys2Proof.Machine
end

