-- ==== Sys2Proof/Laws/State.lean ====
section
/-! SUPPORT. What each named update of the state leaves in each field: one lemma per field per update,
so that no proof unfolds a record update. -/

namespace Sys2Proof.Machine

/-! ### setBuf -/

section

variable (s : State) (b : Buf) (k : Nat) (w : Word)

@[simp] theorem State.setBuf_rstN : (s.setBuf b k w).rstN = s.rstN := rfl
@[simp] theorem State.setBuf_irqEn : (s.setBuf b k w).irqEn = s.irqEn := rfl
@[simp] theorem State.setBuf_settings : (s.setBuf b k w).settings = s.settings := rfl
@[simp] theorem State.setBuf_liveSr : (s.setBuf b k w).liveSr = s.liveSr := rfl
@[simp] theorem State.setBuf_liveMaxblk : (s.setBuf b k w).liveMaxblk = s.liveMaxblk := rfl
@[simp] theorem State.setBuf_osc : (s.setBuf b k w).osc = s.osc := rfl
@[simp] theorem State.setBuf_ch : (s.setBuf b k w).ch = s.ch := rfl
@[simp] theorem State.setBuf_pending : (s.setBuf b k w).pending = s.pending := rfl
@[simp] theorem State.setBuf_done : (s.setBuf b k w).done = s.done := rfl
@[simp] theorem State.setBuf_err : (s.setBuf b k w).err = s.err := rfl
@[simp] theorem State.setBuf_busErr : (s.setBuf b k w).busErr = s.busErr := rfl
@[simp] theorem State.setBuf_prepared : (s.setBuf b k w).prepared = s.prepared := rfl
@[simp] theorem State.setBuf_errCode : (s.setBuf b k w).errCode = s.errCode := rfl
@[simp] theorem State.setBuf_hdone : (s.setBuf b k w).hdone = s.hdone := rfl
@[simp] theorem State.setBuf_mem : (s.setBuf b k w).mem = s.mem.writeWord (wordAddr b k) w := rfl
@[simp] theorem State.setBuf_busResp : (s.setBuf b k w).busResp = s.busResp := rfl
@[simp] theorem State.setBuf_host : (s.setBuf b k w).host = s.host := rfl
@[simp] theorem State.setBuf_turns : (s.setBuf b k w).turns = s.turns := rfl
@[simp] theorem State.setBuf_drawn : (s.setBuf b k w).drawn = s.drawn := rfl
@[simp] theorem State.setBuf_powerOns : (s.setBuf b k w).powerOns = s.powerOns := rfl
@[simp] theorem State.setBuf_svf (i' : Nat) (sd' : Side) : (s.setBuf b k w).svf i' sd' = s.svf i' sd' := rfl

end

/-! ### setSvf -/

section

variable (s : State) (i : Nat) (sd : Side) (f : Svf)

@[simp] theorem State.setSvf_rstN : (s.setSvf i sd f).rstN = s.rstN := rfl
@[simp] theorem State.setSvf_irqEn : (s.setSvf i sd f).irqEn = s.irqEn := rfl
@[simp] theorem State.setSvf_settings : (s.setSvf i sd f).settings = s.settings := rfl
@[simp] theorem State.setSvf_liveSr : (s.setSvf i sd f).liveSr = s.liveSr := rfl
@[simp] theorem State.setSvf_liveMaxblk : (s.setSvf i sd f).liveMaxblk = s.liveMaxblk := rfl
@[simp] theorem State.setSvf_osc : (s.setSvf i sd f).osc = s.osc := rfl
@[simp] theorem State.setSvf_ch : (s.setSvf i sd f).ch = s.ch.setIfInBounds i ((s.chan i).setSide sd f) := rfl
@[simp] theorem State.setSvf_pending : (s.setSvf i sd f).pending = s.pending := rfl
@[simp] theorem State.setSvf_done : (s.setSvf i sd f).done = s.done := rfl
@[simp] theorem State.setSvf_err : (s.setSvf i sd f).err = s.err := rfl
@[simp] theorem State.setSvf_busErr : (s.setSvf i sd f).busErr = s.busErr := rfl
@[simp] theorem State.setSvf_prepared : (s.setSvf i sd f).prepared = s.prepared := rfl
@[simp] theorem State.setSvf_errCode : (s.setSvf i sd f).errCode = s.errCode := rfl
@[simp] theorem State.setSvf_hdone : (s.setSvf i sd f).hdone = s.hdone := rfl
@[simp] theorem State.setSvf_mem : (s.setSvf i sd f).mem = s.mem := rfl
@[simp] theorem State.setSvf_busResp : (s.setSvf i sd f).busResp = s.busResp := rfl
@[simp] theorem State.setSvf_host : (s.setSvf i sd f).host = s.host := rfl
@[simp] theorem State.setSvf_turns : (s.setSvf i sd f).turns = s.turns := rfl
@[simp] theorem State.setSvf_drawn : (s.setSvf i sd f).drawn = s.drawn := rfl
@[simp] theorem State.setSvf_powerOns : (s.setSvf i sd f).powerOns = s.powerOns := rfl
@[simp] theorem State.setSvf_buf (b' : Buf) (k' : Nat) : (s.setSvf i sd f).buf b' k' = s.buf b' k' := rfl

end

/-! ### issue -/

section

variable (s : State) (w : Word)

@[simp] theorem State.issue_rstN : (s.issue w).rstN = s.rstN := rfl
@[simp] theorem State.issue_irqEn : (s.issue w).irqEn = s.irqEn := rfl
@[simp] theorem State.issue_settings : (s.issue w).settings = s.settings := rfl
@[simp] theorem State.issue_liveSr : (s.issue w).liveSr = s.liveSr := rfl
@[simp] theorem State.issue_liveMaxblk : (s.issue w).liveMaxblk = s.liveMaxblk := rfl
@[simp] theorem State.issue_osc : (s.issue w).osc = s.osc := rfl
@[simp] theorem State.issue_ch : (s.issue w).ch = s.ch := rfl
@[simp] theorem State.issue_pending : (s.issue w).pending = some ⟨w, s.settings⟩ := rfl
@[simp] theorem State.issue_done : (s.issue w).done = false := rfl
@[simp] theorem State.issue_err : (s.issue w).err = false := rfl
@[simp] theorem State.issue_busErr : (s.issue w).busErr = s.busErr := rfl
@[simp] theorem State.issue_prepared : (s.issue w).prepared = s.prepared := rfl
@[simp] theorem State.issue_errCode : (s.issue w).errCode = .none := rfl
@[simp] theorem State.issue_hdone : (s.issue w).hdone = s.hdone := rfl
@[simp] theorem State.issue_mem : (s.issue w).mem = s.mem := rfl
@[simp] theorem State.issue_busResp : (s.issue w).busResp = s.busResp := rfl
@[simp] theorem State.issue_host : (s.issue w).host = s.host := rfl
@[simp] theorem State.issue_turns : (s.issue w).turns = s.turns := rfl
@[simp] theorem State.issue_drawn : (s.issue w).drawn = s.drawn := rfl
@[simp] theorem State.issue_powerOns : (s.issue w).powerOns = s.powerOns := rfl
@[simp] theorem State.issue_buf (b' : Buf) (k' : Nat) : (s.issue w).buf b' k' = s.buf b' k' := rfl
@[simp] theorem State.issue_svf (i' : Nat) (sd' : Side) : (s.issue w).svf i' sd' = s.svf i' sd' := rfl

end

/-! ### rejectIssue -/

section

variable (s : State)

@[simp] theorem State.rejectIssue_rstN : (s.rejectIssue).rstN = s.rstN := rfl
@[simp] theorem State.rejectIssue_irqEn : (s.rejectIssue).irqEn = s.irqEn := rfl
@[simp] theorem State.rejectIssue_settings : (s.rejectIssue).settings = s.settings := rfl
@[simp] theorem State.rejectIssue_liveSr : (s.rejectIssue).liveSr = s.liveSr := rfl
@[simp] theorem State.rejectIssue_liveMaxblk : (s.rejectIssue).liveMaxblk = s.liveMaxblk := rfl
@[simp] theorem State.rejectIssue_osc : (s.rejectIssue).osc = s.osc := rfl
@[simp] theorem State.rejectIssue_ch : (s.rejectIssue).ch = s.ch := rfl
@[simp] theorem State.rejectIssue_pending : (s.rejectIssue).pending = s.pending := rfl
@[simp] theorem State.rejectIssue_done : (s.rejectIssue).done = s.done := rfl
@[simp] theorem State.rejectIssue_err : (s.rejectIssue).err = true := rfl
@[simp] theorem State.rejectIssue_busErr : (s.rejectIssue).busErr = s.busErr := rfl
@[simp] theorem State.rejectIssue_prepared : (s.rejectIssue).prepared = s.prepared := rfl
@[simp] theorem State.rejectIssue_errCode : (s.rejectIssue).errCode = .busy := rfl
@[simp] theorem State.rejectIssue_hdone : (s.rejectIssue).hdone = s.hdone := rfl
@[simp] theorem State.rejectIssue_mem : (s.rejectIssue).mem = s.mem := rfl
@[simp] theorem State.rejectIssue_busResp : (s.rejectIssue).busResp = s.busResp := rfl
@[simp] theorem State.rejectIssue_host : (s.rejectIssue).host = s.host := rfl
@[simp] theorem State.rejectIssue_turns : (s.rejectIssue).turns = s.turns := rfl
@[simp] theorem State.rejectIssue_drawn : (s.rejectIssue).drawn = s.drawn := rfl
@[simp] theorem State.rejectIssue_powerOns : (s.rejectIssue).powerOns = s.powerOns := rfl
@[simp] theorem State.rejectIssue_buf (b' : Buf) (k' : Nat) : (s.rejectIssue).buf b' k' = s.buf b' k' := rfl
@[simp] theorem State.rejectIssue_svf (i' : Nat) (sd' : Side) : (s.rejectIssue).svf i' sd' = s.svf i' sd' := rfl

end

/-! ### refuse -/

section

variable (s : State) (c : ErrCode)

@[simp] theorem State.refuse_rstN : (s.refuse c).rstN = s.rstN := rfl
@[simp] theorem State.refuse_irqEn : (s.refuse c).irqEn = s.irqEn := rfl
@[simp] theorem State.refuse_settings : (s.refuse c).settings = s.settings := rfl
@[simp] theorem State.refuse_liveSr : (s.refuse c).liveSr = s.liveSr := rfl
@[simp] theorem State.refuse_liveMaxblk : (s.refuse c).liveMaxblk = s.liveMaxblk := rfl
@[simp] theorem State.refuse_osc : (s.refuse c).osc = s.osc := rfl
@[simp] theorem State.refuse_ch : (s.refuse c).ch = s.ch := rfl
@[simp] theorem State.refuse_pending : (s.refuse c).pending = none := rfl
@[simp] theorem State.refuse_done : (s.refuse c).done = true := rfl
@[simp] theorem State.refuse_err : (s.refuse c).err = true := rfl
@[simp] theorem State.refuse_busErr : (s.refuse c).busErr = s.busErr := rfl
@[simp] theorem State.refuse_prepared : (s.refuse c).prepared = s.prepared := rfl
@[simp] theorem State.refuse_errCode : (s.refuse c).errCode = c := rfl
@[simp] theorem State.refuse_hdone : (s.refuse c).hdone = s.hdone := rfl
@[simp] theorem State.refuse_mem : (s.refuse c).mem = s.mem := rfl
@[simp] theorem State.refuse_busResp : (s.refuse c).busResp = s.busResp := rfl
@[simp] theorem State.refuse_host : (s.refuse c).host = s.host := rfl
@[simp] theorem State.refuse_turns : (s.refuse c).turns = s.turns := rfl
@[simp] theorem State.refuse_drawn : (s.refuse c).drawn = s.drawn := rfl
@[simp] theorem State.refuse_powerOns : (s.refuse c).powerOns = s.powerOns := rfl
@[simp] theorem State.refuse_buf (b' : Buf) (k' : Nat) : (s.refuse c).buf b' k' = s.buf b' k' := rfl
@[simp] theorem State.refuse_svf (i' : Nat) (sd' : Side) : (s.refuse c).svf i' sd' = s.svf i' sd' := rfl

end

/-! ### finish -/

section

variable (s : State)

@[simp] theorem State.finish_rstN : (s.finish).rstN = s.rstN := rfl
@[simp] theorem State.finish_irqEn : (s.finish).irqEn = s.irqEn := rfl
@[simp] theorem State.finish_settings : (s.finish).settings = s.settings := rfl
@[simp] theorem State.finish_liveSr : (s.finish).liveSr = s.liveSr := rfl
@[simp] theorem State.finish_liveMaxblk : (s.finish).liveMaxblk = s.liveMaxblk := rfl
@[simp] theorem State.finish_osc : (s.finish).osc = s.osc := rfl
@[simp] theorem State.finish_ch : (s.finish).ch = s.ch := rfl
@[simp] theorem State.finish_pending : (s.finish).pending = none := rfl
@[simp] theorem State.finish_done : (s.finish).done = true := rfl
@[simp] theorem State.finish_err : (s.finish).err = s.err := rfl
@[simp] theorem State.finish_busErr : (s.finish).busErr = s.busErr := rfl
@[simp] theorem State.finish_prepared : (s.finish).prepared = s.prepared := rfl
@[simp] theorem State.finish_errCode : (s.finish).errCode = s.errCode := rfl
@[simp] theorem State.finish_hdone : (s.finish).hdone = s.hdone := rfl
@[simp] theorem State.finish_mem : (s.finish).mem = s.mem := rfl
@[simp] theorem State.finish_busResp : (s.finish).busResp = s.busResp := rfl
@[simp] theorem State.finish_host : (s.finish).host = s.host := rfl
@[simp] theorem State.finish_turns : (s.finish).turns = s.turns := rfl
@[simp] theorem State.finish_drawn : (s.finish).drawn = s.drawn := rfl
@[simp] theorem State.finish_powerOns : (s.finish).powerOns = s.powerOns := rfl
@[simp] theorem State.finish_buf (b' : Buf) (k' : Nat) : (s.finish).buf b' k' = s.buf b' k' := rfl
@[simp] theorem State.finish_svf (i' : Nat) (sd' : Side) : (s.finish).svf i' sd' = s.svf i' sd' := rfl

end

/-! ### writeStatus -/

section

variable (s : State) (v : Word)

@[simp] theorem State.writeStatus_rstN : (s.writeStatus v).rstN = s.rstN := rfl
@[simp] theorem State.writeStatus_irqEn : (s.writeStatus v).irqEn = s.irqEn := rfl
@[simp] theorem State.writeStatus_settings : (s.writeStatus v).settings = s.settings := rfl
@[simp] theorem State.writeStatus_liveSr : (s.writeStatus v).liveSr = s.liveSr := rfl
@[simp] theorem State.writeStatus_liveMaxblk : (s.writeStatus v).liveMaxblk = s.liveMaxblk := rfl
@[simp] theorem State.writeStatus_osc : (s.writeStatus v).osc = s.osc := rfl
@[simp] theorem State.writeStatus_ch : (s.writeStatus v).ch = s.ch := rfl
@[simp] theorem State.writeStatus_pending : (s.writeStatus v).pending = s.pending := rfl
@[simp] theorem State.writeStatus_done : (s.writeStatus v).done = (s.done && !v.getLsbD 1) := rfl
@[simp] theorem State.writeStatus_err : (s.writeStatus v).err = (s.err && !v.getLsbD 2) := rfl
@[simp] theorem State.writeStatus_busErr : (s.writeStatus v).busErr = (s.busErr && !v.getLsbD 3) := rfl
@[simp] theorem State.writeStatus_prepared : (s.writeStatus v).prepared = s.prepared := rfl
@[simp] theorem State.writeStatus_errCode : (s.writeStatus v).errCode = if v.getLsbD 2 then .none else s.errCode := rfl
@[simp] theorem State.writeStatus_hdone : (s.writeStatus v).hdone = s.hdone := rfl
@[simp] theorem State.writeStatus_mem : (s.writeStatus v).mem = s.mem := rfl
@[simp] theorem State.writeStatus_busResp : (s.writeStatus v).busResp = s.busResp := rfl
@[simp] theorem State.writeStatus_host : (s.writeStatus v).host = s.host := rfl
@[simp] theorem State.writeStatus_turns : (s.writeStatus v).turns = s.turns := rfl
@[simp] theorem State.writeStatus_drawn : (s.writeStatus v).drawn = s.drawn := rfl
@[simp] theorem State.writeStatus_powerOns : (s.writeStatus v).powerOns = s.powerOns := rfl
@[simp] theorem State.writeStatus_buf (b' : Buf) (k' : Nat) : (s.writeStatus v).buf b' k' = s.buf b' k' := rfl
@[simp] theorem State.writeStatus_svf (i' : Nat) (sd' : Side) : (s.writeStatus v).svf i' sd' = s.svf i' sd' := rfl

end

/-! ### placeCommand -/

section

variable (s : State) (w : Word)

@[simp] theorem State.placeCommand_rstN : (s.placeCommand w).rstN = true := rfl
@[simp] theorem State.placeCommand_irqEn : (s.placeCommand w).irqEn = s.irqEn := rfl
@[simp] theorem State.placeCommand_settings : (s.placeCommand w).settings = s.settings := rfl
@[simp] theorem State.placeCommand_liveSr : (s.placeCommand w).liveSr = s.liveSr := rfl
@[simp] theorem State.placeCommand_liveMaxblk : (s.placeCommand w).liveMaxblk = s.liveMaxblk := rfl
@[simp] theorem State.placeCommand_osc : (s.placeCommand w).osc = s.osc := rfl
@[simp] theorem State.placeCommand_ch : (s.placeCommand w).ch = s.ch := rfl
@[simp] theorem State.placeCommand_pending : (s.placeCommand w).pending = some ⟨w, s.settings⟩ := rfl
@[simp] theorem State.placeCommand_done : (s.placeCommand w).done = false := rfl
@[simp] theorem State.placeCommand_err : (s.placeCommand w).err = false := rfl
@[simp] theorem State.placeCommand_busErr : (s.placeCommand w).busErr = s.busErr := rfl
@[simp] theorem State.placeCommand_prepared : (s.placeCommand w).prepared = s.prepared := rfl
@[simp] theorem State.placeCommand_errCode : (s.placeCommand w).errCode = .none := rfl
@[simp] theorem State.placeCommand_hdone : (s.placeCommand w).hdone = s.hdone := rfl
@[simp] theorem State.placeCommand_mem : (s.placeCommand w).mem = s.mem := rfl
@[simp] theorem State.placeCommand_busResp : (s.placeCommand w).busResp = s.busResp := rfl
@[simp] theorem State.placeCommand_host : (s.placeCommand w).host = s.host := rfl
@[simp] theorem State.placeCommand_turns : (s.placeCommand w).turns = .engine :: s.turns := rfl
@[simp] theorem State.placeCommand_drawn : (s.placeCommand w).drawn = s.drawn := rfl
@[simp] theorem State.placeCommand_powerOns : (s.placeCommand w).powerOns = s.powerOns := rfl
@[simp] theorem State.placeCommand_buf (b' : Buf) (k' : Nat) : (s.placeCommand w).buf b' k' = s.buf b' k' := rfl
@[simp] theorem State.placeCommand_svf (i' : Nat) (sd' : Side) : (s.placeCommand w).svf i' sd' = s.svf i' sd' := rfl

end

/-! ### prepare -/

section

variable (s : State)

@[simp] theorem State.prepare_rstN : (s.prepare).rstN = s.rstN := rfl
@[simp] theorem State.prepare_irqEn : (s.prepare).irqEn = s.irqEn := rfl
@[simp] theorem State.prepare_settings : (s.prepare).settings = s.settings := rfl
@[simp] theorem State.prepare_liveSr : (s.prepare).liveSr = s.snap.srCfg := rfl
@[simp] theorem State.prepare_liveMaxblk : (s.prepare).liveMaxblk = Fin.ofNat 4097 s.snap.maxblkCfg.toNat := rfl
@[simp] theorem State.prepare_osc : (s.prepare).osc = Osc.off := rfl
@[simp] theorem State.prepare_ch : (s.prepare).ch = chZero := rfl
@[simp] theorem State.prepare_pending : (s.prepare).pending = s.pending := rfl
@[simp] theorem State.prepare_done : (s.prepare).done = s.done := rfl
@[simp] theorem State.prepare_err : (s.prepare).err = s.err := rfl
@[simp] theorem State.prepare_busErr : (s.prepare).busErr = s.busErr := rfl
@[simp] theorem State.prepare_prepared : (s.prepare).prepared = true := rfl
@[simp] theorem State.prepare_errCode : (s.prepare).errCode = s.errCode := rfl
@[simp] theorem State.prepare_hdone : (s.prepare).hdone = 0 := rfl
@[simp] theorem State.prepare_mem : (s.prepare).mem = Memory.zeroed := rfl
@[simp] theorem State.prepare_busResp : (s.prepare).busResp = s.busResp := rfl
@[simp] theorem State.prepare_host : (s.prepare).host = s.host := rfl
@[simp] theorem State.prepare_turns : (s.prepare).turns = s.turns := rfl
@[simp] theorem State.prepare_drawn : (s.prepare).drawn = s.drawn := rfl
@[simp] theorem State.prepare_powerOns : (s.prepare).powerOns = s.powerOns := rfl

end

/-! ### takeTurn -/

section

variable (s : State)

@[simp] theorem State.takeTurn_rstN : (s.takeTurn).rstN = s.rstN := rfl
@[simp] theorem State.takeTurn_irqEn : (s.takeTurn).irqEn = s.irqEn := rfl
@[simp] theorem State.takeTurn_settings : (s.takeTurn).settings = s.settings := rfl
@[simp] theorem State.takeTurn_liveSr : (s.takeTurn).liveSr = s.liveSr := rfl
@[simp] theorem State.takeTurn_liveMaxblk : (s.takeTurn).liveMaxblk = s.liveMaxblk := rfl
@[simp] theorem State.takeTurn_osc : (s.takeTurn).osc = s.osc := rfl
@[simp] theorem State.takeTurn_ch : (s.takeTurn).ch = s.ch := rfl
@[simp] theorem State.takeTurn_pending : (s.takeTurn).pending = s.pending := rfl
@[simp] theorem State.takeTurn_done : (s.takeTurn).done = s.done := rfl
@[simp] theorem State.takeTurn_err : (s.takeTurn).err = s.err := rfl
@[simp] theorem State.takeTurn_busErr : (s.takeTurn).busErr = s.busErr := rfl
@[simp] theorem State.takeTurn_prepared : (s.takeTurn).prepared = s.prepared := rfl
@[simp] theorem State.takeTurn_errCode : (s.takeTurn).errCode = s.errCode := rfl
@[simp] theorem State.takeTurn_hdone : (s.takeTurn).hdone = s.hdone := rfl
@[simp] theorem State.takeTurn_mem : (s.takeTurn).mem = s.mem := rfl
@[simp] theorem State.takeTurn_busResp : (s.takeTurn).busResp = s.busResp := rfl
@[simp] theorem State.takeTurn_host : (s.takeTurn).host = s.host := rfl
@[simp] theorem State.takeTurn_turns : (s.takeTurn).turns = s.turns.tail := rfl
@[simp] theorem State.takeTurn_drawn : (s.takeTurn).drawn = s.drawn := rfl
@[simp] theorem State.takeTurn_powerOns : (s.takeTurn).powerOns = s.powerOns := rfl
@[simp] theorem State.takeTurn_buf (b' : Buf) (k' : Nat) : (s.takeTurn).buf b' k' = s.buf b' k' := rfl
@[simp] theorem State.takeTurn_svf (i' : Nat) (sd' : Side) : (s.takeTurn).svf i' sd' = s.svf i' sd' := rfl

end

/-! ### busFault -/

section

variable (s : State) (r : BusResponse)

@[simp] theorem State.busFault_rstN : (s.busFault r).rstN = s.rstN := rfl
@[simp] theorem State.busFault_irqEn : (s.busFault r).irqEn = s.irqEn := rfl
@[simp] theorem State.busFault_settings : (s.busFault r).settings = s.settings := rfl
@[simp] theorem State.busFault_liveSr : (s.busFault r).liveSr = s.liveSr := rfl
@[simp] theorem State.busFault_liveMaxblk : (s.busFault r).liveMaxblk = s.liveMaxblk := rfl
@[simp] theorem State.busFault_osc : (s.busFault r).osc = s.osc := rfl
@[simp] theorem State.busFault_ch : (s.busFault r).ch = s.ch := rfl
@[simp] theorem State.busFault_pending : (s.busFault r).pending = s.pending := rfl
@[simp] theorem State.busFault_done : (s.busFault r).done = s.done := rfl
@[simp] theorem State.busFault_err : (s.busFault r).err = s.err := rfl
@[simp] theorem State.busFault_busErr : (s.busFault r).busErr = true := rfl
@[simp] theorem State.busFault_prepared : (s.busFault r).prepared = s.prepared := rfl
@[simp] theorem State.busFault_errCode : (s.busFault r).errCode = s.errCode := rfl
@[simp] theorem State.busFault_hdone : (s.busFault r).hdone = s.hdone := rfl
@[simp] theorem State.busFault_mem : (s.busFault r).mem = s.mem := rfl
@[simp] theorem State.busFault_busResp : (s.busFault r).busResp = some r := rfl
@[simp] theorem State.busFault_host : (s.busFault r).host = s.host := rfl
@[simp] theorem State.busFault_turns : (s.busFault r).turns = s.turns := rfl
@[simp] theorem State.busFault_drawn : (s.busFault r).drawn = s.drawn := rfl
@[simp] theorem State.busFault_powerOns : (s.busFault r).powerOns = s.powerOns := rfl
@[simp] theorem State.busFault_buf (b' : Buf) (k' : Nat) : (s.busFault r).buf b' k' = s.buf b' k' := rfl
@[simp] theorem State.busFault_svf (i' : Nat) (sd' : Side) : (s.busFault r).svf i' sd' = s.svf i' sd' := rfl

end

/-! ### powerOn -/

section

variable (s : State) (level : Bool)

@[simp] theorem State.powerOn_rstN : (s.powerOn level).rstN = level := rfl
@[simp] theorem State.powerOn_irqEn : (s.powerOn level).irqEn = State.reset.irqEn := rfl
@[simp] theorem State.powerOn_settings : (s.powerOn level).settings = State.reset.settings := rfl
@[simp] theorem State.powerOn_liveSr : (s.powerOn level).liveSr = State.reset.liveSr := rfl
@[simp] theorem State.powerOn_liveMaxblk : (s.powerOn level).liveMaxblk = State.reset.liveMaxblk := rfl
@[simp] theorem State.powerOn_osc : (s.powerOn level).osc = State.reset.osc := rfl
@[simp] theorem State.powerOn_ch : (s.powerOn level).ch = State.reset.ch := rfl
@[simp] theorem State.powerOn_pending : (s.powerOn level).pending = State.reset.pending := rfl
@[simp] theorem State.powerOn_done : (s.powerOn level).done = State.reset.done := rfl
@[simp] theorem State.powerOn_err : (s.powerOn level).err = State.reset.err := rfl
@[simp] theorem State.powerOn_busErr : (s.powerOn level).busErr = State.reset.busErr := rfl
@[simp] theorem State.powerOn_prepared : (s.powerOn level).prepared = State.reset.prepared := rfl
@[simp] theorem State.powerOn_errCode : (s.powerOn level).errCode = State.reset.errCode := rfl
@[simp] theorem State.powerOn_hdone : (s.powerOn level).hdone = State.reset.hdone := rfl
@[simp] theorem State.powerOn_mem : (s.powerOn level).mem = ⟨.powerOn (s.powerOns + 1), []⟩ := rfl
@[simp] theorem State.powerOn_busResp : (s.powerOn level).busResp = State.reset.busResp := rfl
@[simp] theorem State.powerOn_host : (s.powerOn level).host = s.host := rfl
@[simp] theorem State.powerOn_turns : (s.powerOn level).turns = s.turns := rfl
@[simp] theorem State.powerOn_drawn : (s.powerOn level).drawn = s.drawn := rfl
@[simp] theorem State.powerOn_powerOns : (s.powerOn level).powerOns = s.powerOns + 1 := rfl

end

/-! ### withHost -/

section

variable (s : State) (ops : List HostOp)

@[simp] theorem State.withHost_rstN : (s.withHost ops).rstN = s.rstN := rfl
@[simp] theorem State.withHost_irqEn : (s.withHost ops).irqEn = s.irqEn := rfl
@[simp] theorem State.withHost_settings : (s.withHost ops).settings = s.settings := rfl
@[simp] theorem State.withHost_liveSr : (s.withHost ops).liveSr = s.liveSr := rfl
@[simp] theorem State.withHost_liveMaxblk : (s.withHost ops).liveMaxblk = s.liveMaxblk := rfl
@[simp] theorem State.withHost_osc : (s.withHost ops).osc = s.osc := rfl
@[simp] theorem State.withHost_ch : (s.withHost ops).ch = s.ch := rfl
@[simp] theorem State.withHost_pending : (s.withHost ops).pending = s.pending := rfl
@[simp] theorem State.withHost_done : (s.withHost ops).done = s.done := rfl
@[simp] theorem State.withHost_err : (s.withHost ops).err = s.err := rfl
@[simp] theorem State.withHost_busErr : (s.withHost ops).busErr = s.busErr := rfl
@[simp] theorem State.withHost_prepared : (s.withHost ops).prepared = s.prepared := rfl
@[simp] theorem State.withHost_errCode : (s.withHost ops).errCode = s.errCode := rfl
@[simp] theorem State.withHost_hdone : (s.withHost ops).hdone = s.hdone := rfl
@[simp] theorem State.withHost_mem : (s.withHost ops).mem = s.mem := rfl
@[simp] theorem State.withHost_busResp : (s.withHost ops).busResp = s.busResp := rfl
@[simp] theorem State.withHost_host : (s.withHost ops).host = ops := rfl
@[simp] theorem State.withHost_turns : (s.withHost ops).turns = s.turns := rfl
@[simp] theorem State.withHost_drawn : (s.withHost ops).drawn = s.drawn := rfl
@[simp] theorem State.withHost_powerOns : (s.withHost ops).powerOns = s.powerOns := rfl
@[simp] theorem State.withHost_buf (b' : Buf) (k' : Nat) : (s.withHost ops).buf b' k' = s.buf b' k' := rfl
@[simp] theorem State.withHost_svf (i' : Nat) (sd' : Side) : (s.withHost ops).svf i' sd' = s.svf i' sd' := rfl

end

end Sys2Proof.Machine
end

