-- ==== Sys2Proof/Laws/Memory.lean ====
section
/-! SUPPORT. The laws of the buffer memory: read after write, the frame of a write, and the canonical
form, which every memory operation keeps. -/

namespace Sys2Proof.Machine

/-! ### Cells -/

theorem cellAt_dropCell (cs : List Host.Cell) (a a' : Nat) :
    cellAt (dropCell cs a) a' = if a' = a then none else cellAt cs a' := by
  induction cs with
  | nil => simp [dropCell, cellAt]
  | cons c cs ih =>
    unfold dropCell at ih ⊢
    by_cases hc : c.1 = a
    · rw [List.filter_cons_of_neg (by simp [hc]), ih, cellAt]
      split
      · rfl
      · rw [if_neg (by omega)]
    · rw [List.filter_cons_of_pos (by simp [hc]), cellAt, cellAt, ih]
      split
      · rw [if_neg (by omega)]
      · rfl

theorem cellAt_putCell (cs : List Host.Cell) (a a' : Nat) (b : Byte) :
    cellAt (putCell cs a b) a' = if a' = a then some b else cellAt cs a' := by
  induction cs with
  | nil => simp [putCell, cellAt, eq_comm (a := a)]
  | cons c cs ih =>
    unfold putCell
    split
    · by_cases h : a' = a
      · subst h; simp [cellAt]
      · simp [cellAt, h, Ne.symm h]
    · split
      · next h =>
        by_cases h' : a' = a
        · simp [cellAt, h']
        · simp [cellAt, h, h', Ne.symm h']
      · next h =>
        rw [cellAt, cellAt, ih]
        split
        · rw [if_neg (by omega)]
        · rfl

/-! ### Bytes -/

/-- What a byte write does: the byte is read back, every other byte is as before. -/
theorem Memory.readByte_writeByte (m : Memory) (a a' : Nat) (b : Byte) :
    (m.writeByte a b).readByte a' = if a' = a then b else m.readByte a' := by
  have hfill : (m.writeByte a b).fillByte a' = m.fillByte a' := rfl
  unfold Memory.readByte
  rw [hfill]
  unfold Memory.writeByte
  by_cases hu : some b = m.unlisted
  · simp only [hu, if_true, cellAt_dropCell]
    by_cases ha : a' = a
    · simp only [ha, if_true, Option.getD_none]
      unfold Memory.unlisted at hu
      unfold Memory.fillByte
      cases hf : m.fill <;> simp_all
    · simp [ha]
  · simp only [hu, if_false, cellAt_putCell]
    by_cases ha : a' = a <;> simp [ha]

@[simp] theorem Memory.writeByte_fill (m : Memory) (a : Nat) (b : Byte) :
    (m.writeByte a b).fill = m.fill := rfl
@[simp] theorem Memory.writeWord_fill (m : Memory) (a : Nat) (w : Word) :
    (m.writeWord a w).fill = m.fill := rfl

/-! ### Words -/

theorem wordOfBytes_byteOfWord (w : Word) :
    wordOfBytes (byteOfWord w 0) (byteOfWord w 1) (byteOfWord w 2) (byteOfWord w 3) = w := by
  apply BitVec.eq_of_getLsbD_eq
  intro i hi
  simp only [wordOfBytes, byteOfWord, BitVec.getLsbD_append, BitVec.getLsbD_extractLsb']
  interval_cases i <;> simp

/-- The frame of a word write: only the word's four bytes change. -/
theorem Memory.readByte_writeWord_other (m : Memory) (a a' : Nat) (w : Word)
    (h : a' < a ∨ a + 4 ≤ a') : (m.writeWord a w).readByte a' = m.readByte a' := by
  unfold Memory.writeWord
  simp only [Memory.readByte_writeByte]
  rw [if_neg (by omega), if_neg (by omega), if_neg (by omega), if_neg (by omega)]

/-- Read after write, the same word. -/
theorem Memory.readWord_writeWord_same (m : Memory) (a : Nat) (w : Word) :
    (m.writeWord a w).readWord a = w := by
  unfold Memory.readWord Memory.writeWord
  simp only [Memory.readByte_writeByte]
  simp [wordOfBytes_byteOfWord]

/-- Read after write, another word. -/
theorem Memory.readWord_writeWord_other (m : Memory) (a a' : Nat) (w : Word)
    (h : a' + 4 ≤ a ∨ a + 4 ≤ a') : (m.writeWord a w).readWord a' = m.readWord a' := by
  unfold Memory.readWord
  rw [Memory.readByte_writeWord_other _ _ _ _ (by omega),
    Memory.readByte_writeWord_other _ _ _ _ (by omega),
    Memory.readByte_writeWord_other _ _ _ _ (by omega),
    Memory.readByte_writeWord_other _ _ _ _ (by omega)]

/-! ### Canonical form -/

theorem canonicalFrom_mono {u : Option Byte} {lo lo' : Nat} {cs : List Host.Cell} (h : lo' ≤ lo)
    (hc : canonicalFrom u lo cs = true) : canonicalFrom u lo' cs = true := by
  cases cs with
  | nil => rfl
  | cons c cs =>
    simp only [canonicalFrom, Bool.and_eq_true, decide_eq_true_eq] at hc ⊢
    exact ⟨⟨by omega, hc.1.2⟩, hc.2⟩

theorem canonicalFrom_dropCell {u : Option Byte} {lo : Nat} {cs : List Host.Cell} (a : Nat)
    (hc : canonicalFrom u lo cs = true) : canonicalFrom u lo (dropCell cs a) = true := by
  induction cs generalizing lo with
  | nil => rfl
  | cons c cs ih =>
    simp only [canonicalFrom, Bool.and_eq_true, decide_eq_true_eq] at hc
    unfold dropCell at ih ⊢
    by_cases hca : c.1 = a
    · rw [List.filter_cons_of_neg (by simp [hca])]
      exact canonicalFrom_mono (by omega) (ih hc.2)
    · rw [List.filter_cons_of_pos (by simp [hca])]
      simp only [canonicalFrom, Bool.and_eq_true, decide_eq_true_eq]
      exact ⟨hc.1, ih hc.2⟩

theorem canonicalFrom_putCell {u : Option Byte} {lo a : Nat} {b : Byte} {cs : List Host.Cell}
    (hlo : lo ≤ a) (hb : some b ≠ u) (hc : canonicalFrom u lo cs = true) :
    canonicalFrom u lo (putCell cs a b) = true := by
  induction cs generalizing lo with
  | nil => simp [putCell, canonicalFrom, hlo, hb]
  | cons c cs ih =>
    simp only [canonicalFrom, Bool.and_eq_true, decide_eq_true_eq] at hc
    unfold putCell
    split
    · simp only [canonicalFrom, Bool.and_eq_true, decide_eq_true_eq]
      exact ⟨⟨hlo, by simpa using hb⟩, ⟨by omega, hc.1.2⟩, hc.2⟩
    · split
      · next h =>
        simp only [canonicalFrom, Bool.and_eq_true, decide_eq_true_eq]
        exact ⟨⟨hlo, by simpa using hb⟩, h ▸ hc.2⟩
      · simp only [canonicalFrom, Bool.and_eq_true, decide_eq_true_eq]
        exact ⟨hc.1, ih (by omega) hc.2⟩

theorem Memory.writeByte_wf {m : Memory} (a : Nat) (b : Byte) (h : m.wf = true) :
    (m.writeByte a b).wf = true := by
  unfold Memory.wf at *
  have hu : (m.writeByte a b).unlisted = m.unlisted := rfl
  rw [hu]
  unfold Memory.writeByte
  by_cases hb : some b = m.unlisted
  · simp only [hb, if_true]; exact canonicalFrom_dropCell a h
  · simp only [hb, if_false]; exact canonicalFrom_putCell (Nat.zero_le a) hb h

theorem Memory.writeWord_wf {m : Memory} (a : Nat) (w : Word) (h : m.wf = true) :
    (m.writeWord a w).wf = true := by
  unfold Memory.writeWord
  exact writeByte_wf _ _ (writeByte_wf _ _ (writeByte_wf _ _ (writeByte_wf _ _ h)))

theorem Memory.zeroed_wf : Memory.zeroed.wf = true := rfl

/-! ### Which addresses are listed -/

theorem mem_putCell {cs : List Host.Cell} {a : Nat} {b : Byte} {c : Host.Cell}
    (h : c ∈ putCell cs a b) : c = (a, b) ∨ c ∈ cs := by
  induction cs with
  | nil => simpa [putCell] using h
  | cons d cs ih =>
    unfold putCell at h
    split at h
    · simpa using h
    · split at h
      · rcases List.mem_cons.1 h with h | h
        · exact .inl h
        · exact .inr (List.mem_cons_of_mem _ h)
      · rcases List.mem_cons.1 h with h | h
        · exact .inr (h ▸ List.mem_cons_self)
        · exact (ih h).imp_right (List.mem_cons_of_mem _)

/-- A byte write lists no address but its own. -/
theorem Memory.mem_writeByte {m : Memory} {a : Nat} {b : Byte} {c : Host.Cell}
    (h : c ∈ (m.writeByte a b).cells) : c.1 = a ∨ c ∈ m.cells := by
  unfold Memory.writeByte at h
  by_cases hb : some b = m.unlisted
  · simp only [hb, if_true, dropCell, List.mem_filter] at h; exact .inr h.1
  · simp only [hb, if_false] at h
    exact (mem_putCell h).imp_left fun h => by rw [h]

/-- A word write lists no address but its four. -/
theorem Memory.mem_writeWord {m : Memory} {a : Nat} {w : Word} {c : Host.Cell}
    (h : c ∈ (m.writeWord a w).cells) : (a ≤ c.1 ∧ c.1 < a + 4) ∨ c ∈ m.cells := by
  unfold Memory.writeWord at h
  rcases Memory.mem_writeByte h with h | h
  · left; omega
  rcases Memory.mem_writeByte h with h | h
  · left; omega
  rcases Memory.mem_writeByte h with h | h
  · left; omega
  rcases Memory.mem_writeByte h with h | h
  · left; omega
  · exact .inr h

/-! ### Buffer words -/

/-- Different words of the buffers do not overlap. -/
theorem wordAddr_disjoint {b b' : Buf} {k k' : Nat} (hk : k < 4096) (hk' : k' < 4096)
    (h : ¬(b' = b ∧ k' = k)) :
    wordAddr b' k' + 4 ≤ wordAddr b k ∨ wordAddr b k + 4 ≤ wordAddr b' k' := by
  unfold wordAddr Buf.base
  cases b <;> cases b' <;> simp at h ⊢ <;> omega

theorem wordAddr_bounds (b : Buf) {k : Nat} (hk : k < 4096) :
    0x10000 ≤ wordAddr b k ∧ wordAddr b k + 4 ≤ 0x24000 := by
  unfold wordAddr Buf.base
  cases b <;> simp <;> omega

/-- Read after write on buffer words (20_memory.md R51, R56). -/
theorem State.buf_setBuf (s : State) (b b' : Buf) {k k' : Nat} (w : Word) (hk : k < 4096)
    (hk' : k' < 4096) :
    (s.setBuf b k w).buf b' k' = if b' = b ∧ k' = k then w else s.buf b' k' := by
  unfold State.buf State.setBuf
  split
  · next h => rw [h.1, h.2]; exact Memory.readWord_writeWord_same _ _ _
  · next h => exact Memory.readWord_writeWord_other _ _ _ _ (wordAddr_disjoint hk hk' h)

/-- After PREPARE's clear every buffer word reads +0.0 (44_control_commands.md R131). -/
theorem Memory.readWord_zeroed (a : Nat) : Memory.zeroed.readWord a = 0 := by
  simp [Memory.readWord, Memory.readByte, Memory.zeroed, Memory.fillByte, cellAt, wordOfBytes]

/-! ### Channels -/

/-- Read after write on the channel file (10_state.md R41). -/
theorem State.svf_setSvf (s : State) {i : Nat} (i' : Nat) (sd sd' : Side) (f : Svf) (hi : i < 200) :
    (s.setSvf i sd f).svf i' sd' = if i' = i ∧ sd' = sd then f else s.svf i' sd' := by
  unfold State.svf State.chan State.setSvf
  by_cases h : i' = i
  · subst h
    cases sd <;> cases sd' <;>
      simp [hi, Channel.side, Channel.setSide, State.chan]
  · simp [h, Vector.getElem?_setIfInBounds_ne (Ne.symm h)]

end Sys2Proof.Machine
end

