-- ==== Sys2Proof/Laws/Writes.lean ====
section
/-! SUPPORT. Memory changed by writes to named buffer words and nothing else: what such a change keeps,
said once for every operation of the engine that stores. -/

namespace Sys2Proof.Machine

/-- `m'` comes from `m` by writes to the buffer words `ok b k`. -/
structure Memory.WritesOnly (ok : Buf → Nat → Prop) (m m' : Memory) : Prop where
  fill : m'.fill = m.fill
  wf : m.wf = true → m'.wf = true
  listed : ∀ c ∈ m'.cells, (∃ b k, ok b k ∧ wordAddr b k ≤ c.1 ∧ c.1 < wordAddr b k + 4) ∨ c ∈ m.cells
  bytes : ∀ a, (∀ b k, ok b k → a < wordAddr b k ∨ wordAddr b k + 4 ≤ a) →
    m'.readByte a = m.readByte a

variable {ok : Buf → Nat → Prop} {m m' m'' : Memory}

theorem Memory.WritesOnly.refl (ok : Buf → Nat → Prop) (m : Memory) : WritesOnly ok m m :=
  ⟨rfl, id, fun _ h => .inr h, fun _ _ => rfl⟩

theorem Memory.WritesOnly.trans (h : WritesOnly ok m m') (h' : WritesOnly ok m' m'') :
    WritesOnly ok m m'' :=
  ⟨h'.fill.trans h.fill, fun hm => h'.wf (h.wf hm),
    fun c hc => (h'.listed c hc).elim .inl (h.listed c),
    fun _ ha => (h'.bytes _ ha).trans (h.bytes _ ha)⟩

theorem Memory.WritesOnly.mono {ok' : Buf → Nat → Prop} (h : WritesOnly ok m m')
    (hle : ∀ b k, ok b k → ok' b k) : WritesOnly ok' m m' :=
  ⟨h.fill, h.wf,
    fun c hc => (h.listed c hc).imp_left fun ⟨b, k, hb, hr⟩ => ⟨b, k, hle b k hb, hr⟩,
    fun _ ha => h.bytes _ fun b k hb => ha b k (hle b k hb)⟩

/-- One buffer word written. -/
theorem Memory.WritesOnly.writeWord (m : Memory) {b : Buf} {k : Nat} (w : Word) (h : ok b k) :
    WritesOnly ok m (m.writeWord (wordAddr b k) w) :=
  ⟨rfl, fun hm => Memory.writeWord_wf _ _ hm,
    fun _ hc => (Memory.mem_writeWord hc).imp_left fun hr => ⟨b, k, h, hr⟩,
    fun _ ha => Memory.readByte_writeWord_other _ _ _ _ (ha b k h)⟩

/-- Buffer words that are not written read as before. -/
theorem Memory.WritesOnly.word (h : WritesOnly ok m m') {b : Buf} {k : Nat} (hk : k < 4096)
    (hok : ∀ b' k', ok b' k' → k' < 4096) (hn : ¬ok b k) :
    m'.readWord (wordAddr b k) = m.readWord (wordAddr b k) := by
  have key : ∀ j, j < 4 → m'.readByte (wordAddr b k + j) = m.readByte (wordAddr b k + j) := by
    intro j hj
    refine h.bytes _ fun b' k' hb => ?_
    have hne : ¬(b' = b ∧ k' = k) := by rintro ⟨rfl, rfl⟩; exact hn hb
    have := wordAddr_disjoint hk (hok b' k' hb) hne
    omega
  unfold Memory.readWord
  have h0 := key 0 (by omega)
  rw [Nat.add_zero] at h0
  rw [h0, key 1 (by omega), key 2 (by omega), key 3 (by omega)]

/-- Writes to words inside the buffers list buffer bytes only. -/
theorem Memory.WritesOnly.inBuffers (h : WritesOnly ok m m') (hok : ∀ b k, ok b k → k < 4096)
    (hm : ∀ c ∈ m.cells, 0x10000 ≤ c.1 ∧ c.1 < 0x24000) :
    ∀ c ∈ m'.cells, 0x10000 ≤ c.1 ∧ c.1 < 0x24000 := by
  intro c hc
  rcases h.listed c hc with ⟨b, k, hb, hr⟩ | hc
  · have := wordAddr_bounds b (hok b k hb); omega
  · exact hm c hc

/-- A loop of passes that each write words of `ok`. -/
theorem Memory.WritesOnly.forTo {f : Nat → State → State} (n : Nat) (s : State)
    (h : ∀ k t, k < n → WritesOnly ok t.mem (f k t).mem) : WritesOnly ok s.mem (forTo f n s).mem :=
  forTo_induct (fun _ t => WritesOnly ok s.mem t.mem) n s (.refl _ _) fun k t hk ht =>
    ht.trans (h k t hk)

end Sys2Proof.Machine
end

