-- ==== Sys2Proof/Laws/Oscillator.lean ====
section
/-! SUPPORT. What `OscAdvance` does (40_oscillator.md R82): the phase after it, the samples it writes,
and that it changes nothing but MOD and the oscillator. -/

namespace Sys2Proof.Machine

/-- The oscillator after `k` samples. -/
def Osc.after (o : Osc) (k : Nat) : Osc :=
  if o.en then { o with p := o.p + BitVec.ofNat 32 k * o.inc } else o

@[simp] theorem Osc.after_zero (o : Osc) : o.after 0 = o := by
  unfold Osc.after; cases o; simp

@[simp] theorem Osc.after_en (o : Osc) (k : Nat) : (o.after k).en = o.en := by
  unfold Osc.after; split <;> rfl

@[simp] theorem Osc.after_inc (o : Osc) (k : Nat) : (o.after k).inc = o.inc := by
  unfold Osc.after; split <;> rfl

theorem Osc.after_add (o : Osc) (j k : Nat) : (o.after j).after k = o.after (j + k) := by
  unfold Osc.after
  cases h : o.en
  · simp [h]
  · simp only [if_true, Osc.mk.injEq, and_true]
    rw [BitVec.ofNat_add, BitVec.add_mul, BitVec.add_assoc]

theorem Osc.next_after (o : Osc) (k : Nat) : (o.after k).next = o.after (k + 1) := by
  unfold Osc.next Osc.after
  cases h : o.en
  · simp [h]
  · simp only [if_true, Osc.mk.injEq, and_true]
    rw [BitVec.ofNat_add, BitVec.add_mul, BitVec.add_assoc]
    simp

/-- `OscAdvance` changes the memory and the oscillator only. -/
theorem oscAdvance_frame (n : Nat) (s : State) :
    oscAdvance n s = { s with mem := (oscAdvance n s).mem, osc := (oscAdvance n s).osc } :=
  forTo_induct (f := oscSample) (fun _ t => t = { s with mem := t.mem, osc := t.osc }) n s rfl fun k t _ ht => by
    rw [ht]; rfl

/-- The oscillator after `OscAdvance(n)`. -/
theorem oscAdvance_osc (n : Nat) (s : State) : (oscAdvance n s).osc = s.osc.after n :=
  forTo_induct (f := oscSample) (fun k t => t.osc = s.osc.after k) n s (by simp) fun k t _ ht => by
    show t.osc.next = _
    rw [ht, Osc.next_after]

/-- `OscAdvance(n)` writes MOD[0..n-1] only. -/
theorem oscAdvance_writes (n : Nat) (s : State) :
    Memory.WritesOnly (fun b k => b = .mod ∧ k < n) s.mem (oscAdvance n s).mem :=
  Memory.WritesOnly.forTo n s fun _ _ hk => Memory.WritesOnly.writeWord _ _ ⟨rfl, hk⟩

/-- The samples `OscAdvance(n)` writes. -/
theorem oscAdvance_sample (n : Nat) (s : State) (hn : n ≤ 4096) (k : Nat) (hk : k < n) :
    (oscAdvance n s).buf .mod k = (s.osc.after k).sample := by
  have key := forTo_induct (f := oscSample)
    (fun j t => t.osc = s.osc.after j ∧ ∀ k, k < j → t.buf .mod k = (s.osc.after k).sample) n s
    ⟨by simp, by simp⟩ (fun j t hj ⟨ho, hb⟩ => by
      refine ⟨by show t.osc.next = _; rw [ho, Osc.next_after], fun k hk => ?_⟩
      have : (oscSample j t).buf .mod k = (t.setBuf .mod j t.osc.sample).buf .mod k := rfl
      rw [this, State.buf_setBuf t _ _ _ (by omega) (by omega)]
      by_cases hkj : k = j
      · subst hkj; simp [ho]
      · simp [hkj, hb k (by omega)])
  exact key.2 k hk

end Sys2Proof.Machine
end

