-- ==== Sys2Proof/Laws/Bank.lean ====
section
/-! SUPPORT. What the parts of PROCESS do (43_bank_mixer.md): for each, the state it changes, the words
it writes, and the value it gives them. -/

namespace Sys2Proof.Machine

/-! ### One side of one sample (R121, R122) -/

/-- A side's step changes the channel file and the memory only. -/
theorem sideStep_frame (i k : Nat) (u : Update) (sd : Side) (s : State) :
    sideStep i k u sd s =
      { s with ch := (sideStep i k u sd s).ch, mem := (sideStep i k u sd s).mem } := rfl

theorem sideStep_svf (i k : Nat) (u : Update) (sd : Side) (s : State) (i' : Nat) (sd' : Side)
    (hi : i < 200) :
    (sideStep i k u sd s).svf i' sd' =
      if i' = i ∧ sd' = sd then (channelStep s.liveSr u (s.svf i sd) (s.buf sd.inBuf k)).2
      else s.svf i' sd' := by
  show (s.setSvf i sd _).svf i' sd' = _
  rw [State.svf_setSvf _ _ _ _ _ hi]

theorem sideStep_buf (i k : Nat) (u : Update) (sd : Side) (s : State) (b : Buf) (k' : Nat)
    (hk : k < 4096) (hk' : k' < 4096) :
    (sideStep i k u sd s).buf b k' =
      if b = sd.outBuf ∧ k' = k then
        mixWord i (s.buf sd.outBuf k) (channelStep s.liveSr u (s.svf i sd) (s.buf sd.inBuf k)).1
      else s.buf b k' := by
  have h := State.buf_setBuf (s.setSvf i sd
    (channelStep s.liveSr u (s.svf i sd) (s.buf sd.inBuf k)).2) sd.outBuf b (k := k) (k' := k')
    (mixWord i (s.buf sd.outBuf k) (channelStep s.liveSr u (s.svf i sd) (s.buf sd.inBuf k)).1) hk hk'
  exact h

/-! ### One sample of one harmonic (R121) -/

theorem sampleStep_frame (S : Settings) (i k : Nat) (s : State) :
    sampleStep S i k s =
      { s with ch := (sampleStep S i k s).ch, mem := (sampleStep S i k s).mem } := rfl

/-- The channel states after a sample: only those of the processed harmonic change. -/
theorem sampleStep_svf (S : Settings) (i k : Nat) (s : State) (i' : Nat) (sd : Side) (hi : i < 200)
    (hk : k < 4096) :
    (sampleStep S i k s).svf i' sd =
      if i' = i then
        (channelStep s.liveSr (update s.liveSr i (s.buf .mod k) S) (s.svf i sd) (s.buf sd.inBuf k)).2
      else s.svf i' sd := by
  unfold sampleStep
  cases sd <;>
    simp [sideStep_svf _ _ _ _ _ _ _ hi, sideStep_buf _ _ _ _ _ _ _ hk hk, Side.inBuf, Side.outBuf]
  all_goals rfl

/-- The buffer words after a sample: only OUT_L[k] and OUT_R[k] change. -/
theorem sampleStep_buf (S : Settings) (i k : Nat) (s : State) (sd : Side) (hi : i < 200)
    (hk : k < 4096) :
    (sampleStep S i k s).buf sd.outBuf k =
      mixWord i (s.buf sd.outBuf k)
        (channelStep s.liveSr (update s.liveSr i (s.buf .mod k) S) (s.svf i sd) (s.buf sd.inBuf k)).1 := by
  unfold sampleStep
  cases sd <;>
    simp [sideStep_svf _ _ _ _ _ _ _ hi, sideStep_buf _ _ _ _ _ _ _ hk hk, Side.inBuf, Side.outBuf]
  all_goals rfl

theorem sampleStep_writes (S : Settings) (i k : Nat) (s : State) :
    Memory.WritesOnly (fun b j => (b = .outL ∨ b = .outR) ∧ j = k) s.mem (sampleStep S i k s).mem :=
  (Memory.WritesOnly.writeWord s.mem (b := .outL) (k := k) _ ⟨.inl rfl, rfl⟩).trans
    (Memory.WritesOnly.writeWord _ (b := .outR) (k := k) _ ⟨.inr rfl, rfl⟩)

/-! ### One harmonic, and the loop (R115, R120) -/

theorem harmonicBlock_frame (S : Settings) (n i : Nat) (s : State) :
    harmonicBlock S n i s =
      { s with ch := (harmonicBlock S n i s).ch, mem := (harmonicBlock S n i s).mem } :=
  forTo_induct (f := sampleStep S i) (fun _ t => t = { s with ch := t.ch, mem := t.mem }) n s rfl fun k t _ ht => by
    rw [sampleStep_frame S i k t]; rw [ht]

theorem harmonicBlock_writes (S : Settings) (n i : Nat) (s : State) :
    Memory.WritesOnly (fun b k => (b = .outL ∨ b = .outR) ∧ k < n) s.mem
      (harmonicBlock S n i s).mem :=
  Memory.WritesOnly.forTo n s fun k t hk =>
    (sampleStep_writes S i k t).mono fun _ _ h => ⟨h.1, h.2 ▸ hk⟩

/-- A processed harmonic changes no other harmonic's channel (R126). -/
theorem harmonicBlock_other (S : Settings) (n i : Nat) (s : State) (i' : Nat) (sd : Side)
    (hi : i < 200) (hn : n ≤ 4096) (h : i' ≠ i) :
    (harmonicBlock S n i s).svf i' sd = s.svf i' sd :=
  forTo_keep (f := sampleStep S i) (fun t => t.svf i' sd) n s fun k t hk => by
    rw [sampleStep_svf S i k t i' sd hi (by omega), if_neg h]

theorem harmonicLoop_frame (S : Settings) (n fuel i : Nat) (s : State) :
    (harmonicLoop S n fuel i s).1 =
      { s with ch := (harmonicLoop S n fuel i s).1.ch, mem := (harmonicLoop S n fuel i s).1.mem } := by
  induction fuel generalizing i s with
  | zero => rfl
  | succ fuel ih =>
    unfold harmonicLoop
    split
    · rw [ih]; rw [harmonicBlock_frame S n i s]
    · rfl

theorem harmonicLoop_writes (S : Settings) (n fuel i : Nat) (s : State) :
    Memory.WritesOnly (fun b k => (b = .outL ∨ b = .outR) ∧ k < n) s.mem
      (harmonicLoop S n fuel i s).1.mem := by
  induction fuel generalizing i s with
  | zero => exact .refl _ _
  | succ fuel ih =>
    unfold harmonicLoop
    split
    · exact (harmonicBlock_writes S n i s).trans (ih _ _)
    · exact .refl _ _

theorem harmonicBlock_liveSr (S : Settings) (n i : Nat) (s : State) :
    (harmonicBlock S n i s).liveSr = s.liveSr := by rw [harmonicBlock_frame]

/-- The number the loop reaches (R123): between its start and its start plus `fuel`, every harmonic
before it passes the test of R120, and it fails the test unless the fuel ran out. -/
theorem harmonicLoop_count (S : Settings) (n fuel i : Nat) (s : State) :
    i ≤ (harmonicLoop S n fuel i s).2 ∧ (harmonicLoop S n fuel i s).2 ≤ i + fuel ∧
      (∀ j, i ≤ j → j < (harmonicLoop S n fuel i s).2 →
        lt32 (nominal j S) (nyquist s.liveSr) = true) ∧
      ((harmonicLoop S n fuel i s).2 < i + fuel →
        lt32 (nominal (harmonicLoop S n fuel i s).2 S) (nyquist s.liveSr) = false) := by
  induction fuel generalizing i s with
  | zero => exact ⟨Nat.le_refl _, Nat.le_refl _, fun j h h' => absurd h' (Nat.not_lt.2 h), fun h =>
      absurd h (Nat.lt_irrefl _)⟩
  | succ fuel ih =>
    unfold harmonicLoop
    split
    · next h =>
      obtain ⟨h1, h2, h3, h4⟩ := ih (i + 1) (harmonicBlock S n i s)
      rw [harmonicBlock_liveSr] at h3 h4
      refine ⟨by omega, by omega, fun j hj hj' => ?_, fun hlt => h4 (by omega)⟩
      rcases Nat.eq_or_lt_of_le hj with rfl | hj
      · exact h
      · exact h3 j hj hj'
    · next h =>
      exact ⟨Nat.le_refl _, by simp, fun j h h' => absurd h' (Nat.not_lt.2 h), fun _ => by
        simpa using h⟩

/-- The loop changes no channel below its start or from the number it reaches on (R126). -/
theorem harmonicLoop_other (S : Settings) (n fuel i : Nat) (s : State) (i' : Nat) (sd : Side)
    (hf : i + fuel ≤ 200) (hn : n ≤ 4096)
    (h : i' < i ∨ (harmonicLoop S n fuel i s).2 ≤ i') :
    (harmonicLoop S n fuel i s).1.svf i' sd = s.svf i' sd := by
  induction fuel generalizing i s with
  | zero => rfl
  | succ fuel ih =>
    unfold harmonicLoop at h ⊢
    split
    · next ht =>
      simp only [ht, if_true] at h
      have := (harmonicLoop_count S n fuel (i + 1) (harmonicBlock S n i s)).1
      rw [ih (i + 1) _ (by omega) (by omega), harmonicBlock_other S n i s i' sd (by omega) hn (by omega)]
    · rfl

/-! ### Before the loop (R118, R119, 40_oscillator.md R87) -/

theorem noisePrepass_frame (n : Nat) (s : State) :
    noisePrepass n s = { s with mem := (noisePrepass n s).mem, drawn := (noisePrepass n s).drawn } :=
  forTo_induct (f := noiseSample) (fun _ t => t = { s with mem := t.mem, drawn := t.drawn }) n s rfl fun k t _ ht => by
    rw [ht]; rfl

theorem noisePrepass_drawn (n : Nat) (s : State) : (noisePrepass n s).drawn = s.drawn + 2 * n :=
  forTo_induct (f := noiseSample) (fun k t => t.drawn = s.drawn + 2 * k) n s rfl fun k t _ ht => by
    show t.drawn + 2 = _
    rw [ht]; ring

theorem noisePrepass_writes (n : Nat) (s : State) :
    Memory.WritesOnly (fun b k => (b = .inL ∨ b = .inR) ∧ k < n) s.mem (noisePrepass n s).mem :=
  Memory.WritesOnly.forTo n s fun k t hk =>
    (Memory.WritesOnly.writeWord t.mem (b := .inL) (k := k) _ ⟨.inl rfl, hk⟩).trans
      (Memory.WritesOnly.writeWord _ (b := .inR) (k := k) _ ⟨.inr rfl, hk⟩)

/-- The words of the noise pre-pass are its draws, left and right in turn (R118). -/
theorem noisePrepass_draw (n : Nat) (s : State) (hn : n ≤ 4096) (k : Nat) (hk : k < n) :
    (noisePrepass n s).buf .inL k = noiseDraw (s.drawn + 2 * k) ∧
      (noisePrepass n s).buf .inR k = noiseDraw (s.drawn + 2 * k + 1) := by
  have key := forTo_induct (f := noiseSample)
    (fun j t => t.drawn = s.drawn + 2 * j ∧ ∀ k, k < j →
      t.buf .inL k = noiseDraw (s.drawn + 2 * k) ∧ t.buf .inR k = noiseDraw (s.drawn + 2 * k + 1)) n s
    ⟨rfl, by simp⟩ (fun j t hj ⟨hd, hb⟩ => by
      refine ⟨by show t.drawn + 2 = _; rw [hd]; ring, fun k hk => ?_⟩
      have h (b : Buf) : (noiseSample j t).buf b k =
          ((t.setBuf .inL j (noiseDraw t.drawn)).setBuf .inR j (noiseDraw (t.drawn + 1))).buf b k := rfl
      rw [h, h, State.buf_setBuf _ _ _ _ (by omega) (by omega),
        State.buf_setBuf _ _ _ _ (by omega) (by omega), State.buf_setBuf _ _ _ _ (by omega) (by omega),
        State.buf_setBuf _ _ _ _ (by omega) (by omega)]
      by_cases hkj : k = j
      · subst hkj; simp [hd]
      · simp [hkj, hb k (by omega)])
  exact key.2 k hk

theorem clearOutput_frame (n : Nat) (s : State) :
    clearOutput n s = { s with mem := (clearOutput n s).mem } :=
  forTo_induct (f := clearSample)
    (fun _ t => t = { s with mem := t.mem }) n s rfl fun k t _ ht => by rw [ht]; rfl

theorem clearOutput_writes (n : Nat) (s : State) :
    Memory.WritesOnly (fun b k => (b = .outL ∨ b = .outR) ∧ k < n) s.mem (clearOutput n s).mem :=
  Memory.WritesOnly.forTo n s fun k t hk =>
    (Memory.WritesOnly.writeWord t.mem (b := .outL) (k := k) _ ⟨.inl rfl, hk⟩).trans
      (Memory.WritesOnly.writeWord _ (b := .outR) (k := k) _ ⟨.inr rfl, hk⟩)

/-- The output clear (R119). -/
theorem clearOutput_zero (n : Nat) (s : State) (hn : n ≤ 4096) (sd : Side) (k : Nat) (hk : k < n) :
    (clearOutput n s).buf sd.outBuf k = F32.zero := by
  have key := forTo_induct
    (f := clearSample) (fun j t => ∀ k, k < j → t.buf sd.outBuf k = F32.zero) n s (by simp) (fun j t hj hb k hk => by
      unfold clearSample
      rw [State.buf_setBuf _ _ _ _ (by omega) (by omega), State.buf_setBuf _ _ _ _ (by omega) (by omega)]
      by_cases hkj : k = j
      · subst hkj; cases sd <;> simp [Side.outBuf]
      · simp [hkj, hb k (by omega)])
  exact key k hk

/-- The oscillator of a block (40_oscillator.md R87). -/
def Osc.forBlock (o : Osc) (S : Settings) (sr : Word) : Osc :=
  o.setFrequency (if S.anyMod then S.rate else F32.zero) sr

theorem modulate_frame (S : Settings) (n : Nat) (s : State) :
    modulate S n s = { s with mem := (modulate S n s).mem, osc := (modulate S n s).osc } := by
  unfold modulate
  rw [oscAdvance_frame]

theorem modulate_osc (S : Settings) (n : Nat) (s : State) :
    (modulate S n s).osc = (s.osc.forBlock S s.liveSr).after n := oscAdvance_osc _ _

theorem modulate_writes (S : Settings) (n : Nat) (s : State) :
    Memory.WritesOnly (fun b k => b = .mod ∧ k < n) s.mem (modulate S n s).mem :=
  oscAdvance_writes n { s with osc := s.osc.setFrequency (if S.anyMod then S.rate else F32.zero) s.liveSr }

theorem modulate_sample (S : Settings) (n : Nat) (s : State) (hn : n ≤ 4096) (k : Nat) (hk : k < n) :
    (modulate S n s).buf .mod k = ((s.osc.forBlock S s.liveSr).after k).sample :=
  oscAdvance_sample n _ hn k hk

/-- The words PROCESS may write (R115): MOD, OUT_L and OUT_R, and the inputs when noise is on. -/
def blockWrites (S : Settings) (n : Nat) (b : Buf) (k : Nat) : Prop :=
  k < n ∧ (b = .mod ∨ b = .outL ∨ b = .outR ∨ (S.noiseEn = true ∧ (b = .inL ∨ b = .inR)))

theorem preBlock_frame (S : Settings) (n : Nat) (s : State) :
    preBlock S n s = { s with
      mem := (preBlock S n s).mem, osc := (preBlock S n s).osc, drawn := (preBlock S n s).drawn } := by
  unfold preBlock
  by_cases h : S.noiseEn = true
  · simp only [h, if_true]
    rw [clearOutput_frame, noisePrepass_frame, modulate_frame]
  · simp only [h, if_false, Bool.false_eq_true]
    rw [clearOutput_frame, modulate_frame]

theorem preBlock_osc (S : Settings) (n : Nat) (s : State) :
    (preBlock S n s).osc = (s.osc.forBlock S s.liveSr).after n := by
  rw [← modulate_osc S n s]
  unfold preBlock
  rw [clearOutput_frame]
  split
  · rw [noisePrepass_frame]
  · rfl

theorem preBlock_writes (S : Settings) (n : Nat) (s : State) :
    Memory.WritesOnly (blockWrites S n) s.mem (preBlock S n s).mem := by
  have h0 := (modulate_writes S n s).mono (ok' := blockWrites S n) fun b k h => ⟨h.2, .inl h.1⟩
  have hc (t : State) := (clearOutput_writes n t).mono (ok' := blockWrites S n) fun b k h =>
    ⟨h.2, h.1.elim (fun h => .inr (.inl h)) fun h => .inr (.inr (.inl h))⟩
  unfold preBlock
  by_cases h : S.noiseEn = true
  · simp only [h, if_true]
    exact (h0.trans ((noisePrepass_writes n _).mono fun b k hb => ⟨hb.2, .inr (.inr (.inr ⟨h, hb.1⟩))⟩)).trans
      (hc _)
  · simp only [h, if_false, Bool.false_eq_true]
    exact h0.trans (hc _)

/-! ### The whole block (R115) -/

/-- What PROCESS changes: the memory, the oscillator, the channels, HDONE and the draw counter. -/
theorem processBlock_frame (S : Settings) (n : Nat) (s : State) :
    processBlock S n s = { s with
      mem := (processBlock S n s).mem, ch := (processBlock S n s).ch, osc := (preBlock S n s).osc,
      hdone := BitVec.ofNat 8 (harmonicLoop S n S.n 0 (preBlock S n s)).2,
      drawn := (preBlock S n s).drawn } := by
  have hl := harmonicLoop_frame S n S.n 0 (preBlock S n s)
  have hp := congrArg (fun p : State => { p with
    ch := (harmonicLoop S n S.n 0 (preBlock S n s)).1.ch,
    mem := (harmonicLoop S n S.n 0 (preBlock S n s)).1.mem }) (preBlock_frame S n s)
  exact congrArg (fun r : State => { r with
    hdone := BitVec.ofNat 8 (harmonicLoop S n S.n 0 (preBlock S n s)).2 }) (hl.trans hp)

theorem processBlock_osc (S : Settings) (n : Nat) (s : State) :
    (processBlock S n s).osc = (s.osc.forBlock S s.liveSr).after n := by
  rw [processBlock_frame, preBlock_osc]

theorem processBlock_writes (S : Settings) (n : Nat) (s : State) :
    Memory.WritesOnly (blockWrites S n) s.mem (processBlock S n s).mem :=
  (preBlock_writes S n s).trans ((harmonicLoop_writes S n S.n 0 _).mono fun _ _ h =>
    ⟨h.2, h.1.elim (fun h => .inr (.inl h)) fun h => .inr (.inr (.inl h))⟩)

end Sys2Proof.Machine
end

