-- ==== Sys2Proof/Laws/Binary32.lean ====
section
/-! SUPPORT. Laws of the binary32 arithmetic (00_scope.md R12, R13): rounding keeps what needs no
rounding, and how the operations act on decoded operands. -/

namespace Sys2Proof.Machine

/-! ### Fields -/

theorem F32.expField_lt (w : Word) : F32.expField w < 256 := by
  unfold F32.expField; exact BitVec.isLt _

theorem F32.fracField_lt (w : Word) : F32.fracField w < 2 ^ 23 := by
  unfold F32.fracField; exact BitVec.isLt _

theorem F32.expField_eq (w : Word) : F32.expField w = w.toNat / 2 ^ 23 % 256 := by
  simp [F32.expField, BitVec.extractLsb'_toNat, Nat.shiftRight_eq_div_pow]

theorem F32.fracField_eq (w : Word) : F32.fracField w = w.toNat % 2 ^ 23 := by
  simp [F32.fracField, BitVec.extractLsb'_toNat]

theorem F32.sign_eq (w : Word) : F32.sign w = decide (2 ^ 31 ≤ w.toNat) := by
  unfold F32.sign
  have := w.isLt
  rw [BitVec.getLsbD, Nat.testBit_eq_decide_div_mod_eq]
  congr 1
  apply propext
  constructor <;> intro h <;> omega

/-- A word is its sign, exponent field and fraction field. -/
theorem F32.ofParts_fields (w : Word) :
    F32.ofParts (F32.sign w) (F32.expField w * 2 ^ 23 + F32.fracField w) = w := by
  apply BitVec.eq_of_toNat_eq
  have := w.isLt
  simp only [F32.ofParts, F32.expField_eq, F32.fracField_eq, F32.sign_eq, BitVec.toNat_ofNat,
    decide_eq_true_eq]
  split <;> omega

theorem isFinite32_iff (w : Word) : isFinite32 w = true ↔ F32.expField w ≠ 255 := by
  simp [isFinite32]

/-- A finite encoding denotes a rational under its own sign. -/
theorem F32.value_of_finite {w : Word} (h : isFinite32 w = true) :
    F32.value w = .fin (F32.sign w) (F32.toRat w) := by
  have h' := (isFinite32_iff w).1 h
  simp [F32.toRat, F32.value, h']

theorem F32.finiteMagnitude_nonneg (e f : Nat) : 0 ≤ F32.finiteMagnitude e f := by
  unfold F32.finiteMagnitude
  rw [Rat.mkRat_eq_div]
  positivity

theorem F32.absRat_toRat {w : Word} (h : isFinite32 w = true) :
    absRat (F32.toRat w) = F32.finiteMagnitude (F32.expField w) (F32.fracField w) := by
  have h' := (isFinite32_iff w).1 h
  have hp := F32.finiteMagnitude_nonneg (F32.expField w) (F32.fracField w)
  simp only [F32.toRat, F32.value, h', if_false]
  unfold absRat
  by_cases hs : F32.sign w = true
  · simp only [hs, if_true]
    split
    · exact neg_neg _
    · linarith
  · simp only [Bool.not_eq_true] at hs
    simp only [hs]
    rw [if_neg (by simpa using hp)]
    simp

/-! ### Rounding -/

theorem floor_natCast (n : Nat) : (n : Rat).floor = (n : Int) := by
  simp [Rat.floor_def]

@[simp] theorem rneInt_natCast (n : Nat) : rneInt (n : Rat) = n := by
  simp [rneInt, floor_natCast]

/-- In units of the least subnormal a finite magnitude is an integer. -/
theorem F32.finiteMagnitude_units (e f : Nat) : F32.finiteMagnitude e f * 2 ^ 149 =
    (((if e = 0 then f else 2 ^ 23 + f) * 2 ^ (max e 1 - 1) : Nat) : Rat) := by
  unfold F32.finiteMagnitude
  rw [Rat.mkRat_eq_div]
  obtain ⟨d, hd⟩ : ∃ d, max e 1 = d + 1 := ⟨max e 1 - 1, by omega⟩
  rw [hd, Nat.add_sub_cancel]
  generalize (if e = 0 then f else 2 ^ 23 + f) = m
  push_cast
  rw [pow_succ]
  norm_num
  ring

/-- The magnitude bits of a finite encoding's own value are its own. -/
theorem rneMagnitude_finiteMagnitude {e f : Nat} (he : e < 255) (hf : f < 2 ^ 23) :
    rneMagnitude (F32.finiteMagnitude e f) = e * 2 ^ 23 + f := by
  unfold rneMagnitude
  simp only [F32.finiteMagnitude_units, floor_natCast, Int.toNat_natCast]
  by_cases h0 : e = 0
  · subst h0
    have hk : Nat.log2 f - 23 = 0 := by
      rcases Nat.eq_zero_or_pos f with h | h
      · subst h; rfl
      · have := (Nat.log2_lt (n := f) (k := 23) (by omega)).2 hf
        omega
    simp only [if_true, Nat.zero_max, Nat.sub_self, pow_zero, Nat.mul_one, hk, div_one, rneInt_natCast]
    simp
    omega
  · have hm : max e 1 = e := by omega
    have hlog : Nat.log2 ((2 ^ 23 + f) * 2 ^ (e - 1)) = 23 + (e - 1) := by
      rw [Nat.log2_eq_iff (by positivity)]
      constructor
      · rw [pow_add]; exact Nat.mul_le_mul_right _ (by omega)
      · rw [show 23 + (e - 1) + 1 = 24 + (e - 1) by omega, pow_add]
        exact Nat.mul_lt_mul_of_pos_right (by omega) (by positivity)
    simp only [h0, if_false, hm, hlog]
    have hdiv : (((2 ^ 23 + f) * 2 ^ (e - 1) : Nat) : Rat) / 2 ^ (23 + (e - 1) - 23) =
        ((2 ^ 23 + f : Nat) : Rat) := by
      rw [show 23 + (e - 1) - 23 = e - 1 by omega]
      push_cast
      field_simp
    rw [hdiv, rneInt_natCast, Int.toNat_natCast]
    omega

/-- Rounding a value that binary32 holds gives its encoding back. -/
theorem roundSigned_toRat {w : Word} (h : isFinite32 w = true) :
    roundSigned (F32.sign w) (F32.toRat w) = w := by
  have h' := (isFinite32_iff w).1 h
  unfold roundSigned
  rw [F32.absRat_toRat h,
    rneMagnitude_finiteMagnitude (by have := F32.expField_lt w; omega) (F32.fracField_lt w),
    F32.ofParts_fields]

theorem rneMagnitude_le (q : Rat) : rneMagnitude q ≤ 0x7F800000 := by
  unfold rneMagnitude; exact Nat.min_le_right _ _

/-- No rounding gives a NaN: the encoding of sign and magnitude up to infinity is a number or an
infinity. -/
theorem F32.value_ofParts_ne_nan (s : Bool) {m : Nat} (h : m ≤ 0x7F800000) :
    F32.value (F32.ofParts s m) ≠ .nan := by
  have hw : (F32.ofParts s m).toNat = (if s then 2 ^ 31 else 0) + m := by
    simp only [F32.ofParts, BitVec.toNat_ofNat]
    split <;> omega
  have he : F32.expField (F32.ofParts s m) = m / 2 ^ 23 % 256 := by
    rw [F32.expField_eq, hw]; split <;> omega
  have hf : F32.fracField (F32.ofParts s m) = m % 2 ^ 23 := by
    rw [F32.fracField_eq, hw]; split <;> omega
  unfold F32.value
  simp only [he, hf]
  split
  · rw [if_pos (by omega)]; simp
  · simp

/-! ### Operations on decoded operands -/

theorem mul32_finite {a b : Word} (ha : isFinite32 a = true) (hb : isFinite32 b = true) :
    mul32 a b = roundSigned (F32.sign a ^^ F32.sign b) (F32.toRat a * F32.toRat b) := by
  simp [mul32, F32.value_of_finite ha, F32.value_of_finite hb]

theorem add32_finite {a b : Word} (ha : isFinite32 a = true) (hb : isFinite32 b = true) :
    add32 a b = if F32.toRat a + F32.toRat b = 0 then F32.ofParts (F32.sign a && F32.sign b) 0
      else rne32 (F32.toRat a + F32.toRat b) := by
  simp [add32, F32.value_of_finite ha, F32.value_of_finite hb]

/-! The opposite (R12's subtraction is the sum with it). -/

theorem F32.sign_neg32 (b : Word) : F32.sign (neg32 b) = !F32.sign b := by
  simp [F32.sign, neg32]

theorem F32.expField_neg32 (b : Word) : F32.expField (neg32 b) = F32.expField b := by
  have h : (neg32 b).extractLsb' 23 8 = b.extractLsb' 23 8 := by
    simp [neg32, BitVec.extractLsb'_xor]
  simp [F32.expField, h]

theorem F32.fracField_neg32 (b : Word) : F32.fracField (neg32 b) = F32.fracField b := by
  have h : (neg32 b).extractLsb' 0 23 = b.extractLsb' 0 23 := by
    simp [neg32, BitVec.extractLsb'_xor]
  simp [F32.fracField, h]

theorem isFinite32_neg32 (b : Word) : isFinite32 (neg32 b) = isFinite32 b := by
  simp [isFinite32, F32.expField_neg32]

theorem F32.toRat_neg32 {b : Word} (h : isFinite32 b = true) :
    F32.toRat (neg32 b) = -F32.toRat b := by
  have h' := (isFinite32_iff b).1 h
  simp only [F32.toRat, F32.value, F32.expField_neg32, F32.fracField_neg32, F32.sign_neg32,
    if_neg h']
  cases F32.sign b <;> simp

theorem sub32_finite {a b : Word} (ha : isFinite32 a = true) (hb : isFinite32 b = true) :
    sub32 a b = if F32.toRat a - F32.toRat b = 0 then F32.ofParts (F32.sign a && !F32.sign b) 0
      else rne32 (F32.toRat a - F32.toRat b) := by
  unfold sub32
  rw [add32_finite ha (by rw [isFinite32_neg32, hb]), F32.toRat_neg32 hb, F32.sign_neg32,
    ← sub_eq_add_neg]

theorem lt32_finite {a b : Word} (ha : isFinite32 a = true) (hb : isFinite32 b = true) :
    lt32 a b = decide (F32.toRat a < F32.toRat b) := by
  simp [lt32, F32.value_of_finite ha, F32.value_of_finite hb]

theorem le32_finite {a b : Word} (ha : isFinite32 a = true) (hb : isFinite32 b = true) :
    le32 a b = decide (F32.toRat a ≤ F32.toRat b) := by
  simp [le32, F32.value_of_finite ha, F32.value_of_finite hb]

theorem F32.toRat_one : F32.toRat F32.one = 1 := by decide +kernel
theorem F32.toRat_zero : F32.toRat F32.zero = 0 := by decide +kernel
theorem F32.sign_one : F32.sign F32.one = false := by decide +kernel
theorem F32.finite_one : isFinite32 F32.one = true := by decide +kernel
theorem F32.finite_zero : isFinite32 F32.zero = true := by decide +kernel

/-- `1 * x = x` for finite `x`. -/
theorem mul32_one_left {a : Word} (h : isFinite32 a = true) : mul32 F32.one a = a := by
  rw [mul32_finite F32.finite_one h, F32.toRat_one, F32.sign_one, one_mul, Bool.false_xor,
    roundSigned_toRat h]

/-- `x * 1 = x` for finite `x`. -/
theorem mul32_one_right {a : Word} (h : isFinite32 a = true) : mul32 a F32.one = a := by
  rw [mul32_finite h F32.finite_one, F32.toRat_one, F32.sign_one, mul_one, Bool.xor_false,
    roundSigned_toRat h]

/-- A NaN operand makes every operation the canonical NaN (R12). -/
theorem add32_nan_left {a : Word} (b : Word) (h : F32.value a = .nan) : add32 a b = F32.qNaN := by
  simp [add32, h]
theorem add32_nan_right (a : Word) {b : Word} (h : F32.value b = .nan) : add32 a b = F32.qNaN := by
  unfold add32; rw [h]; cases F32.value a <;> rfl
theorem mul32_nan_left {a : Word} (b : Word) (h : F32.value a = .nan) : mul32 a b = F32.qNaN := by
  simp [mul32, h]
theorem mul32_nan_right (a : Word) {b : Word} (h : F32.value b = .nan) : mul32 a b = F32.qNaN := by
  unfold mul32; rw [h]; cases F32.value a <;> rfl
theorem F32.value_qNaN : F32.value F32.qNaN = .nan := by decide +kernel

end Sys2Proof.Machine
end

