-- ==== Sys2Proof/Laws/Command.lean ====
section
/-! SUPPORT. What the performance of a command can come to (30_encoding.md R76, 60_exceptions.md R137):
the one equation of `exec`, and the checks of each command. -/

namespace Sys2Proof.Machine

/-- `perform(op, arg, S)` of R76. -/
def perform : Instr → State → CmdResult
  | .nop _ => performNop
  | .prepare _ => performPrepare
  | .reset _ => performReset
  | .process n => performProcess n
  | .oscSetfreq _ => performOscSetfreq
  | .oscAdvance n => performOscAdvance n
  | .oscReset _ => performOscReset

/-- Every command of the table is performed, and every performance ends in a next state. -/
theorem exec_eq (i : Instr) (s : State) : exec i s = .next (complete s (perform i s)) := by
  cases i <;> rfl

/-- PROCESS passes its checks exactly when nothing of R138 applies. -/
theorem performProcess_eq (n : Nat) (s : State) :
    performProcess n s =
      if s.prepared = false then .raised .notPrepared
      else if s.lengthOk n = false then .raised .badLength
      else if s.snap.legal = false then .raised .badSettings
      else .performed (processBlock s.snap n s) := by
  unfold performProcess
  cases s.prepared <;> cases s.lengthOk n <;> cases s.snap.legal <;> rfl

theorem performOscAdvance_eq (n : Nat) (s : State) :
    performOscAdvance n s =
      if s.prepared = false then .raised .notPrepared
      else if s.lengthOk n = false then .raised .badLength
      else .performed (oscAdvance n s) := by
  unfold performOscAdvance
  cases s.prepared <;> cases s.lengthOk n <;> rfl

theorem performOscSetfreq_eq (s : State) :
    performOscSetfreq s =
      if s.prepared = false then .raised .notPrepared
      else .performed { s with osc := s.osc.setFrequency s.snap.oscFreq s.liveSr } := by
  unfold performOscSetfreq
  cases s.prepared <;> rfl

theorem performPrepare_eq (s : State) :
    performPrepare s = if s.snap.configOk = false then .raised .badConfig else .performed s.prepare := by
  unfold performPrepare
  cases s.snap.configOk <;> rfl

/-- A block length that passed its check is inside every buffer (43_bank_mixer.md R116). -/
theorem State.lt_of_lengthOk {s : State} {n k : Nat} (h : s.lengthOk n = true) (hk : k < n) :
    k < 4096 := by
  have := s.liveMaxblk.isLt
  simp only [State.lengthOk, decide_eq_true_eq] at h
  omega

theorem State.le_of_lengthOk {s : State} {n : Nat} (h : s.lengthOk n = true) : n ≤ 4096 := by
  have := s.liveMaxblk.isLt
  simp only [State.lengthOk, decide_eq_true_eq] at h
  omega

end Sys2Proof.Machine
end

