-- ==== Sys2Proof/Laws/PerInstr.lean ====
section
/-! SUPPORT. What holds of every command as syntax: the two fields of its word (30_encoding.md R68,
R69). -/

namespace Sys2Proof.Laws

/-- The fields of the word of a well-formed command are its OP and its ARG. -/
def Fields.Statement (i : Instr) : Prop :=
  i.wellFormed = true → opField (encode i) = i.opcode ∧ argField (encode i) = i.arg

theorem toNat_encode {i : Instr} (h : i.wellFormed = true) :
    (encode i).toNat = i.arg * 256 + i.opcode.toNat := by
  simp only [Instr.wellFormed, decide_eq_true_eq] at h
  unfold encode
  rw [BitVec.toNat_append, Nat.shiftLeft_eq, Nat.mul_comm,
    ← Nat.two_pow_add_eq_or_of_lt i.opcode.isLt]
  simp
  omega

theorem toNat_opField (w : Word) : (opField w).toNat = w.toNat % 256 := by
  simp [opField, BitVec.extractLsb'_toNat]

theorem argField_eq (w : Word) : argField w = w.toNat / 256 := by
  have := w.isLt
  simp [argField, BitVec.extractLsb'_toNat, Nat.shiftRight_eq_div_pow]
  omega

/-- The one argument, for a command of either field. -/
theorem fields_of_wellFormed (i : Instr) : Fields.Statement i := by
  intro h
  have ho := i.opcode.isLt
  refine ⟨BitVec.eq_of_toNat_eq ?_, ?_⟩
  · rw [toNat_opField, toNat_encode h]; omega
  · rw [argField_eq, toNat_encode h]; omega

theorem Fields.nop (a : Nat) : Fields.Statement (.nop a) := fields_of_wellFormed _
theorem Fields.prepare (a : Nat) : Fields.Statement (.prepare a) := fields_of_wellFormed _
theorem Fields.reset (a : Nat) : Fields.Statement (.reset a) := fields_of_wellFormed _
theorem Fields.process (n : Nat) : Fields.Statement (.process n) := fields_of_wellFormed _
theorem Fields.oscSetfreq (a : Nat) : Fields.Statement (.oscSetfreq a) := fields_of_wellFormed _
theorem Fields.oscAdvance (n : Nat) : Fields.Statement (.oscAdvance n) := fields_of_wellFormed _
theorem Fields.oscReset (a : Nat) : Fields.Statement (.oscReset a) := fields_of_wellFormed _

end Sys2Proof.Laws
end

