-- ==== Sys2Proof/Laws/Rounding.lean ====
section
/-! SUPPORT. Rounding is monotone (00_scope.md R13): to an integer, to magnitude bits, and to a
binary32 value under the comparison of R12. -/

namespace Sys2Proof.Machine

/-- What `RNE_int` can be: the floor or the integer above it. -/
theorem rneInt_cases (q : Rat) : rneInt q = q.floor ∨ rneInt q = q.floor + 1 := by
  unfold rneInt
  simp only
  split
  · exact .inl rfl
  · split
    · exact .inr rfl
    · split
      · exact .inl rfl
      · exact .inr rfl

theorem rneInt_mono {p q : Rat} (h : p ≤ q) : rneInt p ≤ rneInt q := by
  have hf : p.floor ≤ q.floor := Rat.floor_monotone h
  rcases lt_or_eq_of_le hf with hlt | heq
  · have := rneInt_cases p
    have := rneInt_cases q
    omega
  · have hr : p - (q.floor : Rat) ≤ q - (q.floor : Rat) := by linarith
    unfold rneInt
    simp only [heq]
    generalize p - (q.floor : Rat) = x at hr ⊢
    generalize q - (q.floor : Rat) = y at hr ⊢
    by_cases hx : x < 1 / 2
    · rw [if_pos hx]
      repeat' split
      all_goals omega
    · have hy : ¬ y < 1 / 2 := fun h' => hx (lt_of_le_of_lt hr h')
      rw [if_neg hx, if_neg hy]
      by_cases hx2 : 1 / 2 < x
      · rw [if_pos hx2, if_pos (lt_of_lt_of_le hx2 hr)]
      · rw [if_neg hx2]
        repeat' split
        all_goals omega

theorem rneInt_natCast_le {q : Rat} {n : Nat} (h : q ≤ n) : rneInt q ≤ n := by
  have := rneInt_mono h
  rwa [rneInt_natCast] at this

theorem le_rneInt_natCast {q : Rat} {n : Nat} (h : (n : Rat) ≤ q) : (n : Int) ≤ rneInt q := by
  have := rneInt_mono h
  rwa [rneInt_natCast] at this

/-- The magnitude bits before the cap at infinity, of a value in units of the least subnormal. -/
def magnitudeOfUnits (t : Rat) : Nat :=
  let k := Nat.log2 t.floor.toNat - 23
  k * 2 ^ 23 + (rneInt (t / 2 ^ k)).toNat

theorem rneMagnitude_eq (q : Rat) :
    rneMagnitude q = min (magnitudeOfUnits (q * 2 ^ 149)) 0x7F800000 := rfl

theorem floor_toNat_le {t : Rat} (h : 0 ≤ t) : (t.floor.toNat : Rat) ≤ t := by
  have h0 : (0 : Int) ≤ t.floor := Rat.le_floor_iff.2 (by simpa using h)
  have h1 : (t.floor : Rat) ≤ t := Rat.floor_le _
  have h2 : ((t.floor.toNat : Int) : Rat) = (t.floor : Rat) := by rw [Int.toNat_of_nonneg h0]
  rw [← h2] at h1
  exact_mod_cast h1

theorem lt_floor_toNat {t : Rat} (h : 0 ≤ t) : t < t.floor.toNat + 1 := by
  have h0 : (0 : Int) ≤ t.floor := Rat.le_floor_iff.2 (by simpa using h)
  have h1 : t < (t.floor : Rat) + 1 := by exact_mod_cast Rat.lt_floor_add_one t
  have h2 : ((t.floor.toNat : Int) : Rat) = (t.floor : Rat) := by rw [Int.toNat_of_nonneg h0]
  rw [← h2] at h1
  exact_mod_cast h1

theorem magnitudeOfUnits_mono {t u : Rat} (h0 : 0 ≤ t) (h : t ≤ u) :
    magnitudeOfUnits t ≤ magnitudeOfUnits u := by
  have hu0 : 0 ≤ u := le_trans h0 h
  have hfl : t.floor.toNat ≤ u.floor.toNat := Int.toNat_le_toNat (Rat.floor_monotone h)
  have hk : Nat.log2 t.floor.toNat - 23 ≤ Nat.log2 u.floor.toNat - 23 := by
    have : Nat.log2 t.floor.toNat ≤ Nat.log2 u.floor.toNat := by
      rw [Nat.log2_eq_log_two, Nat.log2_eq_log_two]; exact Nat.log_mono_right hfl
    omega
  have hub : t < 2 ^ (Nat.log2 t.floor.toNat + 1) := by
    have h1 : t.floor.toNat < 2 ^ (Nat.log2 t.floor.toNat + 1) := Nat.lt_log2_self
    have h2 := lt_floor_toNat h0
    have h3 : (t.floor.toNat : Rat) + 1 ≤ 2 ^ (Nat.log2 t.floor.toNat + 1) := by exact_mod_cast h1
    linarith
  unfold magnitudeOfUnits
  simp only
  generalize hkt : Nat.log2 t.floor.toNat - 23 = k at *
  generalize hku : Nat.log2 u.floor.toNat - 23 = k' at *
  rcases Nat.eq_or_lt_of_le hk with he | hlt
  · subst he
    have : t / 2 ^ k ≤ u / 2 ^ k := by gcongr
    have := Int.toNat_le_toNat (rneInt_mono this)
    omega
  · have hlow : (2 : Rat) ^ 23 ≤ u / 2 ^ k' := by
      have hlog : k' + 23 = Nat.log2 u.floor.toNat := by omega
      have h1 : 2 ^ (k' + 23) ≤ u.floor.toNat := by
        rw [hlog]; apply Nat.log2_self_le
        intro hz
        rw [hz] at hku
        simp at hku
        omega
      have h2 : ((2 ^ (k' + 23) : Nat) : Rat) ≤ u := le_trans (by exact_mod_cast h1) (floor_toNat_le hu0)
      rw [le_div_iff₀ (by positivity)]
      push_cast at h2
      rw [pow_add] at h2
      linarith
    have hhigh : t / 2 ^ k ≤ (2 : Rat) ^ 24 := by
      rw [div_le_iff₀ (by positivity), ← pow_add]
      refine le_trans hub.le ?_
      apply pow_le_pow_right₀ (by norm_num)
      omega
    have h1 : rneInt (t / 2 ^ k) ≤ ((2 ^ 24 : Nat) : Int) := rneInt_natCast_le (by exact_mod_cast hhigh)
    have h2 : ((2 ^ 23 : Nat) : Int) ≤ rneInt (u / 2 ^ k') := le_rneInt_natCast (by exact_mod_cast hlow)
    have : (k + 1) * 2 ^ 23 ≤ k' * 2 ^ 23 := Nat.mul_le_mul_right _ hlt
    omega

theorem rneMagnitude_mono {p q : Rat} (h0 : 0 ≤ p) (h : p ≤ q) : rneMagnitude p ≤ rneMagnitude q := by
  rw [rneMagnitude_eq, rneMagnitude_eq]
  have : magnitudeOfUnits (p * 2 ^ 149) ≤ magnitudeOfUnits (q * 2 ^ 149) :=
    magnitudeOfUnits_mono (by positivity) (by gcongr)
  omega

/-! ### Order of encodings -/

/-- The fields of an encoding made of parts. -/
theorem F32.toNat_ofParts (s : Bool) {m : Nat} (h : m ≤ 0x7F800000) :
    (F32.ofParts s m).toNat = (if s then 2 ^ 31 else 0) + m := by
  simp only [F32.ofParts, BitVec.toNat_ofNat]
  split <;> omega

theorem F32.expField_ofParts (s : Bool) {m : Nat} (h : m ≤ 0x7F800000) :
    F32.expField (F32.ofParts s m) = m / 2 ^ 23 := by
  rw [F32.expField_eq, F32.toNat_ofParts s h]; split <;> omega

theorem F32.fracField_ofParts (s : Bool) {m : Nat} (h : m ≤ 0x7F800000) :
    F32.fracField (F32.ofParts s m) = m % 2 ^ 23 := by
  rw [F32.fracField_eq, F32.toNat_ofParts s h]; split <;> omega

theorem F32.sign_ofParts (s : Bool) {m : Nat} (h : m ≤ 0x7F800000) :
    F32.sign (F32.ofParts s m) = s := by
  rw [F32.sign_eq, F32.toNat_ofParts s h]; cases s
  · simp; omega
  · simp

theorem F32.value_ofParts (s : Bool) {m : Nat} (h : m ≤ 0x7F800000) :
    F32.value (F32.ofParts s m) =
      if m = 0x7F800000 then .inf s
      else .fin s (if s then -(F32.finiteMagnitude (m / 2 ^ 23) (m % 2 ^ 23))
        else F32.finiteMagnitude (m / 2 ^ 23) (m % 2 ^ 23)) := by
  unfold F32.value
  simp only [F32.expField_ofParts s h, F32.fracField_ofParts s h, F32.sign_ofParts s h]
  by_cases hm : m = 0x7F800000
  · subst hm; simp
  · rw [if_neg (by omega), if_neg hm]

/-- Magnitude bits order finite magnitudes. -/
theorem F32.finiteMagnitude_mono {m m' : Nat} (h : m ≤ m') :
    F32.finiteMagnitude (m / 2 ^ 23) (m % 2 ^ 23) ≤ F32.finiteMagnitude (m' / 2 ^ 23) (m' % 2 ^ 23) := by
  unfold F32.finiteMagnitude
  rw [Rat.mkRat_eq_div, Rat.mkRat_eq_div]
  gcongr ?_ / _
  norm_cast
  have key : ∀ n, (if n / 2 ^ 23 = 0 then n % 2 ^ 23 else 2 ^ 23 + n % 2 ^ 23) * 2 ^ max (n / 2 ^ 23) 1 ≤
      (if (n + 1) / 2 ^ 23 = 0 then (n + 1) % 2 ^ 23 else 2 ^ 23 + (n + 1) % 2 ^ 23) *
        2 ^ max ((n + 1) / 2 ^ 23) 1 := by
    intro n
    by_cases hc : (n + 1) % 2 ^ 23 = 0
    · have h1 : (n + 1) / 2 ^ 23 = n / 2 ^ 23 + 1 := by omega
      have h2 : n % 2 ^ 23 = 2 ^ 23 - 1 := by omega
      rw [hc, h1, h2]
      by_cases hz : n / 2 ^ 23 = 0
      · rw [hz]; norm_num
      · rw [if_neg hz, if_neg (by omega), show max (n / 2 ^ 23) 1 = n / 2 ^ 23 by omega,
          show max (n / 2 ^ 23 + 1) 1 = n / 2 ^ 23 + 1 by omega, pow_succ 2 (n / 2 ^ 23)]
        generalize 2 ^ (n / 2 ^ 23) = x
        omega
    · have h1 : (n + 1) / 2 ^ 23 = n / 2 ^ 23 := by omega
      have h2 : (n + 1) % 2 ^ 23 = n % 2 ^ 23 + 1 := by omega
      rw [h1, h2]
      apply Nat.mul_le_mul_right
      split <;> omega
  induction h with
  | refl => exact le_refl _
  | step _ ih => exact le_trans ih (key _)

/-- The comparison of two encodings of one sign up to infinity is that of their magnitude bits. -/
theorem le32_ofParts_nonneg {m m' : Nat} (h : m ≤ m') (h' : m' ≤ 0x7F800000) :
    le32 (F32.ofParts false m) (F32.ofParts false m') = true := by
  have hf := F32.finiteMagnitude_mono h
  unfold le32
  rw [F32.value_ofParts false (le_trans h h'), F32.value_ofParts false h']
  by_cases hb : m' = 0x7F800000
  · by_cases ha : m = 0x7F800000
    · rw [if_pos ha, if_pos hb]; rfl
    · rw [if_neg ha, if_pos hb]; rfl
  · rw [if_neg (by omega), if_neg hb]; simpa using hf

theorem le32_ofParts_neg {m m' : Nat} (h : m' ≤ m) (h' : m ≤ 0x7F800000) :
    le32 (F32.ofParts true m) (F32.ofParts true m') = true := by
  have hf := F32.finiteMagnitude_mono h
  unfold le32
  rw [F32.value_ofParts true h', F32.value_ofParts true (le_trans h h')]
  by_cases ha : m = 0x7F800000
  · by_cases hb : m' = 0x7F800000
    · rw [if_pos ha, if_pos hb]; rfl
    · rw [if_pos ha, if_neg hb]
  · rw [if_neg ha, if_neg (show ¬m' = 0x7F800000 by omega)]; simpa using hf

theorem le32_ofParts_neg_nonneg {m m' : Nat} (h : m ≤ 0x7F800000) (h' : m' ≤ 0x7F800000) :
    le32 (F32.ofParts true m) (F32.ofParts false m') = true := by
  have h1 := F32.finiteMagnitude_nonneg (m / 2 ^ 23) (m % 2 ^ 23)
  have h2 := F32.finiteMagnitude_nonneg (m' / 2 ^ 23) (m' % 2 ^ 23)
  unfold le32
  rw [F32.value_ofParts true h, F32.value_ofParts false h']
  by_cases ha : m = 0x7F800000
  · by_cases hb : m' = 0x7F800000
    · rw [if_pos ha, if_pos hb]; rfl
    · rw [if_pos ha, if_neg hb]
  · by_cases hb : m' = 0x7F800000
    · rw [if_neg ha, if_pos hb]; rfl
    · rw [if_neg ha, if_neg hb]
      simp only [if_true, Bool.false_eq_true, if_false, decide_eq_true_eq]
      linarith

/-- `RNE32` is monotone under the comparison of R12. -/
theorem le32_rne32 {p q : Rat} (h : p ≤ q) : le32 (rne32 p) (rne32 q) = true := by
  unfold rne32 roundSigned
  by_cases hp : p < 0
  · by_cases hq : q < 0
    · rw [decide_eq_true hp, decide_eq_true hq]
      apply le32_ofParts_neg _ (rneMagnitude_le _)
      apply rneMagnitude_mono <;> simp only [absRat, hp, hq, if_true] <;> linarith
    · rw [decide_eq_true hp, decide_eq_false hq]
      exact le32_ofParts_neg_nonneg (rneMagnitude_le _) (rneMagnitude_le _)
  · have hq : ¬ q < 0 := fun h' => hp (lt_of_le_of_lt h h')
    rw [decide_eq_false hp, decide_eq_false hq]
    apply le32_ofParts_nonneg _ (rneMagnitude_le _)
    apply rneMagnitude_mono <;> simp only [absRat, hp, hq, if_false] <;> linarith

end Sys2Proof.Machine
end

