-- ==== Sys2Proof/Laws/Step.lean ====
section
/-! SUPPORT. What a step, a bus access and a performance can do: one inversion lemma each, which later
proofs cite instead of unfolding the step. -/

namespace Sys2Proof.Machine

/-! ### The reset pin (70_reset_and_hazards.md R153) -/

/-- What driving the reset pin can do: nothing while it is high and stays high, else a power-on
reset. -/
theorem State.driveReset_cases (s : State) (level : Bool) :
    (s.rstN = true ∧ level = true ∧ s.driveReset level = s) ∨
      ((s.rstN = false ∨ level = false) ∧ s.driveReset level = s.powerOn level) := by
  unfold State.driveReset
  cases s.rstN <;> cases level <;> simp

/-! ### Bus accesses (20_memory.md R55, R57) -/

/-- A read leaves its response and, on a bus error, BUSERR; nothing else changes. -/
theorem State.busRead_eq (s : State) (a : BusAddr) (z : AccessSize) :
    s.busRead a z = { s with
      busErr := s.busErr || s.isBusError a z
      busResp := some (if s.isBusError a z then .read 0 true
        else .read (s.readTarget (targetOf a)) false) } := by
  unfold State.busRead State.busFault
  cases h : s.isBusError a z <;> simp

/-- What a write access can do: a bus error; nothing; a register write; a buffer word. -/
theorem State.busWrite_cases (s : State) (a : BusAddr) (z : AccessSize) (v : Word) :
    s.busWrite a z v = s.busFault (.write true) ∨
      s.busWrite a z v = { s with busResp := some (.write false) } ∨
      (∃ r, s.busWrite a z v = { s.writeReg v r with busResp := some (.write false) }) ∨
      (s.busy = false ∧ ∃ b k, b ≠ .mod ∧ k < 4096 ∧
        s.busWrite a z v = { s.setBuf b k v with busResp := some (.write false) }) := by
  unfold State.busWrite
  by_cases he : s.isBusError a z = true
  · simp [he]
  · right
    have hk : ∀ b k, targetOf a = .bufWord b k → k < 4096 := by
      intro b k h
      have := a.isLt
      unfold targetOf at h
      simp only at h
      repeat' split at h
      all_goals simp at h
      all_goals omega
    have hbusy : ∀ b k, targetOf a = .bufWord b k → s.busy = false := by
      intro b k h
      unfold State.isBusError at he
      rw [h] at he
      simp at he
      exact he.2
    simp only [he, if_false, Bool.false_eq_true]
    unfold State.writeTarget
    cases ht : targetOf a with
    | register off =>
      cases hr : Reg.atOffset off with
      | none => left; simp [hr]
      | some r => right; left; exact ⟨r, by simp [hr]⟩
    | bufWord b k =>
      by_cases hb : b = .mod
      · left; simp [hb]
      · right; right
        exact ⟨hbusy b k ht, b, k, hb, hk b k ht, by simp [hb]⟩
    | reserved => left; rfl

/-! ### One step -/

/-- Running is stepping first. -/
theorem core_run_succ (M : Host.Core) (k : Nat) (s : M.State) :
    M.run (k + 1) s =
      match M.step s with
      | .next t => M.run k t
      | .fault r => .fault r
      | .refused r => .refused r := by
  cases h : M.step s <;> simp [Host.Core.run, h]

/-- A run that begins with a step to a next state goes on from there. -/
theorem run_succ_of_next {s t : State} (k : Nat) (h : step s = .next t) :
    Host.Core.run Sys2Proof.core (k + 1) s = Host.Core.run Sys2Proof.core k t :=
  (core_run_succ Sys2Proof.core k s).trans (by
    rw [show Sys2Proof.core.step s = .next t from h])

theorem whenOutOfReset_next {s t u : State} :
    whenOutOfReset s t = .next u ↔ s.rstN = true ∧ t = u := by
  unfold whenOutOfReset
  cases s.rstN <;> simp

/-- What a step that gives a next state can be: a performance, a refusal of a reserved opcode, an idle
turn, a bus access out of reset, or the reset pin driven. `u` is the state after the turn is
taken. -/
theorem step_cases {s t : State} (h : step s = .next t) :
    (∃ c i, s.takeTurn.pending = some c ∧ decode c.word = .ok i ∧
      t = complete s.takeTurn (perform i s.takeTurn)) ∨
    (∃ c e, s.takeTurn.pending = some c ∧ decode c.word = .error e ∧
      t = s.takeTurn.refuse .badOpcode) ∨
    t = s.takeTurn ∨
    (∃ a z rest, s.rstN = true ∧ s.host = .read a z :: rest ∧
      t = (s.takeTurn.withHost rest).busRead a z) ∨
    (∃ a z v rest, s.rstN = true ∧ s.host = .write a z v :: rest ∧
      t = (s.takeTurn.withHost rest).busWrite a z v) ∨
    (∃ rest, s.rstN = true ∧ s.host = .wait :: rest ∧ t = waitStep s.takeTurn rest) ∨
    (∃ level rest, s.host = .rst level :: rest ∧
      t = (s.takeTurn.withHost rest).driveReset level) := by
  unfold step agentStep at h
  cases ha : s.nextAgent with
  | engine =>
    rw [ha] at h
    simp only [engineStep] at h
    cases hp : s.takeTurn.pending with
    | none => rw [hp] at h; simp at h; exact .inr (.inr (.inl h.symm))
    | some c =>
      rw [hp] at h
      cases hd : decode c.word with
      | ok i =>
        simp only [hd, exec_eq, Host.Outcome.next.injEq] at h
        exact .inl ⟨c, i, rfl, hd, h.symm⟩
      | error e =>
        simp only [hd, Host.Outcome.next.injEq] at h
        exact .inr (.inl ⟨c, e, rfl, hd, h.symm⟩)
  | host =>
    rw [ha] at h
    simp only [hostStep, State.takeTurn_host] at h
    cases hh : s.host with
    | nil => rw [hh] at h; simp at h; exact .inr (.inr (.inl h.symm))
    | cons op rest =>
      rw [hh] at h
      cases op with
      | read a z =>
        obtain ⟨hr, ht⟩ := whenOutOfReset_next.1 h
        exact .inr (.inr (.inr (.inl ⟨a, z, rest, hr, rfl, ht.symm⟩)))
      | write a z v =>
        obtain ⟨hr, ht⟩ := whenOutOfReset_next.1 h
        exact .inr (.inr (.inr (.inr (.inl ⟨a, z, v, rest, hr, rfl, ht.symm⟩))))
      | wait =>
        obtain ⟨hr, ht⟩ := whenOutOfReset_next.1 h
        exact .inr (.inr (.inr (.inr (.inr (.inl ⟨rest, hr, rfl, ht.symm⟩)))))
      | rst level =>
        simp only [Host.Outcome.next.injEq] at h
        exact .inr (.inr (.inr (.inr (.inr (.inr ⟨level, rest, rfl, h.symm⟩)))))

end Sys2Proof.Machine
end

