-- ==== Sys2Proof/Machine/Assembler.lean ====
section
/-! DEFINITION. Host programs (30_encoding.md R78, R79): the lines `WR`, `RD`, `CMD`, `WRF`, `WAIT` and
`ACK`, and their expansion into bus operations. An `expect` and a label are notes to a reader and give no
transaction (log entry 21). -/

namespace Sys2Proof.Machine

/-- An address of a host program (R78): a number, a register name or a word of a buffer. -/
inductive Loc where
  | at (a : BusAddr)
  | reg (r : Reg)
  | word (b : Buf) (k : Fin 4096)
deriving DecidableEq, Repr

/-- The bus address of a location. -/
def Loc.addr : Loc → BusAddr
  | .at a => a
  | .reg r => BitVec.ofNat 18 r.offset
  | .word b k => BitVec.ofNat 18 (wordAddr b k.val)

/-- One line of a host program (R78, table T7). -/
inductive Line where
  | wr (l : Loc) (w : Word)
  | rd (l : Loc) (expect : Option Word)
  | cmd (i : Instr)
  | wrf (l : Loc) (q : Rat)
  | wait
  | ack
deriving DecidableEq, Repr

/-- The bus operation of a line (table T7): `CMD` writes the command's word to CMD, `WRF` the rounded
value, `ACK` the word `0x0000000E` to STATUS. -/
def Line.op : Line → HostOp
  | .wr l w => .write l.addr .word w
  | .rd l _ => .read l.addr .word
  | .cmd i => .write (Loc.reg .cmd).addr .word (encode i)
  | .wrf l q => .write l.addr .word (rne32 q)
  | .wait => .wait
  | .ack => .write (Loc.reg .status).addr .word 0x0000000E

/-- The encoding of a program is its sequence of bus operations (R78). -/
def assemble (p : List Line) : List HostOp := p.map Line.op

end Sys2Proof.Machine
end

