-- ==== Sys2Proof/Tests/Slice0.lean ====
section
/-! SUPPORT. Tests and witnesses. Expected results come from spec/95_test_vectors.md (the section is
named at each) or are computed by hand from the rules. A theorem `witness_X` shows a concrete input that
meets the hypotheses of `Obligations.X`, clause by clause. -/

namespace Sys2Proof.Tests

-- One test at a time: checked side by side, the kernel evaluations take a stack each.
set_option Elab.async false

open Sys2Proof.Machine Sys2Proof.Claims

/-- A value of the next state, none when the machine stops. -/
def after {α : Type} (o : Host.Outcome State Fault Refusal) (f : State → α) : Option α :=
  match o with
  | .next s => some (f s)
  | .fault _ => none
  | .refused _ => none

/-- After reset with one command word written to CMD and the engine to move. -/
def issued (w : Word) : State := State.reset.withFetchWord 32 w.toNat

/-- After a PREPARE at 48000 Hz with the given block limit, with the given command word pending and
settings latched. -/
def ready (limit : Fin 4097) (w : Word) (S : Settings) : State :=
  { State.reset with liveSr := 0x473B8000, liveMaxblk := limit, prepared := true,
                     mem := Memory.zeroed, settings := S, pending := some ⟨w, S⟩, turns := [.engine] }

/-- The oscillator at a quarter cycle per sample, phase 0 (95_test_vectors.md 2.2). -/
def quarter : Osc := ⟨0, 0x40000000, true⟩

/-- F0 = 12000, HCOUNT = 2 (95_test_vectors.md 2.5, "12k"). -/
def twelveK : Settings := { Settings.reset with f0 := 0x463B8000, hcount := 2 }

/-! ### Well-formedness: ARG is a 24-bit field (R69) -/

theorem test_wellFormed_accepts_largest_arg : (Instr.process 0xFFFFFF).wellFormed = true := by decide
theorem test_wellFormed_rejects_25_bits : (Instr.process 0x1000000).wellFormed = false := by decide
theorem test_wellFormed_rejects_each :
    [Instr.nop 16777216, .prepare 16777216, .reset 16777216, .oscSetfreq 16777216, .oscAdvance 16777216,
      .oscReset 16777216].map Instr.wellFormed = List.replicate 6 false := by decide

/-! ### Decoding words written out from tables T5 and T6: ARG in 24 bits, then OP in 8 -/

theorem test_decode_nop :
    decode (0b000000000000000000000011#24 ++ 0b00000000#8) = .ok (.nop 3) := by decide
theorem test_decode_prepare :
    decode (0b000100100011010001010110#24 ++ 0b00000001#8) = .ok (.prepare 0x123456) := by decide
theorem test_decode_reset :
    decode (0b000000000000000000000000#24 ++ 0b00000010#8) = .ok (.reset 0) := by decide
theorem test_decode_process :
    decode (0b000000000001000000000000#24 ++ 0b00000011#8) = .ok (.process 4096) := by decide
theorem test_decode_oscSetfreq :
    decode (0b000000000000000000000000#24 ++ 0b00010000#8) = .ok (.oscSetfreq 0) := by decide
theorem test_decode_oscAdvance :
    decode (0b000000000000000000000101#24 ++ 0b00010001#8) = .ok (.oscAdvance 5) := by decide
theorem test_decode_oscReset :
    decode (0b100000000000000000000001#24 ++ 0b00010010#8) = .ok (.oscReset 0x800001) := by decide
theorem test_decode_reserved :
    [0x00000004, 0x0000000F, 0x00000013, 0x000004FF].map decode =
      [.error (.badOpcode 0x04), .error (.badOpcode 0x0F), .error (.badOpcode 0x13),
        .error (.badOpcode 0xFF)] := by decide
theorem test_decode_bytes :
    decodeBytes [0x03, 0x04, 0x00, 0x00, 0xAA] = .ok (.process 4, [0xAA]) ∧
      decodeBytes [0x03, 0x04, 0x00] = .error (.truncated 3) := by decide
theorem test_table_rows :
    [0x00, 0x01, 0x02, 0x03, 0x10, 0x11, 0x12].map (decodeTableWord 8) =
      [some (.nop 0), some (.prepare 0), some (.reset 0), some (.process 0), some (.oscSetfreq 0),
        some (.oscAdvance 0), some (.oscReset 0)] ∧
      decodeTableWord 32 0x00000403 = some (.process 4) ∧ decodeTableWord 8 0x04 = none := by decide

/-! ### One step of each command -/

/-- STATUS after a NOP is DONE alone (R130). -/
theorem test_nop_status : after (step (issued 0x00000000)) State.status = some 0x00000002 := by
  decide +kernel

/-- STATUS after PREPARE is PREPARED and DONE; the live values are the reset configuration's. -/
theorem test_prepare : after (step (issued 0x00000001)) (fun t => (t.status, t.liveSr, t.liveMaxblk)) =
    some (0x00000012, 0x473B8000, 512) := by decide +kernel
/-- PREPARE with SR_CFG = 0 is refused, STATUS 0x00000506 (95_test_vectors.md program P4). -/
theorem test_prepare_refused :
    after (exec (.prepare 0) { State.reset with settings := { Settings.reset with srCfg := 0 } })
      (fun t => (t.status, t.prepared)) = some (0x00000506, false) := by decide +kernel

/-- RESET zeroes a channel and leaves the oscillator (95_test_vectors.md 2.2). -/
theorem test_reset :
    after (exec (.reset 0) ({ ready 8 0x00000002 Settings.reset with osc := quarter }.setSvf 199 .right ⟨1, 2⟩))
      (fun t => (t.svf 199 .right, t.osc)) = some (⟨0, 0⟩, quarter) := by decide +kernel

/-- PROCESS before PREPARE is refused, STATUS 0x00000306 (95_test_vectors.md program P4). -/
theorem test_process_refused : after (step (issued 0x00000403)) State.status = some 0x00000306 := by
  decide +kernel
/-- At 12 kHz with HCOUNT = 2 the second harmonic is at Nyquist: HDONE = 1 (95_test_vectors.md 2.5). -/
theorem test_process_hdone :
    after (exec (.process 0) (ready 8 0x00000003 twelveK)) State.status = some 0x00010012 := by
  decide +kernel

/-- OSC_SETFREQ at 1000 Hz keeps the phase (95_test_vectors.md 2.2). -/
theorem test_oscSetfreq_keeps_phase :
    after (exec (.oscSetfreq 0)
      { ready 8 0x00000010 { Settings.reset with oscFreq := 0x447A0000 } with
        osc := ⟨0x40000000, 0x40000000, true⟩ }) State.osc =
      some ⟨0x40000000, 0x05555558, true⟩ := by decide +kernel
/-- OSC_SETFREQ at -5 Hz disables (95_test_vectors.md 2.2). -/
theorem test_oscSetfreq_disables :
    after (exec (.oscSetfreq 0)
      { ready 8 0x00000010 { Settings.reset with oscFreq := 0xC0A00000 } with
        osc := ⟨0x40000000, 0x40000000, true⟩ }) State.osc = some ⟨0, 0, false⟩ := by decide +kernel

/-- Five samples at a quarter cycle: 0, 1, 0, -1, 0 and phase 0x40000000 (program P1). -/
theorem test_oscAdvance_quarter :
    after (exec (.oscAdvance 5) { ready 8 0x00000511 Settings.reset with osc := quarter })
      (fun t => ((List.range 5).map (t.buf .mod), t.osc.p)) =
      some ([0x00000000, 0x3F800000, 0x00000000, 0xBF800000, 0x00000000], 0x40000000) := by
  decide +kernel
/-- One sample more than the block limit is refused, the phase kept (95_test_vectors.md 2.2). -/
theorem test_oscAdvance_refused :
    after (exec (.oscAdvance 9) { ready 8 0x00000911 Settings.reset with osc := quarter })
      (fun t => (t.errCode, t.osc)) = some (.badLength, quarter) := by decide +kernel

/-- OSC_RESET keeps increment and enable (95_test_vectors.md 2.2). -/
theorem test_oscReset :
    after (exec (.oscReset 0) { ready 8 0x00000012 Settings.reset with osc := ⟨0x40000000, 7, true⟩ })
      State.osc = some ⟨0, 7, true⟩ := by decide +kernel

/-! ### The operations below the commands -/

/-- Increments of 95_test_vectors.md 2.2: rounded, near one cycle, and aliased. -/
theorem test_increments :
    [0x3F800000, 0x473B7FFF, 0x476A6000].map (fun f => incrementOf (div32 f 0x473B8000)) =
      [0x00015D86, 0xFFFFFF00, 0x40000000] := by decide +kernel
/-- Wrap at 48000 Hz: 30000, -100, 1e30, 19.999998 and the C3 pair's 24001 (95_test_vectors.md 2.3). -/
theorem test_wrap :
    [0x46EA6000, 0xC2C80000, 0x7149F2CA, 0x419FFFFF, 0x46BB8200].map (wrap 0x473B8000) =
      [0x468CF000, 0x430C0000, 0x46B40000, 0x41A00001, 0x46BBCE00] := by decide +kernel
/-- The smallest curve base and the curve gains at CURVE = 1, QBASE = 20, HCOUNT = 3 (2.4, 1.1). -/
theorem test_curve :
    curveBase 199 { Settings.reset with hcount := 200 } = 0x3BA3D700 ∧
    (List.range 3).map (fun i => curveGain i { Settings.reset with qbase := 0x41A00000, hcount := 3 }) =
      [0x3D4CCCCD, 0x3CB60B61, 0x3C088888] := by decide +kernel
/-- Three filter steps with `g = R2 = 1`, `h = 1/3` on the impulse (42_filter.md R114, vector A). -/
theorem test_filter :
    svfArgument 0x473B8000 0x463B8000 = 0x3F490FDB ∧
    svfCoeffsOf 0x3F800000 0x3F800000 = ⟨0x3F800000, 0x3F800000, 0x3EAAAAAB⟩ ∧
    svfStep ⟨0xBF2AAAAB, 0x3F2AAAAB⟩ ⟨0x3F800000, 0x3F800000, 0x3EAAAAAB⟩ 0 =
      (0xBEE38E39, ⟨0xBE638E38, 0xBE638E38⟩) := by decide +kernel
/-- STATUS write-1-to-clear (95_test_vectors.md 2.1): ERR with ERRCODE, and the read-only bits. -/
theorem test_status_w1c :
    let s := { State.reset with hdone := 3, errCode := .badLength, prepared := true, busErr := true,
                                err := true, done := true }
    s.status = 0x0003041E ∧ (s.writeStatus 0x00000004).status = 0x0003001A ∧
      (s.writeStatus 0x00000011).status = 0x0003041E := by decide +kernel
/-- A halfword write is a bus error and leaves F0 (95_test_vectors.md 2.1). -/
theorem test_halfword_write :
    let t := State.reset.busWrite 0x00040 .half 0x447A0000
    t.busErr = true ∧ t.settings.f0 = 0x42C80000 ∧ t.busResp = some (.write true) := by decide +kernel
/-- Byte order: IN_L[0] = 1.0 has 0x3F in lane 3 (95_test_vectors.md 2.1). -/
theorem test_byte_order :
    let t := State.reset.busWrite 0x10000 .word 0x3F800000
    [0, 1, 2, 3].map (fun j => t.mem.readByte (0x10000 + j)) = [0x00, 0x00, 0x80, 0x3F] := by
  decide +kernel
/-- Lines of host programs expand to their bus writes (30_encoding.md R78, table T7). -/
theorem test_assemble :
    assemble [.cmd (.process 4), .wait, .ack, .wrf (.word .inL 3) 1] =
      [.write 0x00008 .word 0x00000403, .wait, .write 0x0000C .word 0x0000000E,
        .write 0x1000C .word 0x3F800000] := by decide +kernel

/-! ### Witnesses -/

theorem witness_DecodeOfEncodeIsTheCommand :
    (Instr.process 0).wellFormed = true ∧ (Instr.oscReset 16777215).wellFormed = true := by decide
theorem witness_EncodeOfDecodeIsTheWord : decode 0xFFFFFF12 = .ok (.oscReset 16777215) := by decide
theorem witness_OpcodeByteAloneSelectsTheCommand :
    opField 0x12345612 ∈ [0x00, 0x01, 0x02, 0x03, 0x10, 0x11, 0x12] ∧
      opField 0x12345613 ∉ [0x00, 0x01, 0x02, 0x03, 0x10, 0x11, 0x12] := by decide
theorem witness_FourBytesAreOneCommand :
    (Instr.nop 16777215).wellFormed = true ∧ [0x00, 0x01, (0x02 : Byte)].length < 4 := by decide
theorem witness_StepPerformsThePendingCommand :
    (issued 0x00000511).nextAgent = .engine ∧
      (issued 0x00000511).pending = some ⟨0x00000511, Settings.reset⟩ ∧
      decode 0x00000511 = .ok (.oscAdvance 5) := by decide +kernel
theorem witness_StepTakesTheHostsOperation :
    (∀ (p : Bool) (ops : List HostOp),
      ({ State.reset with rstN := p, host := ops } : State).nextAgent = .host ∧
      ({ State.reset with rstN := p, host := ops } : State).rstN = p ∧
      ({ State.reset with rstN := p, host := ops } : State).host = ops) ∧
    ({ ready 8 0 Settings.reset with turns := [.host], host := [.wait] } : State).nextAgent = .host :=
  ⟨fun _ _ => ⟨rfl, rfl, rfl⟩, rfl⟩
theorem witness_ReservedOpcodeIssuesAndIsRefused :
    [0x00000004, 0x0000000F, 0x00000013, 0x000000FF].all (fun w : Word =>
      decide ((0x04 ≤ (opField w).toNat ∧ (opField w).toNat ≤ 0x0F) ∨ 0x13 ≤ (opField w).toNat)) = true ∧
    State.reset.busy = false ∧ (issued 0x00000004).nextAgent = .engine ∧
      (issued 0x00000004).pending = some ⟨0x00000004, Settings.reset⟩ := by decide +kernel
theorem witness_CmdWriteIssuesTheCommand : State.reset.busy = false := rfl
theorem witness_CmdWriteWhileBusyIsRejected : (issued 0x00000403).busy = true := rfl
theorem witness_PerformanceReadsItsSnapshotOnly :
    State.reset.busy = false ∧ (issued 0x00000403).pending = some ⟨0x00000403, Settings.reset⟩ :=
  ⟨rfl, rfl⟩
theorem witness_RefusalsInPriorityOrder :
    State.reset.prepared = false ∧
    (let s := ready 8 0 Settings.reset;
      s.prepared = true ∧ s.liveMaxblk.val < 9) ∧
    (let s := ready 8 0 { Settings.reset with qbase := 0xBF800000 };
      s.prepared = true ∧ 8 ≤ s.liveMaxblk.val ∧ s.snap.legal = false) ∧
    (let s := ready 8 0 { Settings.reset with maxblkCfg := 4097 };
      ¬(isPositive32 s.snap.srCfg = true ∧ 1 ≤ s.snap.maxblkCfg.toNat ∧
        s.snap.maxblkCfg.toNat ≤ 4096)) ∧
    (let s := ready 8 0 { Settings.reset with maxblkCfg := 0 };
      ¬(isPositive32 s.snap.srCfg = true ∧ 1 ≤ s.snap.maxblkCfg.toNat ∧
        s.snap.maxblkCfg.toNat ≤ 4096)) := by decide +kernel
theorem witness_SettingsLegalBounds :
    let s := ready 8 0 { Settings.reset with timbre := 0x3F800001 };
    s.prepared = true ∧ 8 ≤ s.liveMaxblk.val ∧ s.snap.legal = false := by decide +kernel
theorem witness_PendingCommandIsPerformedInTheEnd :
    let s : State := { ready 8 0 Settings.reset with turns := [.host, .host], host := [.wait] };
    s.rstN = true ∧ s.pending = some ⟨0, Settings.reset⟩ ∧
      HostOp.rst true ∉ s.host ∧ HostOp.rst false ∉ s.host := by decide +kernel
theorem witness_BusErrorsAndTheirEffect :
    State.reset.isBusError 0x0000E .word = true ∧ State.reset.isBusError 0x10000 .byte = true ∧
      (issued 0).isBusError 0x10000 .word = true ∧ (issued 0).isBusError 0x23FFC .word = true ∧
      (issued 0).isBusError 0x0FFFC .word = false ∧ (issued 0).isBusError 0x24000 .word = false ∧
      State.reset.isBusError 0x10000 .word = false := by decide +kernel
theorem witness_AcceptedReadsChangeNothing :
    State.reset.isBusError 0x3FFFC .word = false ∧
      (0x00064, 0) ∈ registerReads State.reset ∧ (Buf.mod, 0x20000) ∈ bufferBases ∧ 4095 < 4096 ∧
      State.reset.busy = false := by decide +kernel
theorem witness_PowerOnValues : (Buf.inL, 0x10000) ∈ bufferBases ∧ 199 < 200 := by decide
theorem witness_BufferWriteThenRead : State.reset.busy = false ∧ Buf.outR ≠ .mod ∧ 4095 < 4096 := by
  decide +kernel
theorem witness_ReservedAndReadOnlyIgnoreWrites :
    [0x00030, 0x0003C, 0x00068, 0x0FFFC, 0x24000, 0x3FFFC].all (fun a : BusAddr =>
      decide (a.toNat % 4 = 0 ∧ ((0x030 ≤ a.toNat ∧ a.toNat ≤ 0x03C) ∨
        (0x068 ≤ a.toNat ∧ a.toNat < 0x10000) ∨ 0x24000 ≤ a.toNat))) = true ∧
    [0x00000, 0x00004, 0x0001C, 0x00020, 0x00028, 0x0002C].all (fun a : BusAddr =>
      decide (a.toNat % 4 = 0 ∧ a.toNat ∈ [0x000, 0x004, 0x01C, 0x020, 0x028, 0x02C])) = true ∧
    [0x20000, 0x23FFC].all (fun a : BusAddr =>
      decide (a.toNat % 4 = 0 ∧ 0x20000 ≤ a.toNat ∧ a.toNat < 0x24000 ∧ State.reset.busy = false)) =
      true := by decide +kernel
theorem witness_SettingsRegistersReadBack :
    [Reg.srCfg, Reg.modCtrl, Reg.ctrl].all (fun r => decide (r ∈ [Reg.srCfg, .maxblkCfg, .oscFreq, .f0,
      .qbase, .curve, .timbre, .detune, .link, .depth, .rate, .modCtrl, .ctrl])) = true ∧
      Reg.srCfg ≠ .ctrl := by decide
theorem witness_InterruptFollowsDoneAndEnable :
    (∃ t, exec (.nop 0) State.reset = .next t) ∧ State.reset.isBusError 0x00001 .word = true :=
  ⟨⟨_, rfl⟩, by decide +kernel⟩
theorem witness_ResetPinRestoresEverything :
    [(true, false), (false, false), (false, true), (true, true)].all (fun (p, level) =>
      let s : State := { ready 8 0 Settings.reset with rstN := p, turns := [.host], host := [.rst level] };
      decide (s.nextAgent = .host ∧ s.host = [.rst level] ∧ s.rstN = p)) = true := by decide +kernel
/-- Driven high while high the pin resets nothing; rising it does (R153). -/
theorem test_reset_pin :
    let s : State := { ready 8 0 Settings.reset with turns := [.host], host := [.rst true] };
    after (step s) (fun t => (t.prepared, t.busy)) = some (true, true) ∧
      after (step { s with rstN := false }) (fun t => (t.rstN, t.prepared, t.busy)) =
        some (true, false, false) := by decide +kernel
theorem witness_AccessDuringResetStops :
    let s : State := { State.reset with rstN := false, host := [.wait] };
    s.nextAgent = .host ∧ s.rstN = false ∧ s.host = [.wait] ∧ HostOp.wait ≠ .rst true ∧
      HostOp.wait ≠ .rst false := by decide +kernel
theorem witness_PrepareInstallsAndClears :
    [1, 4096].all (fun v : Word =>
      let s := ready 8 1 { Settings.reset with maxblkCfg := v };
      isPositive32 s.snap.srCfg && decide (1 ≤ s.snap.maxblkCfg.toNat) &&
        decide (s.snap.maxblkCfg.toNat ≤ 4096)) = true := by decide +kernel
theorem witness_OscSetfreqSetsTheNearestIncrement :
    (let s := ready 8 0x10 { Settings.reset with oscFreq := 0x447A0000 };
      s.prepared = true ∧ isPositive32 s.snap.oscFreq = true ∧
        isFinite32 (div32 s.snap.oscFreq s.liveSr) = true) ∧
    (let s := ready 8 0x10 { Settings.reset with oscFreq := 0x80000000 };
      s.prepared = true ∧ isPositive32 s.snap.oscFreq = false) ∧
    (let s := { ready 8 0x10 { Settings.reset with oscFreq := 0x7F7FFFFF } with liveSr := 0x3F000000 };
      s.prepared = true ∧ isFinite32 (div32 s.snap.oscFreq s.liveSr) = false) := by decide +kernel
theorem witness_OscAdvanceWritesTheSine :
    let s : State := { ready 8 0x811 Settings.reset with osc := quarter };
    s.prepared = true ∧ 8 ≤ s.liveMaxblk.val ∧ s.osc.en = true := by decide +kernel
theorem witness_OscAdvanceWhileDisabledIsSilent :
    let s := ready 8 0x811 Settings.reset;
    s.prepared = true ∧ 8 ≤ s.liveMaxblk.val ∧ s.osc.en = false := by decide +kernel
theorem witness_PhaseContinuesAcrossBlocks :
    let s : State := { ready 8 0x303 { twelveK with modCtrl := 1, rate := 0x463B8000 } with osc := quarter };
    s.prepared = true ∧ 3 + 5 ≤ s.liveMaxblk.val ∧ s.snap.legal = true ∧ s.snap.anyMod = true := by
  decide +kernel
/-- The phase moves by OSC_RESET. -/
theorem witness_PhaseMovesOnlyByNamedEvents :
    after (step { ready 8 0x12 Settings.reset with osc := ⟨0x40000000, 7, true⟩ }) (fun t => t.osc.p) =
      some 0 := by decide +kernel
theorem witness_ConfigurationFunctionsAsRequired :
    isPositive32 0x00000001 = true ∧ isPositive32 0x7F7FFFFF = true := by decide +kernel
theorem witness_RoundingIsNearestTiesToEven :
    isFinite32 (rne32 (2 ^ 24 + 1)) = true ∧ isFinite32 (0x4B800001 : Word) = true ∧
      F32.toRat 0x4B800001 ≠ F32.toRat (rne32 (2 ^ 24 + 1)) ∧
      F32.toRat 0x4B800001 - (2 ^ 24 + 1) = (2 ^ 24 + 1) - F32.toRat (rne32 (2 ^ 24 + 1)) ∧
      isFinite32 (rne32 (2 ^ 128 - 2 ^ 103)) = false := by decide +kernel
theorem witness_ArithmeticRoundsTheExactResultOnce :
    isFinite32 0x3F800000 = true ∧ isFinite32 0x00000001 = true ∧ isFinite32 0xBF800000 = true ∧
      isFinite32 0x80000000 = true ∧
      F32.toRat 0x3F800000 + F32.toRat 0x00000001 ≠ 0 ∧
      F32.toRat 0x3F800000 + F32.toRat 0xBF800000 = 0 ∧
      F32.toRat 0x3F800000 - F32.toRat 0x00000001 ≠ 0 ∧
      F32.toRat 0x3F800000 - F32.toRat 0x3F800000 = 0 ∧
      F32.toRat 0x3F800000 * F32.toRat 0x00000001 ≠ 0 ∧
      F32.toRat 0x3F800000 * F32.toRat 0x80000000 = 0 ∧ F32.toRat 0x3F800000 ≠ 0 ∧
      F32.toRat 0x00000001 ≠ 0 ∧ F32.toRat 0x80000000 = 0 := by decide +kernel
theorem witness_NanResultsAreCanonical :
    F32.value (sub32 0x7F800000 0x7F800000) = .nan ∧ F32.value (div32 0 0) = .nan ∧
      F32.value (mul32 0x7F800000 0) = .nan ∧ F32.value (add32 0xFFC00001 0) = .nan ∧
      F32.value 0xFFC00001 = .nan ∧ F32.value 0x7F800001 = .nan := by decide +kernel
theorem witness_NominalFrequencyWrittenOut :
    twelveK.legal = true ∧ 0 < 199 ∧ twelveK.fmEn = false ∧ twelveK.dmEn = false ∧
      ({ twelveK with modCtrl := 1 } : Settings).fmEn = true := by decide +kernel
theorem witness_ResonanceIsRoundedOnce : 199 ≤ 199 ∧ isFinite32 Settings.reset.qbase = true := by
  decide +kernel
theorem witness_WrapKeepsTheBandAndTheFloor :
    isPositive32 0x473B8000 = true ∧ isFinite32 0x41A00000 = true ∧ isFinite32 0x46BB8000 = true ∧
      le32 F32.twenty 0x41A00000 = true ∧ le32 0x41A00000 (nyquist 0x473B8000) = true ∧
      le32 F32.twenty 0x46BB8000 = true ∧ le32 0x46BB8000 (nyquist 0x473B8000) = true ∧
      isFinite32 0x46EA6000 = true ∧ lt32 (nyquist 0x473B8000) 0x46BB8001 = true ∧
      lt32 (nyquist 0x473B8000) 0x46BB8000 = false ∧ isFinite32 0x46BB8001 = true ∧
      le32 (wrap 0x473B8000 0x46EA6000) (nyquist 0x473B8000) = true := by decide +kernel
theorem witness_WrapIsIdempotentOnlyUpToNyquist :
    isPositive32 0x473B8000 = true ∧ isFinite32 0x46BBA800 = true := by decide +kernel
theorem witness_CurveBaseIsPositive :
    199 < ({ Settings.reset with hcount := 200 } : Settings).n ∧
      0 < ({ Settings.reset with hcount := 1 } : Settings).n := by decide
theorem witness_TimbreBlendStaysInRange :
    (let S : Settings := { Settings.reset with timbre := 0x80000000, depth := 0xFF7FFFFF };
      S.legal = true ∧ S.tmEn = false) ∧
    (let S : Settings := { Settings.reset with modCtrl := 4, depth := 0x3F000000 };
      let t := fun m => add32 S.timbre (mul32 m S.depth);
      S.legal = true ∧ S.tmEn = true ∧
        [0xC0000000, 0xBF800000, 0x3E800000, 0x3F800000].map isFinite32 = [true, true, true, true] ∧
        lt32 (t 0xC0000000) F32.zero = true ∧ eq32 (t 0xBF800000) F32.zero = true ∧
        lt32 F32.zero (t 0x3E800000) = true ∧ lt32 (t 0x3E800000) F32.one = true ∧
        le32 F32.one (t 0x3F800000) = true) := by decide +kernel
theorem witness_EffectiveDetuneIsNeverZero :
    Settings.reset.dmEn = false ∧ eq32 Settings.reset.detune F32.zero = false ∧
      eq32 ({ Settings.reset with detune := 0x80000000 } : Settings).detune F32.zero = true ∧
      (let S : Settings := { Settings.reset with modCtrl := 2, depth := 0x3F800000 };
        S.dmEn = true ∧
          eq32 (mul32 S.detune (add32 F32.one (mul32 0xBF800000 S.depth))) F32.zero = true ∧
          eq32 (mul32 S.detune (add32 F32.one (mul32 0x3F800000 S.depth))) F32.zero = false) := by
  decide +kernel
theorem witness_UpdateIgnoresModulationWhenOff :
    ({ Settings.reset with modCtrl := 8 } : Settings).anyMod = false := by decide
theorem witness_FilterKeepsSilence :
    isFinite32 0x3F800000 = true ∧ isFinite32 0x3EAAAAAB = true ∧
      isFinite32 (add32 0x3F800000 0x3F800000) = true := by decide +kernel
theorem witness_FilterNanSticks :
    F32.value 0x7FC00000 = .nan ∧ F32.value 0xFF800001 = .nan := by decide +kernel

/-- PROCESS of a whole block, for the statements that assume it accepted. -/
theorem accepted_ready : ProcessAccepted (ready 4096 0x00100003 twelveK) 4096 :=
  ⟨rfl, by decide, by decide +kernel⟩
theorem witness_ProcessFrame : ProcessAccepted (ready 4096 0x00100003 twelveK) 4096 := accepted_ready
/-- At a sample rate of 30 Hz a fundamental of 1 Hz is placed at 39 Hz, above Nyquist: the one harmonic
is processed, its instant invalid, the sample +0.0 and the filter state held (R97, R110). -/
theorem test_process_invalid_instant :
    let S : Settings := { Settings.reset with f0 := 0x3F800000, hcount := 1 };
    let s := ({ ready 1 0x00000103 S with liveSr := 0x41F00000 }.setSvf 0 .left ⟨1, 2⟩).setBuf .outL 0 5;
    (s.prepared = true ∧ 1 ≤ s.liveMaxblk.val ∧ s.snap.legal = true) ∧
      after (exec (.process 1) s) (fun t =>
        (t.hdone, placed s.liveSr 0 (t.buf .mod 0) s.snap, t.svf 0 .left, t.buf .outL 0)) =
        some (1, none, ⟨1, 2⟩, 0) := by decide +kernel
theorem witness_HdoneCountsUpToTheNyquistBreak :
    ProcessAccepted (ready 4096 0x00100003 twelveK) 4096 := accepted_ready
theorem witness_ProcessDrivesTheOscillator :
    ProcessAccepted (ready 4096 0x00100003 twelveK) 4096 ∧
      (ready 4096 0x00100003 twelveK).snap.anyMod = false := ⟨accepted_ready, by decide +kernel⟩
theorem witness_NoiseReplacesTheInputs :
    (ProcessAccepted (ready 4 0x00000403 { twelveK with modCtrl := 8 }) 4 ∧
      (ready 4 0x00000403 { twelveK with modCtrl := 8 }).snap.noiseEn = true) ∧
    (ProcessAccepted (ready 4096 0x00100003 twelveK) 4096 ∧
      (ready 4096 0x00100003 twelveK).snap.noiseEn = false) :=
  ⟨⟨⟨rfl, by decide, by decide +kernel⟩, by decide +kernel⟩, accepted_ready, by decide +kernel⟩
theorem witness_NoHarmonicGivesSilence :
    (ProcessAccepted (ready 4 0x00000403 { twelveK with hcount := 0 }) 4 ∧
      (ready 4 0x00000403 { twelveK with hcount := 0 }).snap.n = 0) ∧
    (ProcessAccepted (ready 4 0x00000403 { twelveK with f0 := 0x46BB8000 }) 4 ∧
      lt32 (ready 4 0x00000403 { twelveK with f0 := 0x46BB8000 }).snap.f0
        (mul32 (ready 4 0x00000403 { twelveK with f0 := 0x46BB8000 }).liveSr F32.half) = false) :=
  ⟨⟨⟨rfl, by decide, by decide +kernel⟩, rfl⟩, ⟨rfl, by decide, by decide +kernel⟩,
    by decide +kernel⟩
theorem witness_ProcessIsTheStreamedBank :
    ProcessAccepted (ready 4096 0x00100003 twelveK) 4096 ∧
      placed 0x473B8000 0 0 twelveK = some 0x463B8000 := ⟨accepted_ready, by decide +kernel⟩
/-- Two states that differ in the right side's input and filter. -/
theorem witness_SidesDoNotInterfere :
    let s := ready 4 0x00000403 twelveK;
    let s' := (s.setBuf .inR 0 1).setSvf 0 .right ⟨1, 1⟩;
    s'.prepared = true ∧ 4 ≤ s'.liveMaxblk.val ∧ s'.snap.legal = true ∧ s.prepared = true ∧
      4 ≤ s.liveMaxblk.val ∧ s.snap.legal = true ∧ s'.snap = s.snap ∧ s'.liveSr = s.liveSr ∧
      s'.osc = s.osc ∧ s'.drawn = s.drawn ∧
      (∀ k, k < 4 → s'.buf .inL k = s.buf .inL k) ∧ (∀ i, i < 200 → s'.svf i .left = s.svf i .left) ∧
      s'.buf .inR 0 ≠ s.buf .inR 0 := by decide +kernel
/-- A state of the invariant that is not the reset state, and its step. -/
theorem witness_InvariantIsKeptByEveryStep :
    ({ State.reset with irqEn := true, host := [.wait] } : State).Inv ∧
      ∃ t, step { State.reset with irqEn := true, host := [.wait] } = .next t :=
  ⟨⟨rfl, by simp [State.reset], by decide, fun _ => rfl, fun _ => rfl, by simp [State.reset],
    fun h => by simp [State.reset] at h, fun _ => ⟨rfl, rfl, rfl, rfl, rfl⟩,
    fun h => by simp [State.reset] at h⟩, ⟨_, rfl⟩⟩

end Sys2Proof.Tests
end

/-! Binary32 arithmetic and the configuration functions (00_scope.md R12, R13, R15, R17). -/

namespace Sys2Proof.Machine

open Sys2Proof.Claims

/-! ### Zeros, infinities and signs -/

theorem ofParts_zero (s : Bool) : F32.ofParts s 0 = zeroOf s := by cases s <;> rfl

theorem ofParts_inf (s : Bool) : F32.ofParts s 0x7F800000 = infOf s := by cases s <;> rfl

theorem F32.value_infOf (s : Bool) : F32.value (infOf s) = .inf s := by
  rw [← ofParts_inf, F32.value_ofParts s le_rfl, if_pos rfl]

theorem neg32_infOf (s : Bool) : neg32 (infOf s) = infOf (!s) := by cases s <;> rfl

/-- A nonzero finite value has the sign of its encoding. -/
theorem F32.sign_eq_of_toRat_ne_zero {w : Word} (hw : isFinite32 w = true) (h0 : F32.toRat w ≠ 0) :
    F32.sign w = decide (F32.toRat w < 0) := by
  have hmag := F32.finiteMagnitude_nonneg (F32.expField w) (F32.fracField w)
  have hval : F32.toRat w = if F32.sign w then
      -(F32.finiteMagnitude (F32.expField w) (F32.fracField w))
      else F32.finiteMagnitude (F32.expField w) (F32.fracField w) := by
    simp [F32.toRat, F32.value, (isFinite32_iff w).1 hw]
  cases hs : F32.sign w
  · rw [hs, if_neg Bool.false_ne_true] at hval
    simpa [hval] using hmag
  · rw [hs, if_pos rfl] at hval
    have hne : F32.finiteMagnitude (F32.expField w) (F32.fracField w) ≠ 0 :=
      fun h => h0 (by rw [hval, h, neg_zero])
    simpa [hval] using lt_of_le_of_ne hmag hne.symm

/-! ### Products and quotients of finite operands -/

theorem roundSigned_zero (s : Bool) : roundSigned s 0 = zeroOf s := by
  cases s <;> decide +kernel

theorem decide_mul_neg {x y : Rat} (hx : x ≠ 0) (hy : y ≠ 0) :
    decide (x * y < 0) = (decide (x < 0) ^^ decide (y < 0)) := by
  have pos_iff {z : Rat} (hz : z ≠ 0) : 0 < z ↔ ¬ z < 0 := by
    rw [not_lt, le_iff_lt_or_eq, or_iff_left hz.symm]
  simp only [mul_neg_iff, pos_iff hx, pos_iff hy]
  by_cases h : x < 0 <;> by_cases h' : y < 0 <;> simp [h, h']

theorem decide_div_neg {x y : Rat} (hx : x ≠ 0) (hy : y ≠ 0) :
    decide (x / y < 0) = (decide (x < 0) ^^ decide (y < 0)) := by
  rw [div_eq_mul_inv, decide_mul_neg hx (inv_ne_zero hy)]
  simp only [inv_lt_zero]

theorem div32_finite {a b : Word} (ha : isFinite32 a = true) (hb : isFinite32 b = true) :
    div32 a b = if F32.toRat b = 0 then
        (if F32.toRat a = 0 then F32.qNaN else infOf (F32.sign a ^^ F32.sign b))
      else roundSigned (F32.sign a ^^ F32.sign b) (F32.toRat a / F32.toRat b) := by
  simp [div32, F32.value_of_finite ha, F32.value_of_finite hb, ofParts_inf]

theorem eq32_finite {a b : Word} (ha : isFinite32 a = true) (hb : isFinite32 b = true) :
    eq32 a b = decide (F32.toRat a = F32.toRat b) := by
  simp [eq32, F32.value_of_finite ha, F32.value_of_finite hb]

theorem mul32_of_ne_zero {a b : Word} (ha : isFinite32 a = true) (hb : isFinite32 b = true)
    (h : F32.toRat a * F32.toRat b ≠ 0) : mul32 a b = rne32 (F32.toRat a * F32.toRat b) := by
  obtain ⟨ha0, hb0⟩ := mul_ne_zero_iff.1 h
  rw [mul32_finite ha hb, rne32, decide_mul_neg ha0 hb0, F32.sign_eq_of_toRat_ne_zero ha ha0,
    F32.sign_eq_of_toRat_ne_zero hb hb0]

theorem div32_of_ne_zero {a b : Word} (ha : isFinite32 a = true) (hb : isFinite32 b = true)
    (ha0 : F32.toRat a ≠ 0) (hb0 : F32.toRat b ≠ 0) :
    div32 a b = rne32 (F32.toRat a / F32.toRat b) := by
  rw [div32_finite ha hb, if_neg hb0, rne32, decide_div_neg ha0 hb0,
    F32.sign_eq_of_toRat_ne_zero ha ha0, F32.sign_eq_of_toRat_ne_zero hb hb0]

/-! ### Infinities (R12) -/

section Infinity
variable {b : Word} (hb : isFinite32 b = true) (s : Bool)
include hb

theorem add32_inf_finite : add32 (infOf s) b = infOf s := by
  simp [add32, F32.value_infOf, F32.value_of_finite hb, ofParts_inf]
theorem add32_finite_inf : add32 b (infOf s) = infOf s := by
  simp [add32, F32.value_infOf, F32.value_of_finite hb, ofParts_inf]
theorem sub32_inf_finite : sub32 (infOf s) b = infOf s :=
  add32_inf_finite (by rw [isFinite32_neg32, hb]) s
theorem sub32_finite_inf : sub32 b (infOf s) = infOf (!s) := by
  rw [sub32, neg32_infOf, add32_finite_inf hb]
theorem mul32_inf_finite :
    mul32 (infOf s) b = if F32.toRat b = 0 then F32.qNaN else infOf (s ^^ F32.sign b) := by
  simp [mul32, F32.value_infOf, F32.value_of_finite hb, ofParts_inf]
theorem mul32_finite_inf :
    mul32 b (infOf s) = if F32.toRat b = 0 then F32.qNaN else infOf (s ^^ F32.sign b) := by
  simp [mul32, F32.value_infOf, F32.value_of_finite hb, ofParts_inf, Bool.xor_comm]
theorem div32_inf_finite : div32 (infOf s) b = infOf (s ^^ F32.sign b) := by
  simp [div32, F32.value_infOf, F32.value_of_finite hb, ofParts_inf]
theorem div32_finite_inf : div32 b (infOf s) = zeroOf (s ^^ F32.sign b) := by
  simp [div32, F32.value_infOf, F32.value_of_finite hb, ofParts_zero, Bool.xor_comm]
/-- The infinities are at the ends of the order. -/
theorem compare_inf_finite :
    lt32 (infOf s) b = s ∧ lt32 b (infOf s) = !s ∧ le32 (infOf s) b = s ∧ le32 b (infOf s) = !s ∧
      eq32 (infOf s) b = false ∧ eq32 b (infOf s) = false := by
  simp [lt32, le32, eq32, F32.value_infOf, F32.value_of_finite hb]
end Infinity

section TwoInfinities
variable (s t : Bool)

theorem add32_inf_inf :
    add32 (infOf s) (infOf t) = if s = t then infOf s else F32.qNaN := by
  simp [add32, F32.value_infOf, ofParts_inf]
theorem sub32_inf_inf :
    sub32 (infOf s) (infOf t) = if s = t then F32.qNaN else infOf s := by
  rw [sub32, neg32_infOf, add32_inf_inf]
  cases s <;> cases t <;> rfl
theorem mul32_inf_inf : mul32 (infOf s) (infOf t) = infOf (s ^^ t) := by
  simp [mul32, F32.value_infOf, ofParts_inf]
theorem div32_inf_inf : div32 (infOf s) (infOf t) = F32.qNaN := by
  simp [div32, F32.value_infOf]
theorem compare_inf_inf :
    lt32 (infOf s) (infOf t) = (s && !t) ∧ le32 (infOf s) (infOf t) = (s || !t) ∧
      eq32 (infOf s) (infOf t) = (s == t) := by
  simp [lt32, le32, eq32, F32.value_infOf]
end TwoInfinities

/-- Settles O39: finite operands, one infinity, two infinities, each by the lemma of its operation. -/
theorem arithmeticRoundsTheExactResultOnce : Obligations.ArithmeticRoundsTheExactResultOnce := by
  refine ⟨fun a b ha hb => ⟨?_, ?_, ?_, ?_, mul32_of_ne_zero ha hb, ?_, div32_of_ne_zero ha hb, ?_, ?_,
    ?_, lt32_finite ha hb, le32_finite ha hb, eq32_finite ha hb⟩, fun s b hb => ?_, fun s t => ?_⟩
  · intro h; rw [add32_finite ha hb, if_neg h]
  · intro h; rw [add32_finite ha hb, if_pos h, ofParts_zero]
  · intro h; rw [sub32_finite ha hb, if_neg h]
  · intro h; rw [sub32_finite ha hb, if_pos h, ofParts_zero]
  · intro h; rw [mul32_finite ha hb, h, roundSigned_zero]
  · intro ha0 hb0; rw [div32_finite ha hb, if_neg hb0, ha0, zero_div, roundSigned_zero]
  · intro ha0 hb0; rw [div32_finite ha hb, if_pos hb0, if_neg ha0]
  · intro ha0 hb0; rw [div32_finite ha hb, if_pos hb0, if_pos ha0]; rfl
  · refine ⟨add32_inf_finite hb s, add32_finite_inf hb s, sub32_inf_finite hb s, sub32_finite_inf hb s,
      fun h0 => ?_, fun h0 => ?_, div32_inf_finite hb s, div32_finite_inf hb s, compare_inf_finite hb s⟩
    · rw [mul32_inf_finite hb, mul32_finite_inf hb, if_neg h0]; exact ⟨rfl, rfl⟩
    · rw [mul32_inf_finite hb, mul32_finite_inf hb, if_pos h0]; exact ⟨rfl, rfl⟩
  · exact ⟨add32_inf_inf s t, sub32_inf_inf s t, mul32_inf_inf s t, div32_inf_inf s t,
      compare_inf_inf s t⟩

/-! ### NaN results (R12) -/

theorem F32.value_neg32_nan {b : Word} (h : F32.value b = .nan) : F32.value (neg32 b) = .nan := by
  have he : F32.expField b = 255 := by
    by_contra he
    simp [F32.value, he] at h
  have hf : F32.fracField b ≠ 0 := fun hf => by simp [F32.value, he, hf] at h
  simp [F32.value, F32.expField_neg32, F32.fracField_neg32, he, hf]

theorem sub32_nan_left {a : Word} (b : Word) (h : F32.value a = .nan) : sub32 a b = F32.qNaN :=
  add32_nan_left _ h
theorem sub32_nan_right (a : Word) {b : Word} (h : F32.value b = .nan) : sub32 a b = F32.qNaN :=
  add32_nan_right a (F32.value_neg32_nan h)
theorem div32_nan_left {a : Word} (b : Word) (h : F32.value a = .nan) : div32 a b = F32.qNaN := by
  simp [div32, h]
theorem div32_nan_right (a : Word) {b : Word} (h : F32.value b = .nan) : div32 a b = F32.qNaN := by
  unfold div32; rw [h]; cases F32.value a <;> rfl

theorem compare_nan_left {a : Word} (b : Word) (h : F32.value a = .nan) :
    lt32 a b = false ∧ le32 a b = false ∧ eq32 a b = false := by
  simp [lt32, le32, eq32, h]
theorem compare_nan_right (a : Word) {b : Word} (h : F32.value b = .nan) :
    lt32 a b = false ∧ le32 a b = false ∧ eq32 a b = false := by
  unfold lt32 le32 eq32; rw [h]; cases F32.value a <;> exact ⟨rfl, rfl, rfl⟩

/-- What an operation answers: the canonical NaN, or a sign with magnitude bits up to infinity. -/
def IsResult (r : Word) : Prop := r = F32.qNaN ∨ ∃ s m, m ≤ 0x7F800000 ∧ r = F32.ofParts s m

theorem IsResult.qNaN : IsResult F32.qNaN := .inl rfl
theorem IsResult.ofParts (s : Bool) {m : Nat} (h : m ≤ 0x7F800000) : IsResult (F32.ofParts s m) :=
  .inr ⟨s, m, h, rfl⟩
theorem IsResult.roundSigned (s : Bool) (q : Rat) : IsResult (roundSigned s q) :=
  .ofParts s (rneMagnitude_le _)
theorem IsResult.ite {p : Prop} [Decidable p] {x y : Word} (hx : IsResult x) (hy : IsResult y) :
    IsResult (if p then x else y) := by split <;> assumption

theorem IsResult.eq_qNaN {r : Word} (hr : IsResult r) (h : F32.value r = .nan) : r = F32.qNaN := by
  obtain hr | ⟨s, m, hm, rfl⟩ := hr
  · exact hr
  · exact absurd h (F32.value_ofParts_ne_nan s hm)

theorem isResult_add32 (a b : Word) : IsResult (add32 a b) := by
  unfold add32
  split
  · exact .qNaN
  · exact .qNaN
  · exact .qNaN
  · exact .ite (.ofParts _ le_rfl) .qNaN
  · exact .ofParts _ le_rfl
  · exact .ofParts _ le_rfl
  · exact .ite (.ofParts _ (Nat.zero_le _)) (.roundSigned _ _)

theorem isResult_mul32 (a b : Word) : IsResult (mul32 a b) := by
  unfold mul32
  split
  · exact .qNaN
  · exact .qNaN
  · exact .qNaN
  · exact .ofParts _ le_rfl
  · exact .ite .qNaN (.ofParts _ le_rfl)
  · exact .ite .qNaN (.ofParts _ le_rfl)
  · exact .roundSigned _ _

theorem isResult_div32 (a b : Word) : IsResult (div32 a b) := by
  unfold div32
  split
  · exact .qNaN
  · exact .qNaN
  · exact .qNaN
  · exact .qNaN
  · exact .ofParts _ le_rfl
  · exact .ofParts _ (Nat.zero_le _)
  · exact .ite (.ite .qNaN (.ofParts _ le_rfl)) (.roundSigned _ _)

/-- Settles O40: every result is an `IsResult`, whose one NaN is the canonical one; a NaN operand by the
lemma of each operation. -/
theorem nanResultsAreCanonical : Obligations.NanResultsAreCanonical := by
  refine ⟨fun a b r hr hnan => ?_, fun a b r h => ?_⟩
  · have hres : IsResult r := by
      simp only [List.mem_cons, List.not_mem_nil, or_false] at hr
      obtain rfl | rfl | rfl | rfl := hr
      · exact isResult_add32 a b
      · exact isResult_add32 a (neg32 b)
      · exact isResult_mul32 a b
      · exact isResult_div32 a b
    exact hres.eq_qNaN hnan
  · simp only [List.mem_cons, List.not_mem_nil, or_false]
    obtain ha | hb := h
    · rw [add32_nan_left b ha, sub32_nan_left b ha, mul32_nan_left b ha, div32_nan_left b ha]
      exact ⟨by simp [F32.qNaN], compare_nan_left b ha⟩
    · rw [add32_nan_right a hb, sub32_nan_right a hb, mul32_nan_right a hb, div32_nan_right a hb]
      exact ⟨by simp [F32.qNaN], compare_nan_right a hb⟩

/-! ### Configuration functions and noise draws (R15, R17) -/

/-- A number in [-1, 1]. -/
def IsUnit32 (w : Word) : Prop := isFinite32 w = true ∧ -1 ≤ F32.toRat w ∧ F32.toRat w ≤ 1

/-- Magnitude bits up to those of 1.0 give a number in [-1, 1]. -/
theorem isUnit32_unitWord (u : Config.UnitValue) : IsUnit32 (unitWord u) := by
  have hm : u.magnitude.val ≤ 0x3F800000 := Nat.le_of_lt_succ u.magnitude.isLt
  have hle := F32.finiteMagnitude_mono hm
  rw [show F32.finiteMagnitude (0x3F800000 / 2 ^ 23) (0x3F800000 % 2 ^ 23) = 1 by decide +kernel] at hle
  have h0 := F32.finiteMagnitude_nonneg (u.magnitude.val / 2 ^ 23) (u.magnitude.val % 2 ^ 23)
  refine ⟨?_, ?_⟩
  · rw [isFinite32_iff, unitWord, F32.expField_ofParts _ (by omega)]
    omega
  · rw [F32.toRat, unitWord, F32.value_ofParts _ (by omega), if_neg (by omega)]
    cases u.negative
    · simp only [Bool.false_eq_true, if_false]
      exact ⟨by linarith, hle⟩
    · simp only [if_true]
      exact ⟨by linarith, by linarith⟩

theorem isUnit32_zero : IsUnit32 F32.zero := by unfold IsUnit32; decide +kernel
theorem isUnit32_one : IsUnit32 F32.one := by unfold IsUnit32; decide +kernel
theorem isUnit32_negOne : IsUnit32 F32.negOne := by unfold IsUnit32; decide +kernel

theorem isUnit32_cfgSin (p : Word) : IsUnit32 (cfgSin p) := by
  unfold cfgSin
  split
  · exact isUnit32_zero
  split
  · exact isUnit32_one
  split
  · exact isUnit32_zero
  split
  · exact isUnit32_negOne
  · exact isUnit32_unitWord _

theorem cfgPow_one_left (y : Word) : cfgPow F32.one y = F32.one := if_pos rfl

theorem cfgPow_one_right {x : Word} (hx : isPositive32 x = true) : cfgPow x F32.one = x := by
  unfold cfgPow
  split
  case isTrue h => exact h.symm
  case isFalse => simp [hx]

/-- Settles O37: the pinned points by evaluation, the bounds by `isUnit32_unitWord`. -/
theorem configurationFunctionsAsRequired : Obligations.ConfigurationFunctionsAsRequired :=
  ⟨rfl, rfl, rfl, rfl, isUnit32_cfgSin, cfgPow_one_left, fun _ => cfgPow_one_right,
    fun k => isUnit32_unitWord (Config.noise k)⟩

/-! ### The nearest integer (R13) -/

theorem nearestEven_rneInt (q : Rat) : NearestEven q (rneInt q) := by
  have hlo : 0 ≤ q - q.floor := sub_nonneg.2 (Rat.floor_le q)
  have hup : |q - q.floor| = q - q.floor := abs_of_nonneg hlo
  have hhi : q - q.floor < 1 := by
    have h : q < (q.floor : Rat) + 1 := by exact_mod_cast Rat.lt_floor_add_one q
    linarith
  have hdown : |q - ((q.floor + 1 : Int) : Rat)| = 1 - (q - q.floor) := by
    rw [abs_of_neg] <;> push_cast <;> linarith
  unfold NearestEven rneInt
  simp only
  by_cases h1 : q - q.floor < 1 / 2
  · rw [if_pos h1, hup]
    exact ⟨h1.le, fun h => absurd h h1.ne⟩
  by_cases h2 : 1 / 2 < q - q.floor
  · rw [if_neg h1, if_pos h2, hdown]
    exact ⟨by linarith, fun h => by linarith⟩
  by_cases h3 : q.floor % 2 = 0
  · rw [if_neg h1, if_neg h2, if_pos h3, hup]
    exact ⟨not_lt.1 h2, fun _ => h3⟩
  · rw [if_neg h1, if_neg h2, if_neg h3, hdown]
    exact ⟨by linarith, fun _ => by omega⟩

/-- No integer is nearer than the one of `NearestEven`, and another as near makes it even. -/
theorem abs_sub_le_of_nearestEven {q : Rat} {z : Int} (h : NearestEven q z) (y : Int) :
    |z - q| ≤ |y - q| ∧ (|z - q| = |y - q| → y = z ∨ z % 2 = 0) := by
  obtain ⟨hhalf, heven⟩ := h
  rw [abs_sub_comm q] at hhalf heven
  by_cases hyz : y = z
  · exact ⟨by rw [hyz], fun _ => .inl hyz⟩
  have hone : (1 : Rat) ≤ |(y : Rat) - z| := by
    exact_mod_cast Int.one_le_abs (sub_ne_zero.2 hyz)
  have htri : |(y : Rat) - z| ≤ |y - q| + |z - q| := by
    rw [abs_sub_comm (z : Rat)]; exact abs_sub_le _ _ _
  exact ⟨by linarith, fun he => .inr (heven (by linarith))⟩

/-! ### Magnitude bits and their values -/

/-- The value of magnitude bits, in units of the least subnormal. -/
def F32.units (m : Nat) : Nat :=
  (if m / 2 ^ 23 = 0 then m % 2 ^ 23 else 2 ^ 23 + m % 2 ^ 23) * 2 ^ (max (m / 2 ^ 23) 1 - 1)

theorem F32.finiteMagnitude_eq_units (m : Nat) :
    F32.finiteMagnitude (m / 2 ^ 23) (m % 2 ^ 23) = F32.units m / 2 ^ 149 :=
  eq_div_of_mul_eq (by positivity) (F32.finiteMagnitude_units _ _)

theorem F32.units_mono {m m' : Nat} (h : m ≤ m') : F32.units m ≤ F32.units m' := by
  have hle := F32.finiteMagnitude_mono h
  rw [F32.finiteMagnitude_eq_units, F32.finiteMagnitude_eq_units,
    div_le_div_iff_of_pos_right (by positivity)] at hle
  exact_mod_cast hle

/-- The significand `n` at exponent `k`; the carry `n = 2^24` is the next binade's first value. -/
theorem F32.units_significand {k n : Nat} (hlow : k = 0 ∨ 2 ^ 23 ≤ n) (hn : n ≤ 2 ^ 24) :
    F32.units (k * 2 ^ 23 + n) = n * 2 ^ k := by
  unfold F32.units
  rcases Nat.lt_or_ge n (2 ^ 23) with hsub | hnormal
  · obtain rfl : k = 0 := by omega
    rw [show (0 * 2 ^ 23 + n) / 2 ^ 23 = 0 by omega, if_pos rfl,
      show (0 * 2 ^ 23 + n) % 2 ^ 23 = n by omega]
    simp
  rcases Nat.eq_or_lt_of_le hn with rfl | hlt
  · rw [show (k * 2 ^ 23 + 2 ^ 24) / 2 ^ 23 = k + 2 by omega, if_neg (by omega),
      show (k * 2 ^ 23 + 2 ^ 24) % 2 ^ 23 = 0 by omega, show max (k + 2) 1 - 1 = k + 1 by omega,
      pow_succ 2 k]
    omega
  · rw [show (k * 2 ^ 23 + n) / 2 ^ 23 = k + 1 by omega, if_neg (by omega),
      show (k * 2 ^ 23 + n) % 2 ^ 23 = n - 2 ^ 23 by omega, show max (k + 1) 1 - 1 = k by omega,
      show 2 ^ 23 + (n - 2 ^ 23) = n by omega]

/-- Every value is on the grid of exponent `k` or at most the first value of that binade. -/
theorem F32.units_on_grid_or_le (k m : Nat) :
    2 ^ k ∣ F32.units m ∨ F32.units m ≤ 2 ^ 23 * 2 ^ k := by
  rcases Nat.lt_or_ge k (m / 2 ^ 23) with hhigh | hlow
  · exact .inl (Dvd.dvd.mul_left (pow_dvd_pow 2 (by omega)) _)
  · right
    calc F32.units m ≤ F32.units (k * 2 ^ 23 + 2 ^ 23) := F32.units_mono (by omega)
      _ = 2 ^ 23 * 2 ^ k := F32.units_significand (.inr le_rfl) (by norm_num)

/-- What the rounding does: it rounds the significand `t / 2^k` to an integer, `k` being the exponent of
`t`'s binade (0 for the subnormals and the first). -/
theorem magnitudeOfUnits_significand {t : Rat} (ht : 0 ≤ t) :
    ∃ k n : Nat, magnitudeOfUnits t = k * 2 ^ 23 + n ∧ F32.units (magnitudeOfUnits t) = n * 2 ^ k ∧
      (n : Int) = rneInt (t / 2 ^ k) ∧ (k = 0 ∨ 2 ^ 23 * 2 ^ k ≤ t) := by
  obtain ⟨k, hk⟩ : ∃ k, Nat.log2 t.floor.toNat - 23 = k := ⟨_, rfl⟩
  obtain ⟨n, hn⟩ : ∃ n, (rneInt (t / 2 ^ k)).toNat = n := ⟨_, rfl⟩
  have hm : magnitudeOfUnits t = k * 2 ^ 23 + n := by rw [← hn, ← hk]; rfl
  have hbinade : k = 0 ∨ (2 : Rat) ^ 23 * 2 ^ k ≤ t := by
    refine (Nat.eq_zero_or_pos k).imp_right fun hpos => ?_
    have hle : 2 ^ Nat.log2 t.floor.toNat ≤ t.floor.toNat :=
      Nat.log2_self_le fun h0 => by rw [h0] at hk; simp at hk; omega
    rw [show Nat.log2 t.floor.toNat = 23 + k by omega, pow_add] at hle
    exact le_trans (by exact_mod_cast hle) (floor_toNat_le ht)
  have hupper : t / 2 ^ k ≤ ((2 ^ 24 : Nat) : Rat) := by
    have hlt : t.floor.toNat < 2 ^ (24 + k) :=
      lt_of_lt_of_le Nat.lt_log2_self (Nat.pow_le_pow_right (by norm_num) (by omega))
    have hle : (t.floor.toNat : Rat) + 1 ≤ 2 ^ (24 + k) := by exact_mod_cast hlt
    rw [div_le_iff₀ (by positivity), Nat.cast_pow, Nat.cast_ofNat, ← pow_add]
    exact (lt_floor_toNat ht).le.trans hle
  have hlower : k = 0 ∨ ((2 ^ 23 : Nat) : Int) ≤ rneInt (t / 2 ^ k) :=
    hbinade.imp_right fun h => le_rneInt_natCast (by
      rw [le_div_iff₀ (by positivity)]; exact_mod_cast h)
  have hcast : (n : Int) = rneInt (t / 2 ^ k) := by
    have h0 : ((0 : Nat) : Int) ≤ rneInt (t / 2 ^ k) := le_rneInt_natCast (by positivity)
    omega
  have htop := rneInt_natCast_le hupper
  refine ⟨k, n, hm, ?_, hcast, hbinade⟩
  rw [hm, F32.units_significand (by omega) (by omega)]

/-- The value nearest to `t` on the grid of `t`'s own binade is as near as any value at all. -/
theorem exists_grid_point {t : Rat} {k : Nat} (hk : k = 0 ∨ 2 ^ 23 * 2 ^ k ≤ t) (m : Nat) :
    ∃ y : Int, |y * 2 ^ k - t| ≤ |F32.units m - t| ∧
      (|y * 2 ^ k - t| = |F32.units m - t| → (F32.units m : Rat) = y * 2 ^ k) := by
  by_cases hdvd : 2 ^ k ∣ F32.units m
  · obtain ⟨y, hy⟩ := hdvd
    have hcast : (F32.units m : Rat) = ((y : Int) : Rat) * 2 ^ k := by
      rw [hy]; push_cast; ring
    exact ⟨y, by rw [hcast], fun _ => hcast⟩
  · have ht : (2 : Rat) ^ 23 * 2 ^ k ≤ t := hk.resolve_left fun h0 => hdvd (by simp [h0])
    have hle : (F32.units m : Rat) ≤ 2 ^ 23 * 2 ^ k := by
      exact_mod_cast (F32.units_on_grid_or_le k m).resolve_left hdvd
    refine ⟨2 ^ 23, ?_⟩
    rw [Int.cast_pow, Int.cast_ofNat, abs_of_nonpos (sub_nonpos.2 ht),
      abs_of_nonpos (sub_nonpos.2 (hle.trans ht))]
    exact ⟨by linarith, fun h => by linarith⟩

/-- Rounding the significand at exponent `k` is rounding to the nearest on that grid. -/
theorem rneInt_grid_nearest (t : Rat) (k : Nat) (y : Int) :
    |rneInt (t / 2 ^ k) * 2 ^ k - t| ≤ |y * 2 ^ k - t| ∧
      (|rneInt (t / 2 ^ k) * 2 ^ k - t| = |y * 2 ^ k - t| →
        y = rneInt (t / 2 ^ k) ∨ rneInt (t / 2 ^ k) % 2 = 0) := by
  have hpos : (0 : Rat) < 2 ^ k := by positivity
  have hscale (z : Rat) : |z * 2 ^ k - t| = |z - t / 2 ^ k| * 2 ^ k := by
    rw [← abs_of_pos hpos, ← abs_mul, abs_of_pos hpos, sub_mul, div_mul_cancel₀ _ hpos.ne']
  rw [hscale, hscale, mul_le_mul_iff_left₀ hpos, mul_left_inj' hpos.ne']
  exact abs_sub_le_of_nearestEven (nearestEven_rneInt _) y

/-- No magnitude bits are nearer to `t` than its rounding, and others as near make it even. -/
theorem magnitudeOfUnits_nearest {t : Rat} (ht : 0 ≤ t) (m : Nat) :
    |F32.units (magnitudeOfUnits t) - t| ≤ |F32.units m - t| ∧
      (|F32.units (magnitudeOfUnits t) - t| = |F32.units m - t| →
        (F32.units m : Rat) = F32.units (magnitudeOfUnits t) ∨ magnitudeOfUnits t % 2 = 0) := by
  obtain ⟨k, n, hm, hunits, hn, hbinade⟩ := magnitudeOfUnits_significand ht
  obtain ⟨y, hgrid, hgrid_eq⟩ := exists_grid_point hbinade m
  obtain ⟨hnear, heven⟩ := rneInt_grid_nearest t k y
  have hval : (F32.units (magnitudeOfUnits t) : Rat) = rneInt (t / 2 ^ k) * 2 ^ k := by
    rw [hunits, ← hn]; push_cast; rfl
  rw [hval]
  refine ⟨hnear.trans hgrid, fun heq => ?_⟩
  have hy : |(y : Rat) * 2 ^ k - t| = |F32.units m - t| := le_antisymm hgrid (heq ▸ hnear)
  rcases heven (heq.trans hy.symm) with hyn | h2
  · exact .inl (by rw [hgrid_eq hy, hyn])
  · exact .inr (by omega)

/-! ### Overflow -/

/-- The rounding stays finite exactly below the midpoint above the greatest finite value. -/
theorem magnitudeOfUnits_lt_inf {t : Rat} (ht : 0 ≤ t) :
    magnitudeOfUnits t < 0x7F800000 ↔ t < (2 ^ 25 - 1) * 2 ^ 252 := by
  constructor <;> intro h <;> by_contra hge <;> rw [not_lt] at hge
  · have hmid : magnitudeOfUnits ((2 ^ 25 - 1) * 2 ^ 252) = 0x7F800000 := by decide +kernel
    have hle := magnitudeOfUnits_mono (by positivity) hge
    omega
  · obtain ⟨hnear, -⟩ := magnitudeOfUnits_nearest ht 0x7F7FFFFF
    have hmax : (F32.units 0x7F7FFFFF : Rat) = (2 ^ 25 - 2) * 2 ^ 252 := by decide +kernel
    have hinf : (F32.units 0x7F800000 : Rat) = 2 ^ 25 * 2 ^ 252 := by decide +kernel
    have hle : (F32.units 0x7F800000 : Rat) ≤ F32.units (magnitudeOfUnits t) :=
      Nat.cast_le.2 (F32.units_mono hge)
    rw [hmax] at hnear
    rw [hinf] at hle
    have hx : (0 : Rat) < 2 ^ 252 := by positivity
    generalize (2 : Rat) ^ 252 = x at *
    rcases abs_cases (F32.units (magnitudeOfUnits t) - t) with ⟨h1, _⟩ | ⟨h1, _⟩ <;>
      rcases abs_cases ((2 ^ 25 - 2) * x - t) with ⟨h2, _⟩ | ⟨h2, _⟩ <;> linarith

/-! ### Rounded words -/

theorem absRat_eq_abs (q : Rat) : absRat q = |q| := by
  unfold absRat
  split
  case isTrue h => exact (abs_of_neg h).symm
  case isFalse h => exact (abs_of_nonneg (not_lt.1 h)).symm

/-- The bits of an encoding below its sign. -/
def F32.magnitudeBits (w : Word) : Nat := w.toNat % 2 ^ 31

theorem F32.abs_toRat {w : Word} (hw : isFinite32 w = true) :
    |F32.toRat w| = F32.units (F32.magnitudeBits w) / 2 ^ 149 := by
  rw [← absRat_eq_abs, F32.absRat_toRat hw, ← F32.finiteMagnitude_eq_units, F32.expField_eq,
    F32.fracField_eq, F32.magnitudeBits]
  congr 1 <;> omega

theorem F32.getLsbD_zero_eq_false {w : Word} (h : F32.magnitudeBits w % 2 = 0) :
    w.getLsbD 0 = false := by
  unfold F32.magnitudeBits at h
  rw [BitVec.getLsbD, Nat.testBit_zero]
  exact decide_eq_false (by omega)

theorem rne32_eq_ofParts (q : Rat) : rne32 q = F32.ofParts (decide (q < 0)) (rneMagnitude |q|) := by
  rw [rne32, roundSigned, absRat_eq_abs]

theorem magnitudeBits_rne32 (q : Rat) : F32.magnitudeBits (rne32 q) = rneMagnitude |q| := by
  have hle := rneMagnitude_le |q|
  rw [rne32_eq_ofParts, F32.magnitudeBits, F32.toNat_ofParts _ hle]
  split <;> omega

theorem isFinite32_rne32 (q : Rat) : isFinite32 (rne32 q) = true ↔ rneMagnitude |q| < 0x7F800000 := by
  have hle := rneMagnitude_le |q|
  rw [isFinite32_iff, rne32_eq_ofParts, F32.expField_ofParts _ hle]
  omega

theorem isFinite32_rne32_iff_abs_lt (q : Rat) :
    isFinite32 (rne32 q) = true ↔ |q| < 2 ^ 128 - 2 ^ 103 := by
  rw [isFinite32_rne32, rneMagnitude_eq, min_lt_iff, or_iff_left (lt_irrefl _),
    magnitudeOfUnits_lt_inf (by positivity),
    show ((2 : Rat) ^ 25 - 1) * 2 ^ 252 = (2 ^ 128 - 2 ^ 103) * 2 ^ 149 by norm_num,
    mul_lt_mul_iff_left₀ (by positivity)]

theorem rne32_overflow {q : Rat} (h : isFinite32 (rne32 q) = false) :
    rne32 q = infOf (decide (q < 0)) := by
  have hle := rneMagnitude_le |q|
  have hge : ¬ rneMagnitude |q| < 0x7F800000 := by
    rw [← isFinite32_rne32, h]; exact Bool.false_ne_true
  rw [rne32_eq_ofParts, show rneMagnitude |q| = 0x7F800000 by omega, ofParts_inf]

/-- A rounded value is not on the other side of zero. -/
theorem rne32_mul_nonneg {q : Rat} (h : isFinite32 (rne32 q) = true) : 0 ≤ F32.toRat (rne32 q) * q := by
  have hlt := (isFinite32_rne32 q).1 h
  have hmag := F32.finiteMagnitude_nonneg (rneMagnitude |q| / 2 ^ 23) (rneMagnitude |q| % 2 ^ 23)
  rw [F32.toRat, rne32_eq_ofParts, F32.value_ofParts _ hlt.le, if_neg hlt.ne]
  by_cases hq : q < 0
  · rw [decide_eq_true hq, if_pos rfl]
    exact mul_nonneg_of_nonpos_of_nonpos (neg_nonpos.2 hmag) hq.le
  · rw [decide_eq_false hq, if_neg Bool.false_ne_true]
    exact mul_nonneg hmag (not_lt.1 hq)

/-- The rounding is to the nearest among the magnitudes. -/
theorem abs_rne32_nearest {q : Rat} (h : isFinite32 (rne32 q) = true) {w : Word}
    (hw : isFinite32 w = true) :
    |(|F32.toRat (rne32 q)| - |q|)| ≤ |(|F32.toRat w| - |q|)| ∧
      (|(|F32.toRat (rne32 q)| - |q|)| = |(|F32.toRat w| - |q|)| →
        |F32.toRat w| = |F32.toRat (rne32 q)| ∨ (rne32 q).getLsbD 0 = false) := by
  have hpos : (0 : Rat) < 2 ^ 149 := by positivity
  have hscale (u : Rat) : |(u / 2 ^ 149 - |q|)| = |(u - |q| * 2 ^ 149)| / 2 ^ 149 := by
    rw [← abs_of_pos hpos, ← abs_div, abs_of_pos hpos, sub_div, mul_div_cancel_right₀ _ hpos.ne']
  have hbits : F32.magnitudeBits (rne32 q) = magnitudeOfUnits (|q| * 2 ^ 149) := by
    have hlt := (isFinite32_rne32 q).1 h
    rw [rneMagnitude_eq] at hlt
    rw [magnitudeBits_rne32, rneMagnitude_eq]
    omega
  obtain ⟨hnear, heven⟩ :=
    magnitudeOfUnits_nearest (t := |q| * 2 ^ 149) (by positivity) (F32.magnitudeBits w)
  rw [← hbits] at hnear heven
  rw [F32.abs_toRat h, F32.abs_toRat hw, hscale, hscale, div_le_div_iff_of_pos_right hpos,
    div_left_inj' hpos.ne', div_left_inj' hpos.ne']
  exact ⟨hnear, fun heq => (heven heq).imp_right F32.getLsbD_zero_eq_false⟩

theorem abs_sub_of_mul_nonneg {r q : Rat} (h : 0 ≤ r * q) : |r - q| = |(|r| - |q|)| := by
  rcases mul_nonneg_iff.1 h with ⟨hr, hq⟩ | ⟨hr, hq⟩
  · rw [abs_of_nonneg hr, abs_of_nonneg hq]
  · rw [abs_of_nonpos hr, abs_of_nonpos hq, neg_sub_neg, abs_sub_comm]

theorem eq_zero_of_abs_sub_eq_neg {r q : Rat} (h : |r - q| = |-r - q|) : r = 0 ∨ q = 0 := by
  rcases abs_eq_abs.1 h with h | h
  · exact .inl (by linarith)
  · exact .inr (by linarith)

theorem rne32_nearest {q : Rat} (h : isFinite32 (rne32 q) = true) {w : Word}
    (hw : isFinite32 w = true) :
    |F32.toRat (rne32 q) - q| ≤ |F32.toRat w - q| ∧
      (F32.toRat w ≠ F32.toRat (rne32 q) → |F32.toRat (rne32 q) - q| = |F32.toRat w - q| →
        (rne32 q).getLsbD 0 = false) := by
  obtain ⟨hnear, heven⟩ := abs_rne32_nearest h hw
  have hside := abs_sub_of_mul_nonneg (rne32_mul_nonneg h)
  have hrev : |(|F32.toRat w| - |q|)| ≤ |F32.toRat w - q| := abs_abs_sub_abs_le _ _
  rw [← hside] at hnear heven
  refine ⟨hnear.trans hrev, fun hne heq => ?_⟩
  rcases heven (le_antisymm hnear (heq ▸ hrev)) with habs | hlsb
  · have hopp : F32.toRat w = -F32.toRat (rne32 q) := (abs_eq_abs.1 habs).resolve_left hne
    rw [hopp] at heq hne
    rcases eq_zero_of_abs_sub_eq_neg heq with hr0 | rfl
    · exact absurd (by rw [hr0, neg_zero]) hne
    · decide +kernel
  · exact hlsb

/-- Settles O38: the finite range by `isFinite32_rne32_iff_abs_lt`, the rest by `rne32_nearest`. -/
theorem roundingIsNearestTiesToEven : Obligations.RoundingIsNearestTiesToEven := fun q =>
  ⟨isFinite32_rne32_iff_abs_lt q,
    fun h => by rw [rne32_overflow h, infOf]; simp only [decide_eq_true_eq],
    fun h _ hw => rne32_nearest h hw⟩

end Sys2Proof.Machine

/-! The invariant (Safety.lean): it holds after reset, and every step keeps it. -/

namespace Sys2Proof.Machine

/-! ### What the host changes -/

/-- Settings, flags, latch and port may change while the reset pin is high, as long as the flags fit each
other; the rest of the invariant speaks of fields that stay. -/
theorem State.Inv.of_flags {s t : State} (h : s.Inv) (hrst : t.rstN = true)
    (hframe : t = { s with
      rstN := t.rstN, irqEn := t.irqEn, settings := t.settings, pending := t.pending, done := t.done,
      err := t.err, busErr := t.busErr, errCode := t.errCode, busResp := t.busResp, host := t.host,
      turns := t.turns })
    (hdone : t.busy = true → t.done = false) (herr : t.err = false ↔ t.errCode = .none) : t.Inv := by
  rw [hframe] at hrst hdone herr ⊢
  exact { h with
    pendingNotDone := hdone
    errCode := herr
    inReset := fun hlow => absurd (hlow.symm.trans hrst) Bool.false_ne_true }

theorem State.Inv.takeTurn {s : State} (h : s.Inv) : s.takeTurn.Inv := { h with }

theorem State.Inv.withHost {s : State} (h : s.Inv) (ops : List HostOp) : (s.withHost ops).Inv :=
  { h with }

theorem State.Inv.withBusResp {s : State} (h : s.Inv) (r : Option BusResponse) :
    ({ s with busResp := r } : State).Inv := { h with }

theorem State.Inv.busFault {s : State} (h : s.Inv) (hrst : s.rstN = true) (r : BusResponse) :
    (s.busFault r).Inv :=
  h.of_flags hrst rfl h.pendingNotDone h.errCode

theorem State.Inv.busRead {s : State} (h : s.Inv) (hrst : s.rstN = true) (a : BusAddr)
    (z : AccessSize) : (s.busRead a z).Inv := by
  rw [State.busRead_eq]
  exact h.of_flags hrst rfl h.pendingNotDone h.errCode

theorem State.Inv.issue {s : State} (h : s.Inv) (hrst : s.rstN = true) (w : Word) :
    (s.issue w).Inv :=
  h.of_flags hrst rfl (fun _ => rfl) (iff_of_true rfl rfl)

theorem State.Inv.rejectIssue {s : State} (h : s.Inv) (hrst : s.rstN = true) : s.rejectIssue.Inv :=
  h.of_flags hrst rfl h.pendingNotDone (by simp)

theorem State.Inv.writeCmd {s : State} (h : s.Inv) (hrst : s.rstN = true) (w : Word) :
    (s.writeCmd w).Inv := by
  unfold State.writeCmd
  split
  · exact h.rejectIssue hrst
  · exact h.issue hrst w

/-- Bits 1 to 3 clear DONE, ERR together with ERRCODE, and BUSERR (R28). -/
theorem State.Inv.writeStatus {s : State} (h : s.Inv) (hrst : s.rstN = true) (v : Word) :
    (s.writeStatus v).Inv := by
  refine h.of_flags hrst rfl (fun hbusy => ?_) ?_
  · simp [h.pendingNotDone hbusy]
  · rw [State.writeStatus_err, State.writeStatus_errCode]
    cases v.getLsbD 2 <;> simp [h.errCode]

/-- What a register write can do: a CMD write, a STATUS write, or a store to CTRL or the settings. -/
theorem State.writeReg_cases (s : State) (v : Word) (r : Reg) :
    s.writeReg v r = s.writeCmd v ∨ s.writeReg v r = s.writeStatus v ∨
      ∃ S e, s.writeReg v r = { s with settings := S, irqEn := e } := by
  cases r with
  | cmd => exact .inl rfl
  | status => exact .inr (.inl rfl)
  | _ => exact .inr (.inr ⟨_, _, rfl⟩)

theorem State.Inv.writeReg {s : State} (h : s.Inv) (hrst : s.rstN = true) (v : Word) (r : Reg) :
    (s.writeReg v r).Inv := by
  obtain hr | hr | ⟨S, e, hr⟩ := s.writeReg_cases v r <;> rw [hr]
  · exact h.writeCmd hrst v
  · exact h.writeStatus hrst v
  · exact h.of_flags hrst rfl h.pendingNotDone h.errCode

/-- Buffer words may be written while the reset pin is high. -/
theorem State.Inv.withMem {s : State} {ok : Buf → Nat → Prop} {m : Memory} (h : s.Inv)
    (hrst : s.rstN = true) (hm : Memory.WritesOnly ok s.mem m) (hok : ∀ b k, ok b k → k < 4096) :
    ({ s with mem := m } : State).Inv :=
  { h with
    memWf := hm.wf h.memWf
    memInBuffers := hm.inBuffers hok h.memInBuffers
    prepared := fun hp => by
      obtain ⟨hsr, hblk, hfill⟩ := h.prepared hp
      exact ⟨hsr, hblk, hm.fill.trans hfill⟩
    inReset := fun hlow => absurd (hlow.symm.trans hrst) Bool.false_ne_true }

theorem State.Inv.setBuf {s : State} (h : s.Inv) (hrst : s.rstN = true) {b : Buf} {k : Nat}
    (hk : k < 4096) (w : Word) : (s.setBuf b k w).Inv :=
  h.withMem hrst (ok := fun b' k' => b' = b ∧ k' = k) (.writeWord s.mem w ⟨rfl, rfl⟩)
    fun _ _ ⟨_, hk'⟩ => hk' ▸ hk

theorem State.Inv.busWrite {s : State} (h : s.Inv) (hrst : s.rstN = true) (a : BusAddr)
    (z : AccessSize) (v : Word) : (s.busWrite a z v).Inv := by
  obtain hw | hw | ⟨r, hw⟩ | ⟨-, b, k, -, hk, hw⟩ := s.busWrite_cases a z v <;> rw [hw]
  · exact h.busFault hrst _
  · exact h.withBusResp _
  · exact (h.writeReg hrst v r).withBusResp _
  · exact (h.setBuf hrst hk v).withBusResp _

theorem State.Inv.waitStep {s : State} (h : s.Inv) (hrst : s.rstN = true) (rest : List HostOp) :
    (waitStep s rest).Inv := by
  unfold Machine.waitStep
  dsimp only
  split
  · exact h.busRead hrst _ _
  · exact (h.busRead hrst _ _).withHost rest

/-! ### Reset and the reset pin -/

/-- Settles O59: after reset every field is at the value its clause names. -/
theorem invariantHoldsAtReset : Obligations.InvariantHoldsAtReset where
  memWf := rfl
  memInBuffers := by simp [State.reset]
  hdoneLe := Nat.zero_le _
  oscOff _ := rfl
  pendingNotDone _ := rfl
  errCode := iff_of_true rfl rfl
  prepared hp := absurd hp Bool.false_ne_true
  unprepared _ := ⟨rfl, rfl, rfl, rfl, rfl⟩
  inReset hlow := absurd hlow.symm Bool.false_ne_true

/-- A power-on reset leaves the invariant at either level of the pin. -/
theorem State.powerOn_inv (s : State) (level : Bool) : (s.powerOn level).Inv :=
  { invariantHoldsAtReset with
    memWf := rfl
    memInBuffers := by simp
    prepared := fun hp => absurd hp Bool.false_ne_true
    inReset := fun _ => ⟨rfl, rfl, rfl, rfl, rfl, rfl, rfl, rfl⟩ }

theorem State.Inv.driveReset {s : State} (h : s.Inv) (level : Bool) : (s.driveReset level).Inv := by
  obtain ⟨-, -, hd⟩ | ⟨-, hd⟩ := s.driveReset_cases level <;> rw [hd]
  · exact h
  · exact s.powerOn_inv level

/-! ### What a performance changes -/

/-- A pending command shows that the reset pin is high. -/
theorem State.Inv.rstN_of_pending {s : State} {c : Pending} (h : s.Inv) (hc : s.pending = some c) :
    s.rstN = true := by
  by_contra hlow
  obtain ⟨hnone, -⟩ := h.inReset (Bool.eq_false_of_not_eq_true hlow)
  exact Option.some_ne_none c (hc.symm.trans hnone)

theorem State.Inv.refuse {s : State} (h : s.Inv) (hrst : s.rstN = true) {c : ErrCode}
    (hc : c ≠ .none) : (s.refuse c).Inv :=
  h.of_flags hrst rfl (fun hbusy => absurd hbusy Bool.false_ne_true) (by simpa using hc)

theorem State.Inv.finish {s : State} (h : s.Inv) (hrst : s.rstN = true) : s.finish.Inv :=
  h.of_flags hrst rfl (fun hbusy => absurd hbusy Bool.false_ne_true) h.errCode

/-- A prepared machine's oscillator, channels and HDONE may change within their own clauses. -/
theorem State.Inv.withBank {s : State} (h : s.Inv) (hp : s.prepared = true) {o : Osc}
    {c : Vector Channel 200} {d : BitVec 8} {k : Nat} (ho : o.en = false → o = Osc.off)
    (hd : d.toNat ≤ 200) : ({ s with osc := o, ch := c, hdone := d, drawn := k } : State).Inv :=
  { h with
    oscOff := ho
    hdoneLe := hd
    unprepared := fun hnp => absurd (hnp.symm.trans hp) Bool.false_ne_true }

/-- A setting that leaves the oscillator disabled leaves it at rest (R81). -/
theorem Osc.setFrequency_off {o : Osc} {f sr : Word} (h : (o.setFrequency f sr).en = false) :
    o.setFrequency f sr = Osc.off := by
  unfold Osc.setFrequency at h ⊢
  split
  · next hpos => simp [hpos] at h
  · rfl

/-- A disabled oscillator at rest stays at rest over any number of samples (R82). -/
theorem Osc.after_off {o : Osc} (k : Nat) (ho : o.en = false → o = Osc.off)
    (h : (o.after k).en = false) : o.after k = Osc.off := by
  rw [Osc.after_en] at h
  rw [ho h]
  rfl

theorem State.Inv.prepare {s : State} (h : s.Inv) (hrst : s.rstN = true)
    (hcfg : s.snap.configOk = true) : s.prepare.Inv := by
  simp only [Settings.configOk, Bool.and_eq_true, decide_eq_true_eq] at hcfg
  obtain ⟨⟨hsr, hlo⟩, hhi⟩ := hcfg
  have hblk : 1 ≤ (Fin.ofNat 4097 s.snap.maxblkCfg.toNat).val := by
    rw [Fin.val_ofNat, Nat.mod_eq_of_lt (Nat.lt_succ_of_le hhi)]
    exact hlo
  exact { h with
    memWf := rfl
    memInBuffers := by simp [Memory.zeroed]
    hdoneLe := Nat.zero_le _
    oscOff := fun _ => rfl
    prepared := fun _ => ⟨hsr, hblk, rfl⟩
    unprepared := fun hnp => absurd hnp.symm Bool.false_ne_true
    inReset := fun hlow => absurd (hlow.symm.trans hrst) Bool.false_ne_true }

theorem State.Inv.zeroChannels {s : State} (h : s.Inv) : ({ s with ch := chZero } : State).Inv :=
  { h with
    unprepared := fun hnp => by
      obtain ⟨hsr, hblk, hd, ho, -⟩ := h.unprepared hnp
      exact ⟨hsr, hblk, hd, ho, rfl⟩ }

theorem State.Inv.zeroPhase {s : State} (h : s.Inv) :
    ({ s with osc := { s.osc with p := 0 } } : State).Inv :=
  { h with
    oscOff := fun hen => by rw [h.oscOff hen]; rfl
    unprepared := fun hnp => by
      obtain ⟨hsr, hblk, hd, ho, hch⟩ := h.unprepared hnp
      exact ⟨hsr, hblk, hd, by rw [ho]; rfl, hch⟩ }

theorem State.Inv.setFrequency {s : State} (h : s.Inv) (hp : s.prepared = true) (f sr : Word) :
    ({ s with osc := s.osc.setFrequency f sr } : State).Inv :=
  h.withBank hp Osc.setFrequency_off h.hdoneLe

theorem State.Inv.oscAdvance {s : State} (h : s.Inv) (hrst : s.rstN = true) (hp : s.prepared = true)
    {n : Nat} (hn : n ≤ 4096) : (oscAdvance n s).Inv := by
  rw [oscAdvance_frame, oscAdvance_osc]
  have hmem := h.withMem hrst (oscAdvance_writes n s) fun _ _ ⟨_, hk⟩ => hk.trans_le hn
  exact hmem.withBank hp (Osc.after_off n h.oscOff) h.hdoneLe

/-- HDONE counts at most the harmonics of HCOUNT, which is at most 200 (R36, R123). -/
theorem harmonicLoop_hdone_le (S : Settings) (n : Nat) (s : State) :
    (BitVec.ofNat 8 (harmonicLoop S n S.n 0 s).2).toNat ≤ 200 := by
  obtain ⟨-, hcount, -⟩ := harmonicLoop_count S n S.n 0 s
  have hhcount : S.n < 201 := S.hcount.isLt
  rw [BitVec.toNat_ofNat]
  exact (Nat.mod_le _ _).trans (by omega)

theorem State.Inv.processBlock {s : State} (h : s.Inv) (hrst : s.rstN = true)
    (hp : s.prepared = true) (S : Settings) {n : Nat} (hn : n ≤ 4096) : (processBlock S n s).Inv := by
  rw [processBlock_frame, preBlock_osc]
  have hmem := h.withMem hrst (processBlock_writes S n s) fun _ _ ⟨hk, _⟩ => hk.trans_le hn
  exact hmem.withBank hp (Osc.after_off n Osc.setFrequency_off) (harmonicLoop_hdone_le S n _)

/-! ### Performances and steps -/

/-- A performance in a state of the invariant reaches one with the pin still high, or raises an error
that has a code. -/
def CmdResult.Safe : CmdResult → Prop
  | .performed t => t.Inv ∧ t.rstN = true
  | .raised c => c ≠ .none

theorem CmdResult.Safe.complete {s : State} {r : CmdResult} (h : s.Inv) (hrst : s.rstN = true)
    (hr : r.Safe) : (complete s r).Inv := by
  cases r with
  | performed t => exact hr.1.finish hr.2
  | raised c => exact h.refuse hrst hr

theorem CmdResult.safe_raised_ite {p : Prop} [Decidable p] {c : ErrCode} {r : CmdResult}
    (hc : c ≠ .none) (hr : ¬p → r.Safe) : (if p then .raised c else r : CmdResult).Safe := by
  split
  · exact hc
  · next hp => exact hr hp

/-- Every command keeps the invariant: each of its checks raises a code, and its effect is one of those
above. -/
theorem perform_safe {s : State} (h : s.Inv) (hrst : s.rstN = true) (i : Instr) :
    (perform i s).Safe := by
  cases i with
  | nop => exact ⟨h, hrst⟩
  | prepare =>
    show (performPrepare s).Safe
    rw [performPrepare_eq]
    exact CmdResult.safe_raised_ite (by decide) fun hcfg =>
      ⟨h.prepare hrst (Bool.eq_true_of_not_eq_false hcfg), hrst⟩
  | reset => exact ⟨h.zeroChannels, hrst⟩
  | process n =>
    show (performProcess n s).Safe
    rw [performProcess_eq]
    refine CmdResult.safe_raised_ite (by decide) fun hp => CmdResult.safe_raised_ite (by decide) fun hn =>
      CmdResult.safe_raised_ite (by decide) fun _ => ⟨?_, by rw [processBlock_frame]; exact hrst⟩
    exact h.processBlock hrst (Bool.eq_true_of_not_eq_false hp) s.snap
      (State.le_of_lengthOk (Bool.eq_true_of_not_eq_false hn))
  | oscSetfreq =>
    show (performOscSetfreq s).Safe
    rw [performOscSetfreq_eq]
    exact CmdResult.safe_raised_ite (by decide) fun hp =>
      ⟨h.setFrequency (Bool.eq_true_of_not_eq_false hp) _ _, hrst⟩
  | oscAdvance n =>
    show (performOscAdvance n s).Safe
    rw [performOscAdvance_eq]
    refine CmdResult.safe_raised_ite (by decide) fun hp => CmdResult.safe_raised_ite (by decide) fun hn =>
      ⟨?_, by rw [oscAdvance_frame]; exact hrst⟩
    exact h.oscAdvance hrst (Bool.eq_true_of_not_eq_false hp)
      (State.le_of_lengthOk (Bool.eq_true_of_not_eq_false hn))
  | oscReset => exact ⟨h.zeroPhase, hrst⟩

/-- Settles O60: by what a step can be (`step_cases`), each case by the lemma of its operation. -/
theorem invariantIsKeptByEveryStep : Obligations.InvariantIsKeptByEveryStep := by
  intro s t hs hstep
  have h := hs.takeTurn
  rcases step_cases hstep with ⟨c, i, hc, -, rfl⟩ | ⟨c, e, hc, -, rfl⟩ | rfl | ⟨a, z, rest, hrst, -, rfl⟩ |
    ⟨a, z, v, rest, hrst, -, rfl⟩ | ⟨rest, hrst, -, rfl⟩ | ⟨level, rest, -, rfl⟩
  · exact (perform_safe h (h.rstN_of_pending hc) i).complete h (h.rstN_of_pending hc)
  · exact h.refuse (h.rstN_of_pending hc) (by decide)
  · exact h
  · exact (h.withHost rest).busRead hrst a z
  · exact (h.withHost rest).busWrite hrst a z v
  · exact h.waitStep hrst rest
  · exact (h.withHost rest).driveReset level

end Sys2Proof.Machine

/-! The register window and the address map (10_state.md tables T1 and T2, 20_memory.md table T3): what
an access to a register, a buffer word or a reserved address does. -/

namespace Sys2Proof.Machine

open Sys2Proof.Claims

/-! ### The address map -/

/-- The offset of a register in table T1 selects it. -/
@[simp] theorem Reg.atOffset_offset (r : Reg) : Reg.atOffset r.offset = some r := by cases r <;> rfl

theorem Reg.offset_aligned (r : Reg) : r.offset % 4 = 0 := by cases r <;> rfl

/-- No register lies in the two gaps of table T1. -/
theorem Reg.offset_ranges (r : Reg) :
    r.offset < 0x030 ∨ 0x040 ≤ r.offset ∧ r.offset < 0x068 := by
  cases r <;> decide

/-- A reserved offset selects no register (R24). -/
theorem Reg.atOffset_reserved {off : Nat} (h : 0x030 ≤ off ∧ off < 0x040 ∨ 0x068 ≤ off) :
    Reg.atOffset off = none := by
  refine List.find?_eq_none.2 fun r _ => ?_
  have hr := r.offset_ranges
  rw [beq_iff_eq]
  omega

theorem targetOf_register {a : BusAddr} (h : a.toNat < 0x1000) : targetOf a = .register a.toNat :=
  if_pos h

theorem targetOf_reserved {a : BusAddr}
    (h : 0x1000 ≤ a.toNat ∧ a.toNat < 0x10000 ∨ 0x24000 ≤ a.toNat) : targetOf a = .reserved := by
  unfold targetOf
  dsimp only
  rw [if_neg (by omega)]
  rcases h with ⟨-, h⟩ | h
  · rw [if_pos h]
  · iterate 6 rw [if_neg (by omega)]

/-- Each buffer takes 4096 words from its base on (table T3). -/
theorem targetOf_buffer {a : BusAddr} {b : Buf} (h : b.base ≤ a.toNat ∧ a.toNat < b.base + 0x4000) :
    targetOf a = .bufWord b ((a.toNat - b.base) / 4) := by
  unfold targetOf
  cases b <;> simp only [Buf.base] at h ⊢
  all_goals
    repeat rw [if_neg (by omega)]
    rw [if_pos (by omega)]

theorem toNat_wordAddr (b : Buf) {k : Nat} (hk : k < 4096) :
    (BitVec.ofNat 18 (wordAddr b k)).toNat = wordAddr b k := by
  have := wordAddr_bounds b hk
  rw [BitVec.toNat_ofNat, Nat.mod_eq_of_lt (by omega)]

theorem targetOf_wordAddr (b : Buf) {k : Nat} (hk : k < 4096) :
    targetOf (BitVec.ofNat 18 (wordAddr b k)) = .bufWord b k := by
  have ha := toNat_wordAddr b hk
  rw [targetOf_buffer (b := b) (by rw [ha]; unfold wordAddr; omega), ha]
  congr 1
  unfold wordAddr
  omega

theorem wordAddr_aligned (b : Buf) (k : Nat) : wordAddr b k % 4 = 0 := by
  cases b <;> simp only [wordAddr, Buf.base] <;> omega

theorem Reg.toNat_offset (r : Reg) : (BitVec.ofNat 18 r.offset).toNat = r.offset := by cases r <;> rfl

theorem Reg.targetOf_offset (r : Reg) :
    targetOf (BitVec.ofNat 18 r.offset) = .register r.offset := by
  rw [targetOf_register, r.toNat_offset]
  have := r.offset_ranges
  rw [r.toNat_offset]
  omega

/-! ### Accepted accesses (R54, R55, R58) -/

/-- While idle every aligned word access is accepted. -/
theorem State.isBusError_of_idle {s : State} {a : BusAddr} (ha : a.toNat % 4 = 0)
    (hbusy : s.busy = false) : s.isBusError a .word = false := by
  simp [State.isBusError, ha, hbusy]

/-- Outside the buffers every aligned word access is accepted. -/
theorem State.isBusError_of_not_buffer (s : State) {a : BusAddr} (ha : a.toNat % 4 = 0)
    (hbuf : ∀ b k, targetOf a ≠ .bufWord b k) : s.isBusError a .word = false := by
  cases ht : targetOf a with
  | bufWord b k => exact absurd ht (hbuf b k)
  | _ => simp [State.isBusError, ha, ht]

theorem State.busRead_of_accepted {s : State} {a : BusAddr} {z : AccessSize}
    (h : s.isBusError a z = false) :
    s.busRead a z = { s with busResp := some (.read (s.readTarget (targetOf a)) false) } :=
  if_neg (by simp [h])

theorem State.busWrite_of_accepted {s : State} {a : BusAddr} {z : AccessSize} (v : Word)
    (h : s.isBusError a z = false) :
    s.busWrite a z v = { s.writeTarget v (targetOf a) with busResp := some (.write false) } :=
  if_neg (by simp [h])

theorem State.isBusError_offset (s : State) (r : Reg) :
    s.isBusError (BitVec.ofNat 18 r.offset) .word = false :=
  s.isBusError_of_not_buffer (by rw [r.toNat_offset, r.offset_aligned])
    (by simp [r.targetOf_offset])

/-- A word read at a register's offset returns that register (R23). -/
theorem State.busRead_offset (s : State) (r : Reg) :
    s.busRead (BitVec.ofNat 18 r.offset) .word =
      { s with busResp := some (.read (s.readReg r) false) } := by
  rw [State.busRead_of_accepted (s.isBusError_offset r), r.targetOf_offset]
  simp [State.readTarget]

/-- A word write at a register's offset writes that register (R23, R57). -/
theorem State.busWrite_offset (s : State) (r : Reg) (v : Word) :
    s.busWrite (BitVec.ofNat 18 r.offset) .word v =
      { s.writeReg v r with busResp := some (.write false) } := by
  rw [State.busWrite_of_accepted v (s.isBusError_offset r), r.targetOf_offset]
  simp [State.writeTarget]

/-- While idle a word read in a buffer returns the word addressed (R51). -/
theorem State.busRead_wordAddr {s : State} (b : Buf) {k : Nat} (hk : k < 4096)
    (hbusy : s.busy = false) :
    s.busRead (BitVec.ofNat 18 (wordAddr b k)) .word =
      { s with busResp := some (.read (s.buf b k) false) } := by
  have ha := (congrArg (· % 4) (toNat_wordAddr b hk)).trans (wordAddr_aligned b k)
  rw [State.busRead_of_accepted (State.isBusError_of_idle ha hbusy), targetOf_wordAddr b hk]
  rfl

/-! ### What is reserved or read-only -/

/-- What a reserved address selects: nothing, or an offset of no register (R24, R52). -/
theorem targetOf_unmapped {a : BusAddr}
    (h : (0x030 ≤ a.toNat ∧ a.toNat ≤ 0x03C) ∨ (0x068 ≤ a.toNat ∧ a.toNat < 0x10000) ∨
      0x24000 ≤ a.toNat) :
    targetOf a = .reserved ∨ ∃ off, targetOf a = .register off ∧ Reg.atOffset off = none := by
  by_cases hwin : a.toNat < 0x1000
  · exact .inr ⟨a.toNat, targetOf_register hwin, Reg.atOffset_reserved (by omega)⟩
  · exact .inl (targetOf_reserved (by omega))

/-- A word access at a reserved address is accepted, reads 0 and writes nothing. -/
theorem State.access_unmapped (s : State) {a : BusAddr} (v : Word) (ha : a.toNat % 4 = 0)
    (h : targetOf a = .reserved ∨ ∃ off, targetOf a = .register off ∧ Reg.atOffset off = none) :
    s.busWrite a .word v = { s with busResp := some (.write false) } ∧
      s.busRead a .word = { s with busResp := some (.read 0 false) } := by
  have hbuf : ∀ b k, targetOf a ≠ .bufWord b k := by
    rintro b k hb
    obtain h | ⟨off, h, -⟩ := h <;> simp [hb] at h
  have hok := s.isBusError_of_not_buffer ha hbuf
  rw [State.busWrite_of_accepted v hok, State.busRead_of_accepted hok]
  obtain h | ⟨off, h, hnone⟩ := h <;> rw [h]
  · exact ⟨rfl, rfl⟩
  · simp [State.writeTarget, State.readTarget, hnone]

/-- The read-only registers ignore a write (R25, R31, R33). -/
theorem State.writeReg_readOnly (s : State) (v : Word) {r : Reg}
    (hr : r ∈ [Reg.id, .version, .liveSr, .liveMaxblk, .oscPhase, .oscInc]) : s.writeReg v r = s := by
  simp only [List.mem_cons, List.not_mem_nil, or_false] at hr
  rcases hr with rfl | rfl | rfl | rfl | rfl | rfl <;> rfl

/-- The host's writes to MOD are ignored (R51). -/
theorem State.busWrite_mod {s : State} {a : BusAddr} (v : Word) (ha : a.toNat % 4 = 0)
    (hbusy : s.busy = false) (h : 0x20000 ≤ a.toNat ∧ a.toNat < 0x24000) :
    s.busWrite a .word v = { s with busResp := some (.write false) } := by
  rw [State.busWrite_of_accepted v (State.isBusError_of_idle ha hbusy),
    targetOf_buffer (b := .mod) h]
  rfl

/-- Settles O19: by what the address selects, nothing, a read-only register, or MOD. -/
theorem reservedAndReadOnlyIgnoreWrites : Obligations.ReservedAndReadOnlyIgnoreWrites := by
  refine fun s a v ha => ⟨fun h => s.access_unmapped v ha (targetOf_unmapped h), fun h => ?_,
    fun hlo hhi hbusy => State.busWrite_mod v ha hbusy ⟨hlo, hhi⟩⟩
  obtain ⟨r, hr, hoff⟩ := List.mem_map.1 (show a.toNat ∈
    [Reg.id, .version, .liveSr, .liveMaxblk, .oscPhase, .oscInc].map Reg.offset from h)
  obtain rfl : a = BitVec.ofNat 18 r.offset := BitVec.eq_of_toNat_eq (by rw [r.toNat_offset, hoff])
  rw [State.busWrite_offset, State.writeReg_readOnly s v hr]

/-! ### What a read leaves and returns -/

/-- The port's last response is in no register. -/
theorem State.readReg_withBusResp (s : State) (x : Option BusResponse) (r : Reg) :
    ({ s with busResp := x } : State).readReg r = s.readReg r := by cases r <;> rfl

/-- The port's last response is no part of what a read sees. -/
theorem State.readTarget_withBusResp (s : State) (x : Option BusResponse) (T : Target) :
    ({ s with busResp := x } : State).readTarget T = s.readTarget T := by
  cases T with
  | register off => simp only [State.readTarget, State.readReg_withBusResp]
  | _ => rfl

/-- A read that was accepted is accepted again and answers the same. -/
theorem State.busRead_busRead {s : State} {a : BusAddr} {z : AccessSize}
    (h : s.isBusError a z = false) : (s.busRead a z).busRead a z = s.busRead a z := by
  have hagain : (s.busRead a z).isBusError a z = false := by rwa [State.busRead_of_accepted h]
  rw [State.busRead_of_accepted hagain, State.busRead_of_accepted h]
  simp only [State.readTarget_withBusResp]

/-- The table of what the registers read as is `State.readReg` at the registers' offsets. -/
theorem registerReads_eq (s : State) :
    registerReads s = Reg.all.map fun r => (BitVec.ofNat 18 r.offset, s.readReg r) := rfl

theorem bufferBases_eq :
    bufferBases = [Buf.inL, .inR, .outL, .outR, .mod].map fun b => (b, b.base) := rfl

theorem base_of_mem_bufferBases {p : Buf × Nat} (hp : p ∈ bufferBases) : p.2 = p.1.base := by
  rw [bufferBases_eq] at hp
  obtain ⟨b, -, rfl⟩ := List.mem_map.1 hp
  rfl

/-- Settles O17: the frame by `busRead_of_accepted`, the registers and buffer words by their
addresses. -/
theorem acceptedReadsChangeNothing : Obligations.AcceptedReadsChangeNothing := by
  refine fun s => ⟨fun a h => ⟨_, State.busRead_of_accepted h, State.busRead_busRead h⟩,
    fun p hp => ?_, fun p hp k hk hbusy => ?_⟩
  · rw [registerReads_eq] at hp
    obtain ⟨r, -, rfl⟩ := List.mem_map.1 hp
    exact s.busRead_offset r
  · rw [base_of_mem_bufferBases hp]
    exact State.busRead_wordAddr p.1 hk hbusy

/-! ### STATUS (10_state.md table T2) -/

/-- Table T2, bit by bit. -/
theorem State.getLsbD_status (s : State) {i : Nat} (hi : i < 32) :
    s.status.getLsbD i =
      if i = 0 then s.busy else if i = 1 then s.done else if i = 2 then s.err
      else if i = 3 then s.busErr else if i = 4 then s.prepared else if i = 5 then s.osc.en
      else if i < 8 then false else if i < 12 then s.errCode.code.getLsbD (i - 8)
      else if i < 16 then false else if i < 24 then s.hdone.getLsbD (i - 16) else false := by
  change BitVec.getLsbD (w := 8 + 8 + 4 + 4 + 2 + 1 + 1 + 1 + 1 + 1 + 1) (_ ++ _) i = _
  simp only [BitVec.getLsbD_append, BitVec.getLsbD_ofBool]
  interval_cases i <;> rfl

/-- Settles O23: each field by its bits in `State.getLsbD_status`. -/
theorem statusWordLayout : Obligations.StatusWordLayout := by
  refine fun s => ⟨congrArg State.busResp (s.busRead_offset .status), s.getLsbD_status (by decide),
    s.getLsbD_status (by decide), s.getLsbD_status (by decide), s.getLsbD_status (by decide),
    s.getLsbD_status (by decide), s.getLsbD_status (by decide), ?_, ?_, ?_⟩ <;>
    refine BitVec.eq_of_getLsbD_eq fun i hi => ?_
  · rw [BitVec.getLsbD_extractLsb', s.getLsbD_status (by omega)]
    interval_cases i <;> rfl
  · rw [BitVec.getLsbD_extractLsb', s.getLsbD_status (by omega)]
    interval_cases i <;> rfl
  · rw [BitVec.getLsbD_and, s.getLsbD_status hi]
    interval_cases i <;> simp

/-- Settles O22: the write is `State.writeStatus`, whose bits clear where they are 1. -/
theorem statusWriteClearsFlags : Obligations.StatusWriteClearsFlags := by
  refine fun s v => (s.busWrite_offset .status v).trans ?_
  have clear (f b : Bool) : (f && !b) = if b then false else f := by cases b <;> simp
  simp only [State.writeReg, State.writeStatus, clear]

/-! ### The settings registers -/

/-- The registers whose write stores a word in the settings, HCOUNT aside (R29, R30, R37). -/
def settingsRegs : List Reg :=
  [.srCfg, .maxblkCfg, .oscFreq, .f0, .qbase, .curve, .timbre, .detune, .link, .depth, .rate, .modCtrl]

/-- What a register keeps of a written word: MOD_CTRL its four defined bits, CTRL its one (R29, R37). -/
def storedWord (v : Word) (r : Reg) : Word :=
  if r = .modCtrl then v &&& 0xF else if r = .ctrl then v &&& 1 else v

theorem setWidth_setWidth_four (v : Word) : (v.setWidth 4).setWidth 32 = v &&& 0xF := by
  apply BitVec.eq_of_toNat_eq
  have hmask : v.toNat &&& 15 = v.toNat % 16 := Nat.and_two_pow_sub_one_eq_mod v.toNat 4
  have hfits : v.toNat % 16 % 2 ^ 32 = v.toNat % 16 := by omega
  simpa [hmask] using hfits

theorem settingsRegs_ne : ∀ r ∈ settingsRegs, r ≠ .cmd ∧ r ≠ .status ∧ r ≠ .ctrl := by decide

/-- Past CMD, STATUS and CTRL a register write is a write to the settings. -/
theorem State.writeReg_eq_write (s : State) (v : Word) {r : Reg}
    (hr : r ≠ .cmd ∧ r ≠ .status ∧ r ≠ .ctrl) :
    s.writeReg v r = { s with settings := s.settings.write v r } := by
  obtain ⟨hcmd, hstatus, hctrl⟩ := hr
  cases r with
  | cmd => exact absurd rfl hcmd
  | status => exact absurd rfl hstatus
  | ctrl => exact absurd rfl hctrl
  | _ => rfl

/-- A settings register reads back what it stored; no other register reads differently. -/
theorem State.readReg_writeReg (s : State) (v : Word) {r : Reg} (hr : r ∈ settingsRegs) (r' : Reg) :
    (s.writeReg v r).readReg r' = if r' = r then storedWord v r else s.readReg r' := by
  rw [s.writeReg_eq_write v (settingsRegs_ne r hr)]
  have hstatus (S : Settings) : ({ s with settings := S } : State).status = s.status := rfl
  simp only [settingsRegs, List.mem_cons, List.not_mem_nil, or_false] at hr
  rcases hr with rfl | rfl | rfl | rfl | rfl | rfl | rfl | rfl | rfl | rfl | rfl | rfl <;>
    cases r' <;> simp [State.readReg, Settings.write, storedWord, setWidth_setWidth_four, hstatus]

theorem State.readReg_writeReg_ctrl (s : State) (v : Word) (r' : Reg) :
    (s.writeReg v .ctrl).readReg r' = if r' = .ctrl then storedWord v .ctrl else s.readReg r' := by
  cases r' with
  | ctrl => exact (BitVec.and_one_eq_setWidth_ofBool_getLsbD).symm
  | _ => rfl

/-- Settles O20: by the two stores a write to these registers can be. -/
theorem settingsRegistersReadBack : Obligations.SettingsRegistersReadBack := by
  intro s t v r hr ht
  rw [State.busWrite_offset] at ht
  obtain hset | rfl : r ∈ settingsRegs ∨ r = .ctrl := by simpa [settingsRegs, or_assoc] using hr
  · have hne := settingsRegs_ne r hset
    refine ⟨fun h => absurd h hne.2.2, fun _ => ?_, fun r' => ?_⟩
    · rw [← ht, s.writeReg_eq_write v hne]
    · rw [← ht, State.readReg_withBusResp, s.readReg_writeReg v hset, storedWord]
  · refine ⟨fun _ => ht.symm, fun h => absurd rfl h, fun r' => ?_⟩
    rw [← ht, State.readReg_withBusResp, s.readReg_writeReg_ctrl, storedWord]

/-! ### HCOUNT (10_state.md R36) -/

theorem clampHcount_val (v : Word) : (clampHcount v).val = min v.toNat 200 := by
  unfold clampHcount
  rw [Fin.val_ofNat, Nat.mod_eq_of_lt (by omega)]

/-- Settles O21: the write stores `clampHcount v`, which is `min(v, 200)`. -/
theorem hcountStoresTheMinimum : Obligations.HcountStoresTheMinimum := by
  refine ⟨fun s t v ht => ?_, rfl⟩
  obtain rfl := (s.busWrite_offset .hcount v).symm.trans ht
  have hn := clampHcount_val v
  refine ⟨rfl, hn, ?_, fun _ => hn⟩
  rw [← hn]
  exact congrArg State.busResp (State.busRead_offset _ .hcount)

/-! ### After reset -/

/-- Settles O25: the fixed values by evaluation, a channel and a byte by the reset values of their files. -/
theorem powerOnValues : Obligations.PowerOnValues := by
  refine ⟨rfl, rfl, fun p hp k => ?_, rfl, rfl, rfl, rfl, rfl, rfl, fun i sd hi => ?_, fun _ => rfl⟩
  · rw [base_of_mem_bufferBases hp]
    rfl
  · have hch : State.reset.chan i = Channel.zero := by simp [State.chan, State.reset, chZero, hi]
    unfold State.svf
    rw [hch]
    cases sd <;> rfl

end Sys2Proof.Machine

/-! Commands as bytes (30_encoding.md R68, R72), the two agents' steps (00_scope.md R19, 20_memory.md
R60), what a bus error is and does (R55), and a buffer word the host writes (R51, R56). -/

namespace Sys2Proof

/-! ### Four bytes are one command -/

/-- A word whose fields are a command's OP and ARG decodes to that command. -/
theorem decode_of_fields {w : Word} {i : Instr} (hop : opField w = i.opcode)
    (harg : argField w = i.arg) : decode w = .ok i := by
  unfold decode
  rw [hop, harg]
  cases i <;> rfl

theorem decode_encode {i : Instr} (h : i.wellFormed = true) : decode (encode i) = .ok i :=
  have ⟨hop, harg⟩ := Laws.fields_of_wellFormed i h
  decode_of_fields hop harg

theorem decodeBytes_encodeBytes (i : Instr) (rest : List Byte) :
    decodeBytes (encodeBytes i ++ rest) = (decode (encode i)).map (·, rest) :=
  congrArg (fun w => (decode w).map (·, rest)) (Machine.wordOfBytes_byteOfWord (encode i))

theorem decodeBytes_of_short {bytes : List Byte} (h : bytes.length < 4) :
    decodeBytes bytes = .error (.truncated bytes.length) := by
  match bytes, h with
  | [], _ | [_], _ | [_, _], _ | [_, _, _], _ => rfl

/-- Settles O5: a command's word survives the byte layout, and decodes by its two fields. -/
theorem fourBytesAreOneCommand : Obligations.FourBytesAreOneCommand := by
  refine ⟨fun i rest h => ?_, fun _ => decodeBytes_of_short⟩
  rw [decodeBytes_encodeBytes, decode_encode h]
  rfl

end Sys2Proof

namespace Sys2Proof.Machine

/-! ### The step of each agent -/

theorem step_of_engine {s : State} (h : s.nextAgent = .engine) : step s = engineStep s.takeTurn := by
  rw [step, h, agentStep]

theorem step_of_host {s : State} (h : s.nextAgent = .host) : step s = hostStep s.takeTurn := by
  rw [step, h, agentStep]

theorem engineStep_of_decode {s : State} {c : Pending} {i : Instr} (hc : s.pending = some c)
    (hi : decode c.word = .ok i) : engineStep s = exec i s := by
  simp only [engineStep, hc, hi]

theorem engineStep_of_badOpcode {s : State} {c : Pending} {e : DecodeError}
    (hc : s.pending = some c) (he : decode c.word = .error e) :
    engineStep s = .next (s.refuse .badOpcode) := by
  simp only [engineStep, hc, he]

/-- Settles O6: the engine's step performs the command its pending word decodes to. -/
theorem stepPerformsThePendingCommand : Obligations.StepPerformsThePendingCommand := by
  intro s c i ha hc hi
  rw [step_of_engine ha]
  exact engineStep_of_decode hc hi

theorem whenOutOfReset_of_high {s : State} (t : State) (h : s.rstN = true) :
    whenOutOfReset s t = .next t :=
  whenOutOfReset_next.2 ⟨h, rfl⟩

section HostStep

variable {s : State} {rest : List HostOp}

theorem hostStep_of_idle (h : s.host = []) : hostStep s = .next s := by
  simp only [hostStep, h]

theorem hostStep_of_read {a : BusAddr} {z : AccessSize} (hrst : s.rstN = true)
    (h : s.host = .read a z :: rest) : hostStep s = .next ((s.withHost rest).busRead a z) := by
  simp only [hostStep, h, whenOutOfReset_of_high _ hrst]

theorem hostStep_of_write {a : BusAddr} {z : AccessSize} {v : Word} (hrst : s.rstN = true)
    (h : s.host = .write a z v :: rest) :
    hostStep s = .next ((s.withHost rest).busWrite a z v) := by
  simp only [hostStep, h, whenOutOfReset_of_high _ hrst]

theorem hostStep_of_wait (hrst : s.rstN = true) (h : s.host = .wait :: rest) :
    hostStep s = .next (waitStep s rest) := by
  simp only [hostStep, h, whenOutOfReset_of_high _ hrst]

theorem hostStep_of_rst {level : Bool} (h : s.host = .rst level :: rest) :
    hostStep s = .next ((s.withHost rest).driveReset level) := by
  simp only [hostStep, h]

end HostStep

/-- One pass of WAIT is a read of STATUS; the WAIT stays at the head while BUSY = 1 (R79). -/
theorem waitStep_eq (s : State) (rest : List HostOp) :
    waitStep s rest =
      { s.busRead 0x0000C .word with host := if s.busy then s.host else rest } := by
  rw [waitStep, State.busRead_eq]
  cases s.busy <;> rfl

theorem State.driveReset_of_low {s : State} {level : Bool} (h : s.rstN = false ∨ level = false) :
    s.driveReset level = s.powerOn level := by
  rcases h with h | h <;> simp [State.driveReset, h]

theorem State.driveReset_of_high {s : State} (h : s.rstN = true) : s.driveReset true = s :=
  if_pos (by simp [h])

/-- Settles O7: the host's step by the operation at the head of its list. -/
theorem stepTakesTheHostsOperation : Obligations.StepTakesTheHostsOperation := by
  intro s ha
  rw [step_of_host ha]
  refine ⟨fun h => hostStep_of_idle h, fun a z rest hrst h => hostStep_of_read hrst h,
    fun a z v rest hrst h => hostStep_of_write hrst h, fun rest hrst h => ?_,
    fun level rest h => ?_⟩
  · rw [hostStep_of_wait (s := s.takeTurn) hrst h, waitStep_eq]
    rfl
  · rw [hostStep_of_rst (s := s.takeTurn) h]
    refine ⟨fun hlow => ?_, fun hrst hlevel => ?_⟩
    · rw [State.driveReset_of_low (s := s.takeTurn.withHost rest) hlow]
      rfl
    · rw [hlevel, State.driveReset_of_high (s := s.takeTurn.withHost rest) hrst]
      rfl

/-! ### A pending command is performed (30_encoding.md R76, R77) -/

/-- A performance, refused or not, ends with the latch empty and DONE set. -/
theorem complete_ends (s : State) (r : CmdResult) :
    (complete s r).busy = false ∧ (complete s r).done = true := by
  cases r <;> exact ⟨rfl, rfl⟩

theorem engineStep_ends {s : State} {c : Pending} (hc : s.pending = some c) :
    ∃ u, engineStep s = .next u ∧ u.busy = false ∧ u.done = true := by
  cases hd : decode c.word with
  | ok i => exact ⟨_, (engineStep_of_decode hc hd).trans (exec_eq i s), complete_ends _ _⟩
  | error e => exact ⟨_, engineStep_of_badOpcode hc hd, rfl, rfl⟩

theorem State.busy_of_pending {s : State} {c : Pending} (h : s.pending = some c) :
    s.busy = true := by
  simp [State.busy, h]

/-- What an access of the host leaves alone while a command is pending. -/
structure State.KeepsCommand (s t : State) : Prop where
  rstN : t.rstN = s.rstN
  pending : t.pending = s.pending
  host : t.host = s.host
  turns : t.turns = s.turns

theorem State.keepsCommand_busRead (s : State) (a : BusAddr) (z : AccessSize) :
    s.KeepsCommand (s.busRead a z) := by
  rw [State.busRead_eq]
  exact ⟨rfl, rfl, rfl, rfl⟩

/-- While a command is pending a write to CMD is rejected, so no register write touches the latch
(R74). -/
theorem State.keepsCommand_writeReg {s : State} (hbusy : s.busy = true) (v : Word) (r : Reg) :
    s.KeepsCommand (s.writeReg v r) := by
  obtain h | h | ⟨S, e, h⟩ := s.writeReg_cases v r <;> rw [h]
  · rw [State.writeCmd, if_pos hbusy]
    exact ⟨rfl, rfl, rfl, rfl⟩
  · exact ⟨rfl, rfl, rfl, rfl⟩
  · exact ⟨rfl, rfl, rfl, rfl⟩

theorem State.keepsCommand_busWrite {s : State} (hbusy : s.busy = true) (a : BusAddr)
    (z : AccessSize) (v : Word) : s.KeepsCommand (s.busWrite a z v) := by
  obtain h | h | ⟨r, h⟩ | ⟨hidle, -⟩ := s.busWrite_cases a z v
  · rw [h]; exact ⟨rfl, rfl, rfl, rfl⟩
  · rw [h]; exact ⟨rfl, rfl, rfl, rfl⟩
  · have hkeep := State.keepsCommand_writeReg hbusy v r
    rw [h]
    exact { hkeep with }
  · exact absurd (hidle.symm.trans hbusy) Bool.false_ne_true

/-- A command is pending, `rst_n` is high, and the host is not going to drive it. -/
structure State.Awaits (s : State) (c : Pending) : Prop where
  rstN : s.rstN = true
  pending : s.pending = some c
  noReset : ∀ level, HostOp.rst level ∉ s.host

section Awaits

variable {s : State} {c : Pending}

theorem State.Awaits.withHost (h : s.Awaits c) {ops : List HostOp} (hops : ops ⊆ s.host) :
    (s.takeTurn.withHost ops).Awaits c :=
  ⟨h.rstN, h.pending, fun level hl => h.noReset level (hops hl)⟩

theorem State.Awaits.of_keepsCommand {t : State} (h : s.Awaits c) (ht : s.KeepsCommand t) :
    t.Awaits c :=
  ⟨ht.rstN.trans h.rstN, ht.pending.trans h.pending, fun level => ht.host ▸ h.noReset level⟩

/-- A host's turn takes one turn off the list and leaves the command pending. -/
theorem State.Awaits.host_turn (h : s.Awaits c) (ha : s.nextAgent = .host) :
    ∃ t, step s = .next t ∧ t.Awaits c ∧ t.turns = s.turns.tail := by
  have hturn : s.takeTurn.Awaits c := h.withHost (List.Subset.refl _)
  have hbusy : s.takeTurn.busy = true := State.busy_of_pending h.pending
  rw [step_of_host ha]
  cases hh : s.takeTurn.host with
  | nil => exact ⟨_, hostStep_of_idle hh, hturn, rfl⟩
  | cons op rest =>
    have hrest : (s.takeTurn.withHost rest).Awaits c :=
      h.withHost (hh ▸ List.subset_cons_self op rest)
    cases op with
    | read a z =>
      have hkeep := (s.takeTurn.withHost rest).keepsCommand_busRead a z
      exact ⟨_, hostStep_of_read h.rstN hh, hrest.of_keepsCommand hkeep, hkeep.turns⟩
    | write a z v =>
      have hkeep := State.keepsCommand_busWrite (s := s.takeTurn.withHost rest) hbusy a z v
      exact ⟨_, hostStep_of_write h.rstN hh, hrest.of_keepsCommand hkeep, hkeep.turns⟩
    | wait =>
      have hkeep := s.takeTurn.keepsCommand_busRead 0x0000C .word
      have hwait : waitStep s.takeTurn rest = s.takeTurn.busRead 0x0000C .word := if_pos hbusy
      exact ⟨_, hwait ▸ hostStep_of_wait h.rstN hh, hturn.of_keepsCommand hkeep, hkeep.turns⟩
    | rst level => exact absurd (hh ▸ List.mem_cons_self) (hturn.noReset level)

/-- The engine's turn comes after at most the turns listed, by induction on them. -/
theorem State.Awaits.engine_turn_comes (h : s.Awaits c) :
    ∃ k t, k ≤ s.turns.length ∧ Host.Core.run Sys2Proof.core k s = .next t ∧ t.Awaits c ∧
      t.nextAgent = .engine := by
  induction hturns : s.turns generalizing s with
  | nil =>
    refine ⟨0, s, Nat.zero_le _, rfl, h, ?_⟩
    rw [State.nextAgent, hturns]
    exact if_pos (State.busy_of_pending h.pending)
  | cons a as ih =>
    have hnext : s.nextAgent = a := by rw [State.nextAgent, hturns]
    cases a with
    | engine => exact ⟨0, s, Nat.zero_le _, rfl, h, hnext⟩
    | host =>
      obtain ⟨t, hstep, ht, hrest⟩ := h.host_turn hnext
      obtain ⟨k, u, hk, hrun, hu⟩ := ih ht (hrest.trans (congrArg List.tail hturns))
      exact ⟨k + 1, u, Nat.succ_le_succ hk, (run_succ_of_next k hstep).trans hrun, hu⟩

end Awaits

/-- A run that ends in a next state goes on with that state's step. -/
theorem core_run_succ_of_run (M : Host.Core) {k : Nat} {s t : M.State} (h : M.run k s = .next t) :
    M.run (k + 1) s = M.step t := by
  induction k generalizing s with
  | zero =>
    obtain rfl : s = t := Host.Outcome.next.inj h
    rw [core_run_succ]
    cases M.step s <;> rfl
  | succ k ih =>
    rw [core_run_succ] at h ⊢
    cases hs : M.step s with
    | next u =>
      rw [hs] at h
      exact ih h
    | fault r => simp [hs] at h
    | refused r => simp [hs] at h

/-- Settles O15: the engine's turn comes with the command still pending, and its step performs it. -/
theorem pendingCommandIsPerformedInTheEnd : Obligations.PendingCommandIsPerformedInTheEnd := by
  intro s c hrst hc hhost
  obtain ⟨k, t, hk, hrun, ht, ha⟩ :=
    State.Awaits.engine_turn_comes (s := s) (c := c) ⟨hrst, hc, hhost⟩
  obtain ⟨u, hu, hends⟩ := engineStep_ends (s := t.takeTurn) ht.pending
  have hstep := (step_of_engine ha).trans hu
  exact ⟨k, t, u, hk, hrun, ht.pending, ha, hstep, (core_run_succ_of_run _ hrun).trans hstep, hends⟩

/-! ### Bus errors (20_memory.md R54, R55, R58) -/

theorem Buf.exists_window {n : Nat} (h : 0x10000 ≤ n ∧ n < 0x24000) :
    ∃ b : Buf, b.base ≤ n ∧ n < b.base + 0x4000 := by
  obtain hn | hn | hn | hn | hn : n < 0x14000 ∨ (0x14000 ≤ n ∧ n < 0x18000) ∨
      (0x18000 ≤ n ∧ n < 0x1C000) ∨ (0x1C000 ≤ n ∧ n < 0x20000) ∨ 0x20000 ≤ n := by omega
  · exact ⟨.inL, h.1, hn⟩
  · exact ⟨.inR, hn⟩
  · exact ⟨.outL, hn⟩
  · exact ⟨.outR, hn⟩
  · exact ⟨.mod, hn, h.2⟩

/-- The five buffer windows are one range of addresses (table T3). -/
theorem targetOf_bufWord_iff (a : BusAddr) :
    (∃ b k, targetOf a = .bufWord b k) ↔ 0x10000 ≤ a.toNat ∧ a.toNat < 0x24000 := by
  constructor
  · rintro ⟨b, k, h⟩
    by_contra hout
    by_cases hreg : a.toNat < 0x1000
    · simp [targetOf_register hreg] at h
    · simp [targetOf_reserved (a := a) (by omega)] at h
  · intro h
    obtain ⟨b, hb⟩ := Buf.exists_window h
    exact ⟨b, _, targetOf_buffer hb⟩

theorem State.isBusError_iff (s : State) (a : BusAddr) (z : AccessSize) :
    s.isBusError a z = true ↔ z ≠ .word ∨ a.toNat % 4 ≠ 0 ∨
      (s.busy = true ∧ ∃ b k, targetOf a = .bufWord b k) := by
  unfold State.isBusError
  cases targetOf a <;> simp [or_assoc]

theorem State.busRead_of_busError {s : State} {a : BusAddr} {z : AccessSize}
    (h : s.isBusError a z = true) : s.busRead a z = s.busFault (.read 0 true) := if_pos h

theorem State.busWrite_of_busError {s : State} {a : BusAddr} {z : AccessSize} (v : Word)
    (h : s.isBusError a z = true) : s.busWrite a z v = s.busFault (.write true) := if_pos h

/-- Settles O16: the windows by the address map, the effect by the two branches of an access. -/
theorem busErrorsAndTheirEffect : Obligations.BusErrorsAndTheirEffect := by
  refine fun s a z v => ⟨?_, fun h => ?_, fun h => ?_⟩
  · rw [State.isBusError_iff, targetOf_bufWord_iff]
  · exact ⟨State.busRead_of_busError h, State.busWrite_of_busError v h⟩
  · rw [State.busRead_of_accepted h, State.busWrite_of_accepted v h]
    exact ⟨⟨_, rfl⟩, rfl⟩

/-! ### A buffer word written by the host (20_memory.md R51, R53, R56) -/

/-- While idle a word write in a buffer other than MOD stores the word addressed (R51). -/
theorem State.busWrite_wordAddr {s : State} {b : Buf} {k : Nat} (v : Word) (hk : k < 4096)
    (hbusy : s.busy = false) (hb : b ≠ .mod) :
    s.busWrite (BitVec.ofNat 18 (wordAddr b k)) .word v =
      { s.setBuf b k v with busResp := some (.write false) } := by
  have ha := (congrArg (· % 4) (toNat_wordAddr b hk)).trans (wordAddr_aligned b k)
  rw [State.busWrite_of_accepted v (State.isBusError_of_idle ha hbusy), targetOf_wordAddr b hk,
    State.writeTarget, if_neg hb]

/-- Settles O18: the write stores the word, which reads back, and its frame is that of a memory
write. -/
theorem bufferWriteThenRead : Obligations.BufferWriteThenRead := by
  intro s b k v hbusy hb hk
  refine ⟨_, State.busWrite_wordAddr v hk hbusy hb, rfl, ?_, fun a ha =>
    Memory.readByte_writeWord_other _ _ a v ha⟩
  have hword : (s.setBuf b k v).buf b k = v := by simp [State.buf_setBuf s b b v hk hk]
  rw [State.busRead_wordAddr b hk]
  · exact congrArg (fun w => some (BusResponse.read w false)) hword
  · exact hbusy

end Sys2Proof.Machine

/-! The command word and its decoder (30_encoding.md tables T5 and T6), the CMD register (R71, R73, R74),
and what a performance reads, changes and ends with (R75, R76, 60_exceptions.md R137). -/

namespace Sys2Proof

/-! ### The decoder by the OP byte (table T6, R69 to R71) -/

/-- Settles O1: a well-formed command's word has its OP and its ARG as fields, and those decide the
decoding. -/
theorem decodeOfEncodeIsTheCommand : Obligations.DecodeOfEncodeIsTheCommand :=
  fun _ h => decode_encode h

/-- The OP bytes of table T6. -/
def tabledOpcodes : List Byte := [0x00, 0x01, 0x02, 0x03, 0x10, 0x11, 0x12]

/-- Each row of table T6 has a command with every ARG. -/
theorem exists_instr_of_tabled {op : Byte} (h : op ∈ tabledOpcodes) (a : Nat) :
    ∃ i : Instr, i.opcode = op ∧ i.arg = a := by
  simp only [tabledOpcodes, List.mem_cons, List.not_mem_nil, or_false] at h
  rcases h with rfl | rfl | rfl | rfl | rfl | rfl | rfl
  · exact ⟨.nop a, rfl, rfl⟩
  · exact ⟨.prepare a, rfl, rfl⟩
  · exact ⟨.reset a, rfl, rfl⟩
  · exact ⟨.process a, rfl, rfl⟩
  · exact ⟨.oscSetfreq a, rfl, rfl⟩
  · exact ⟨.oscAdvance a, rfl, rfl⟩
  · exact ⟨.oscReset a, rfl, rfl⟩

/-- A word whose OP is in no row is no command (R71). -/
theorem decode_of_untabled {w : Word} (h : opField w ∉ tabledOpcodes) :
    decode w = .error (.badOpcode (opField w)) := by
  simp only [tabledOpcodes, List.mem_cons, List.not_mem_nil, or_false, not_or] at h
  obtain ⟨hnop, hprepare, hreset, hprocess, hsetfreq, hadvance, hoscReset⟩ := h
  unfold decode
  rw [if_neg hnop, if_neg hprepare, if_neg hreset, if_neg hprocess, if_neg hsetfreq,
    if_neg hadvance, if_neg hoscReset]

/-- Settles O3: the row of OP gives the command with ARG = w / 256, and no row gives the rejection. -/
theorem opcodeByteAloneSelectsTheCommand : Obligations.OpcodeByteAloneSelectsTheCommand := by
  refine fun w => ⟨fun h => ?_, decode_of_untabled⟩
  obtain ⟨i, hop, harg⟩ := exists_instr_of_tabled h (argField w)
  exact ⟨i, decode_of_fields hop.symm harg.symm, hop, harg.trans (Laws.argField_eq w)⟩

/-- The two ranges of reserved OP bytes hold none of table T6's. -/
theorem not_tabled_of_reserved {op : Byte}
    (h : (0x04 ≤ op.toNat ∧ op.toNat ≤ 0x0F) ∨ 0x13 ≤ op.toNat) : op ∉ tabledOpcodes := by
  intro hop
  have htabled : ∀ o ∈ tabledOpcodes, o.toNat < 0x04 ∨ 0x10 ≤ o.toNat ∧ o.toNat < 0x13 := by decide
  have := htabled op hop
  omega

end Sys2Proof

namespace Sys2Proof.Machine

/-! ### The CMD register (30_encoding.md R71, R73, R74) -/

theorem State.writeCmd_of_idle {s : State} (w : Word) (h : s.busy = false) :
    s.writeCmd w = s.issue w := if_neg (by simp [h])

theorem State.writeCmd_of_busy {s : State} (w : Word) (h : s.busy = true) :
    s.writeCmd w = s.rejectIssue := if_pos h

theorem State.busWrite_cmd (s : State) (w : Word) :
    s.busWrite 0x00008 .word w = { s.writeCmd w with busResp := some (.write false) } :=
  s.busWrite_offset .cmd w

/-- Settles O9: at CMD's offset an idle machine issues. -/
theorem cmdWriteIssuesTheCommand : Obligations.CmdWriteIssuesTheCommand := by
  intro s w hidle
  rw [State.busWrite_cmd, State.writeCmd_of_idle w hidle]
  exact ⟨rfl, rfl⟩

/-- Settles O10: at CMD's offset a busy machine rejects the word. -/
theorem cmdWriteWhileBusyIsRejected : Obligations.CmdWriteWhileBusyIsRejected := by
  intro s w hbusy
  rw [State.busWrite_cmd, State.writeCmd_of_busy w hbusy]
  exact ⟨rfl, rfl⟩

/-- Settles O8: the issue does not look at OP, and the engine refuses a word that does not decode. -/
theorem reservedOpcodeIssuesAndIsRefused : Obligations.ReservedOpcodeIssuesAndIsRefused := by
  intro s w hop
  refine ⟨fun hidle => (cmdWriteIssuesTheCommand s w hidle).1, fun c hc hw ha => ⟨?_, rfl⟩⟩
  have hbad : decode c.word = .error (.badOpcode (opField w)) := by
    rw [hw, decode_of_untabled (not_tabled_of_reserved hop)]
  rw [step_of_engine ha, engineStep_of_badOpcode (s := s.takeTurn) hc hbad]
  rfl

/-! ### The end of a performance (30_encoding.md R76, 60_exceptions.md R137) -/

/-- `t` is `s` but for what a command's effect can change: the live values, the oscillator, the channels,
PREPARED, HDONE, the buffers and the count of noise draws. -/
def State.EffectOf (s t : State) : Prop :=
  t = { s with liveSr := t.liveSr, liveMaxblk := t.liveMaxblk, osc := t.osc, ch := t.ch,
               prepared := t.prepared, hdone := t.hdone, mem := t.mem, drawn := t.drawn }

theorem State.effectOf_oscAdvance (n : Nat) (s : State) : s.EffectOf (oscAdvance n s) := by
  unfold State.EffectOf
  rw [oscAdvance_frame]

theorem State.effectOf_processBlock (S : Settings) (n : Nat) (s : State) :
    s.EffectOf (processBlock S n s) := by
  unfold State.EffectOf
  rw [processBlock_frame]

/-- The causes for which a command of table T6 is refused (60_exceptions.md R138). -/
def refusalCodes : List ErrCode := [.notPrepared, .badLength, .badConfig, .badSettings]

/-- What the performance of a command started in `s` may come to. -/
def CmdResult.PossibleFrom (s : State) : CmdResult → Prop
  | .performed t => s.EffectOf t
  | .raised c => c ∈ refusalCodes

/-- A check either raises its code or leaves the rest to decide. -/
theorem CmdResult.PossibleFrom.check {s : State} {p : Prop} [Decidable p] {c : ErrCode} {r : CmdResult}
    (hc : c ∈ refusalCodes) (hr : r.PossibleFrom s) :
    (if p then .raised c else r : CmdResult).PossibleFrom s := by
  split
  · exact hc
  · exact hr

theorem perform_possibleFrom (i : Instr) (s : State) : (perform i s).PossibleFrom s := by
  cases i with
  | nop => exact rfl
  | prepare =>
    show (performPrepare s).PossibleFrom s
    rw [performPrepare_eq]
    exact .check (by decide) rfl
  | reset => exact rfl
  | process n =>
    show (performProcess n s).PossibleFrom s
    rw [performProcess_eq]
    exact .check (by decide) <| .check (by decide) <|
      .check (by decide) (s.effectOf_processBlock s.snap n)
  | oscSetfreq =>
    show (performOscSetfreq s).PossibleFrom s
    rw [performOscSetfreq_eq]
    exact .check (by decide) rfl
  | oscAdvance n =>
    show (performOscAdvance n s).PossibleFrom s
    rw [performOscAdvance_eq]
    exact .check (by decide) <| .check (by decide) (s.effectOf_oscAdvance n)
  | oscReset => exact rfl

/-- Settles O12: a performed effect keeps ERR and ERRCODE, a raised code is a refusal, and either way the
step ends in BUSY = 0 and DONE = 1. -/
theorem everyPerformanceEndsDone : Obligations.EveryPerformanceEndsDone := by
  intro i s
  refine ⟨_, exec_eq i s, ?_⟩
  have hpossible := perform_possibleFrom i s
  cases hr : perform i s with
  | performed t =>
    rw [hr] at hpossible
    have ht : t = _ := hpossible
    rw [ht]
    exact ⟨rfl, rfl, Bool.and_true _, .inl ⟨rfl, rfl⟩⟩
  | raised c =>
    rw [hr] at hpossible
    exact ⟨rfl, rfl, Bool.and_true _, .inr ⟨c, hpossible, rfl⟩⟩

/-! ### A performance and the settings registers (30_encoding.md R75)

Every part of a performance commutes with a change of the settings registers: once a command is pending,
nothing it does reads or writes them. -/

/-- The state with other contents in the settings registers. -/
def State.withSettings (s : State) (T : Settings) : State := { s with settings := T }

/-- What a loop's pass commutes with, the loop commutes with. -/
theorem forTo_comm {α : Type} {f : Nat → α → α} {g : α → α} (h : ∀ k a, f k (g a) = g (f k a))
    (n : Nat) (a : α) : forTo f n (g a) = g (forTo f n a) := by
  induction n with
  | zero => rfl
  | succ n ih => rw [forTo_succ, ih, h, forTo_succ]

section WithSettings

variable (T : Settings)

/-- The snapshot of a pending command does not see the registers. -/
theorem State.snap_withSettings {s : State} {c : Pending} (hc : s.pending = some c) :
    (s.withSettings T).snap = s.snap := by
  simp [State.snap, State.withSettings, hc]

theorem State.prepare_withSettings {s : State} {c : Pending} (hc : s.pending = some c) :
    (s.withSettings T).prepare = s.prepare.withSettings T := by
  simp only [State.prepare, State.snap_withSettings T hc]
  rfl

theorem oscAdvance_withSettings (n : Nat) (s : State) :
    oscAdvance n (s.withSettings T) = (oscAdvance n s).withSettings T :=
  forTo_comm (f := oscSample) (g := (State.withSettings · T)) (fun _ _ => rfl) n s

theorem noisePrepass_withSettings (n : Nat) (s : State) :
    noisePrepass n (s.withSettings T) = (noisePrepass n s).withSettings T :=
  forTo_comm (f := noiseSample) (g := (State.withSettings · T)) (fun _ _ => rfl) n s

theorem clearOutput_withSettings (n : Nat) (s : State) :
    clearOutput n (s.withSettings T) = (clearOutput n s).withSettings T :=
  forTo_comm (f := clearSample) (g := (State.withSettings · T)) (fun _ _ => rfl) n s

theorem harmonicBlock_withSettings (S : Settings) (n i : Nat) (s : State) :
    harmonicBlock S n i (s.withSettings T) = (harmonicBlock S n i s).withSettings T :=
  forTo_comm (f := sampleStep S i) (g := (State.withSettings · T)) (fun _ _ => rfl) n s

theorem modulate_withSettings (S : Settings) (n : Nat) (s : State) :
    modulate S n (s.withSettings T) = (modulate S n s).withSettings T :=
  oscAdvance_withSettings T n { s with osc := s.osc.forBlock S s.liveSr }

theorem preBlock_withSettings (S : Settings) (n : Nat) (s : State) :
    preBlock S n (s.withSettings T) = (preBlock S n s).withSettings T := by
  unfold preBlock
  simp only [modulate_withSettings]
  split
  · rw [noisePrepass_withSettings, clearOutput_withSettings]
  · rw [clearOutput_withSettings]

/-- The loop's test reads the live sample rate and the snapshot, so it goes on equally far. -/
theorem harmonicLoop_withSettings (S : Settings) (n fuel i : Nat) (s : State) :
    harmonicLoop S n fuel i (s.withSettings T) =
      ((harmonicLoop S n fuel i s).1.withSettings T, (harmonicLoop S n fuel i s).2) := by
  induction fuel generalizing i s with
  | zero => rfl
  | succ fuel ih =>
    have hrate : (s.withSettings T).liveSr = s.liveSr := rfl
    unfold harmonicLoop
    rw [hrate, harmonicBlock_withSettings, ih]
    split <;> rfl

theorem processBlock_withSettings (S : Settings) (n : Nat) (s : State) :
    processBlock S n (s.withSettings T) = (processBlock S n s).withSettings T := by
  unfold processBlock
  rw [preBlock_withSettings, harmonicLoop_withSettings]
  rfl

/-- A result whose next state has other contents in the settings registers. -/
def CmdResult.withSettings : CmdResult → Settings → CmdResult
  | .performed t, T => .performed (t.withSettings T)
  | .raised c, _ => .raised c

theorem CmdResult.withSettings_check {p : Prop} [Decidable p] (c : ErrCode) (r : CmdResult) :
    (if p then .raised c else r : CmdResult).withSettings T =
      if p then .raised c else r.withSettings T := by
  split <;> rfl

theorem complete_withSettings (s : State) (r : CmdResult) :
    complete (s.withSettings T) (r.withSettings T) = (complete s r).withSettings T := by
  cases r <;> rfl

/-- A pending command's checks and effect commute with a change of the settings registers. -/
theorem perform_withSettings {s : State} {c : Pending} (hc : s.pending = some c) (i : Instr) :
    perform i (s.withSettings T) = (perform i s).withSettings T := by
  have hsnap := State.snap_withSettings T hc
  cases i with
  | nop => rfl
  | prepare =>
    show performPrepare _ = (performPrepare s).withSettings T
    rw [performPrepare_eq, performPrepare_eq, hsnap, State.prepare_withSettings T hc,
      CmdResult.withSettings_check]
    rfl
  | reset => rfl
  | process n =>
    show performProcess n _ = (performProcess n s).withSettings T
    rw [performProcess_eq, performProcess_eq, hsnap, processBlock_withSettings]
    simp only [CmdResult.withSettings_check]
    rfl
  | oscSetfreq =>
    show performOscSetfreq _ = (performOscSetfreq s).withSettings T
    rw [performOscSetfreq_eq, performOscSetfreq_eq, hsnap, CmdResult.withSettings_check]
    rfl
  | oscAdvance n =>
    show performOscAdvance n _ = (performOscAdvance n s).withSettings T
    rw [performOscAdvance_eq, performOscAdvance_eq, oscAdvance_withSettings]
    simp only [CmdResult.withSettings_check]
    rfl
  | oscReset => rfl

end WithSettings

/-- Settles O11: an issue latches the registers, and a performance commutes with a change of them. -/
theorem performanceReadsItsSnapshotOnly : Obligations.PerformanceReadsItsSnapshotOnly := by
  refine ⟨fun s w hidle => ?_, fun i s c T hc => ⟨_, exec_eq i s, ?_⟩⟩
  · rw [State.writeCmd_of_idle w hidle, State.issue_pending]
  · calc exec i (s.withSettings T)
      _ = .next (complete (s.withSettings T) (perform i (s.withSettings T))) := exec_eq i _
      _ = .next ((complete s (perform i s)).withSettings T) := by
        rw [perform_withSettings T hc, complete_withSettings]

end Sys2Proof.Machine

/-! The oscillator (40_oscillator.md): its three commands, PROCESS as its driver, and what moves the
phase. -/

namespace Sys2Proof.Machine

open Sys2Proof.Claims

/-! ### The primitives R81 and R82 -/

/-- A frequency that is finite and positive, with a finite ratio, sets the increment and keeps the
phase. -/
theorem Osc.setFrequency_of_active (o : Osc) {f sr : Word} (hf : isPositive32 f = true)
    (hr : isFinite32 (div32 f sr) = true) :
    o.setFrequency f sr = ⟨o.p, incrementOf (div32 f sr), true⟩ :=
  if_pos (by rw [hf, hr]; rfl)

theorem Osc.setFrequency_of_inactive (o : Osc) {f sr : Word}
    (h : isPositive32 f = false ∨ isFinite32 (div32 f sr) = false) : o.setFrequency f sr = Osc.off :=
  if_neg (by rcases h with h | h <;> simp [h])

theorem Osc.setFrequency_cases (o : Osc) (f sr : Word) :
    o.setFrequency f sr = ⟨o.p, incrementOf (div32 f sr), true⟩ ∨ o.setFrequency f sr = Osc.off :=
  ite_eq_or_eq _ _ _

/-- Setting the same frequency again, any number of samples later, changes nothing. -/
theorem Osc.setFrequency_after_setFrequency (o : Osc) (f sr : Word) (k : Nat) :
    ((o.setFrequency f sr).after k).setFrequency f sr = (o.setFrequency f sr).after k := by
  unfold Osc.setFrequency
  split <;> rfl

theorem Osc.after_eq (o : Osc) (k : Nat) :
    o.after k = if o.en then ⟨o.p + BitVec.ofNat 32 k * o.inc, o.inc, true⟩ else o := by
  unfold Osc.after
  split
  · next hen => rw [hen]
  · rfl

theorem Osc.sample_after (o : Osc) (k : Nat) :
    (o.after k).sample = if o.en then cfgSin (o.p + BitVec.ofNat 32 k * o.inc) else F32.zero := by
  unfold Osc.sample
  rw [Osc.after_en, Osc.after_eq]
  split <;> rfl

/-- Read after write within one buffer, the words past its end included. -/
theorem State.buf_setBuf_within (s : State) (b : Buf) (k k' : Nat) (w : Word) :
    (s.setBuf b k w).buf b k' = if k' = k then w else s.buf b k' := by
  unfold State.buf State.setBuf
  split
  · next h => rw [h]; exact Memory.readWord_writeWord_same _ _ _
  · next h => exact Memory.readWord_writeWord_other _ _ _ _ (by unfold wordAddr; omega)

/-- The samples of `OscAdvance(n)` for every `n` (R82, R84). -/
theorem oscAdvance_sample_unbounded (n : Nat) (s : State) {k : Nat} (hk : k < n) :
    (oscAdvance n s).buf .mod k = (s.osc.after k).sample := by
  induction n with
  | zero => omega
  | succ n ih =>
    calc (oscAdvance (n + 1) s).buf .mod k
      _ = ((oscAdvance n s).setBuf .mod n (oscAdvance n s).osc.sample).buf .mod k := rfl
      _ = if k = n then (oscAdvance n s).osc.sample else (oscAdvance n s).buf .mod k :=
        State.buf_setBuf_within _ _ _ _ _
      _ = (s.osc.after k).sample := by
        split
        · next h => rw [oscAdvance_osc, h]
        · next h => exact ih (by omega)

/-! ### The commands once their checks pass (R88 to R90) -/

theorem exec_oscSetfreq_of_prepared (a : Nat) {s : State} (hp : s.prepared = true) :
    exec (.oscSetfreq a) s = .next
      { s with osc := s.osc.setFrequency s.snap.oscFreq s.liveSr, pending := none, done := true } := by
  rw [exec_eq, perform, performOscSetfreq_eq, if_neg (by simp [hp])]
  rfl

theorem exec_oscAdvance_of_accepted {n : Nat} {s : State} (hp : s.prepared = true)
    (hn : n ≤ s.liveMaxblk.val) : exec (.oscAdvance n) s = .next (oscAdvance n s).finish := by
  rw [exec_eq, perform, performOscAdvance_eq, if_neg (by simp [hp]), if_neg (by simp [State.lengthOk, hn])]
  rfl

theorem exec_process_of_accepted {n : Nat} {s : State} (h : ProcessAccepted s n) :
    exec (.process n) s = .next (processBlock s.snap n s).finish := by
  obtain ⟨hp, hn, hlegal⟩ := h
  rw [exec_eq, perform, performProcess_eq, if_neg (by simp [hp]), if_neg (by simp [State.lengthOk, hn]),
    if_neg (by simp [hlegal])]
  rfl

/-- What advancing the oscillator `o` by `n` samples leaves: `o` after them in the oscillator, and its
samples in MOD (R82). -/
structure State.HoldsAdvance (t : State) (o : Osc) (n : Nat) : Prop where
  osc : t.osc = o.after n
  sample : ∀ k, k < n → t.buf .mod k = (o.after k).sample

/-- All that an accepted OSC_ADVANCE does. -/
theorem exec_oscAdvance_effect {n : Nat} {s : State} (hp : s.prepared = true)
    (hn : n ≤ s.liveMaxblk.val) :
    ∃ t, exec (.oscAdvance n) s = .next t ∧ t.HoldsAdvance s.osc n ∧
      t = { s with osc := s.osc.after n, mem := t.mem, pending := none, done := true } ∧
      (∀ a, (∀ k, k < n → Outside a .mod k) → t.mem.readByte a = s.mem.readByte a) := by
  refine ⟨_, exec_oscAdvance_of_accepted hp hn,
    ⟨oscAdvance_osc n s, fun k hk => oscAdvance_sample_unbounded n s hk⟩, ?_,
    fun a ha => (oscAdvance_writes n s).bytes a ?_⟩
  · rw [← oscAdvance_osc, oscAdvance_frame]
    rfl
  · rintro _ k ⟨rfl, hk⟩
    exact ha k hk

/-- Settles O31: OSC_RESET has no check, and its effect is the phase. -/
theorem oscResetZeroesThePhaseOnly : Obligations.OscResetZeroesThePhaseOnly :=
  fun a s => exec_eq (.oscReset a) s

/-- Settles O32: the increment is `RNE_int` of the scaled ratio, which is nearest (`nearestEven_rneInt`). -/
theorem oscSetfreqSetsTheNearestIncrement : Obligations.OscSetfreqSetsTheNearestIncrement := by
  intro a s hp
  rw [exec_oscSetfreq_of_prepared a hp]
  refine ⟨fun hf hr => ⟨_, nearestEven_rneInt _, ?_⟩, fun h => ?_⟩
  · rw [Osc.setFrequency_of_active _ hf hr]
    rfl
  · rw [Osc.setFrequency_of_inactive _ h]
    rfl

/-- Settles O33: the effect of OSC_ADVANCE with the oscillator enabled. -/
theorem oscAdvanceWritesTheSine : Obligations.OscAdvanceWritesTheSine := by
  intro n s hp hn hen
  obtain ⟨t, hexec, hadv, hframe, hbytes⟩ := exec_oscAdvance_effect hp hn
  rw [Osc.after_eq, if_pos hen] at hframe
  refine ⟨t, hexec, hframe, fun k hk => ?_, hbytes⟩
  rw [hadv.sample k hk, Osc.sample_after, if_pos hen]

/-- Settles O34: a disabled oscillator's sample is +0.0 and any number of samples leave it. -/
theorem oscAdvanceWhileDisabledIsSilent : Obligations.OscAdvanceWhileDisabledIsSilent := by
  intro n s hoff
  have hafter (k : Nat) : s.osc.after k = s.osc := by rw [Osc.after_eq, hoff]; rfl
  have hsilent (k : Nat) : (s.osc.after k).sample = 0 := by rw [Osc.sample_after, hoff]; rfl
  refine ⟨⟨(oscAdvance_osc n s).trans (hafter n), fun k hk _ =>
    (oscAdvance_sample_unbounded n s hk).trans (hsilent k)⟩, fun hp hn => ?_⟩
  obtain ⟨t, hexec, hadv, hframe, hbytes⟩ := exec_oscAdvance_effect hp hn
  rw [hafter] at hframe
  exact ⟨t, hexec, hframe, fun k hk => (hadv.sample k hk).trans (hsilent k), hbytes⟩

/-! ### PROCESS and its modulator (R87, R115) -/

/-- A word of a buffer that is not written reads as before. -/
theorem State.buf_of_writesOnly {ok : Buf → Prop} {n : Nat} {s t : State}
    (h : Memory.WritesOnly (fun b k => ok b ∧ k < n) s.mem t.mem) (hn : n ≤ 4096) {b : Buf}
    (hb : ¬ok b) {k : Nat} (hk : k < 4096) : t.buf b k = s.buf b k :=
  h.word hk (fun _ _ ⟨_, hk'⟩ => hk'.trans_le hn) fun hok => hb hok.1

/-- After the oscillator's part of a block nothing writes MOD: not the noise, the output clear or the
harmonics. -/
theorem processBlock_mod (S : Settings) {n : Nat} (s : State) (hn : n ≤ 4096) {k : Nat} (hk : k < 4096) :
    (processBlock S n s).buf .mod k = (modulate S n s).buf .mod k := by
  have hloop : (processBlock S n s).buf .mod k = (preBlock S n s).buf .mod k :=
    State.buf_of_writesOnly (t := processBlock S n s)
      (harmonicLoop_writes S n S.n 0 (preBlock S n s)) hn (by decide) hk
  have hnoise := State.buf_of_writesOnly (noisePrepass_writes n (modulate S n s)) hn (b := .mod)
    (by decide) hk
  have hclear (t : State) := State.buf_of_writesOnly (clearOutput_writes n t) hn (b := .mod) (by decide) hk
  rw [hloop, preBlock, hclear]
  split
  · exact hnoise
  · rfl

/-- The modulation values of a block: the block's oscillator, sample by sample. -/
theorem processBlock_sample (S : Settings) {n : Nat} (s : State) (hn : n ≤ 4096) {k : Nat} (hk : k < n) :
    (processBlock S n s).buf .mod k = ((s.osc.forBlock S s.liveSr).after k).sample :=
  (processBlock_mod S s hn (hk.trans_le hn)).trans (modulate_sample S n s hn k hk)

/-- What an accepted PROCESS does to the oscillator and MOD, and which fields it may change at all. -/
theorem exec_process_effect {n : Nat} {s : State} (h : ProcessAccepted s n) :
    ∃ t, exec (.process n) s = .next t ∧ t.HoldsAdvance (s.osc.forBlock s.snap s.liveSr) n ∧
      t = { s with osc := t.osc, ch := t.ch, mem := t.mem, hdone := t.hdone, drawn := t.drawn,
                   pending := none, done := true } := by
  have ⟨_, hlimit, _⟩ := h
  have hn : n ≤ 4096 := hlimit.trans (Nat.le_of_lt_succ s.liveMaxblk.isLt)
  refine ⟨_, exec_process_of_accepted h,
    ⟨processBlock_osc s.snap n s, fun k hk => processBlock_sample s.snap s hn hk⟩, ?_⟩
  rw [processBlock_frame]
  rfl

theorem Osc.forBlock_of_no_target (o : Osc) {S : Settings} (sr : Word) (h : S.anyMod = false) :
    o.forBlock S sr = Osc.off := by
  rw [forBlock, h]
  exact Osc.setFrequency_of_inactive o (.inl (by decide +kernel : isPositive32 F32.zero = false))

/-- Settles O54: PROCESS advances the block's oscillator, whose samples are MOD. -/
theorem processDrivesTheOscillator : Obligations.ProcessDrivesTheOscillator := by
  intro n s h
  obtain ⟨t, hexec, hadv, -⟩ := exec_process_effect h
  exact ⟨t, s.osc.forBlock s.snap s.liveSr, hexec, rfl, Osc.forBlock_of_no_target _ _,
    hadv.osc.trans (Osc.after_eq _ n), fun k hk => (hadv.sample k hk).trans (Osc.sample_after _ k)⟩

/-! ### Two blocks and one (R86) -/

/-- An advance by `m` and one by `n` from there leave what one by `m + n` does. -/
theorem State.HoldsAdvance.two_blocks {o : Osc} {m n : Nat} {a b c : State} (ha : a.HoldsAdvance o m)
    (hb : b.HoldsAdvance a.osc n) (hc : c.HoldsAdvance o (m + n)) :
    b.osc = c.osc ∧ (∀ k, k < m → a.buf .mod k = c.buf .mod k) ∧
      (∀ k, k < n → b.buf .mod k = c.buf .mod (m + k)) := by
  rw [ha.osc] at hb
  refine ⟨?_, fun k hk => ?_, fun k hk => ?_⟩
  · rw [hb.osc, hc.osc, Osc.after_add]
  · rw [ha.sample k hk, hc.sample k (by omega)]
  · rw [hb.sample k hk, hc.sample (m + k) (by omega), Osc.after_add]

/-- Settles O35: the second block starts at the oscillator the first one left; PROCESS sets it again, at
the same rate, which changes nothing. -/
theorem phaseContinuesAcrossBlocks : Obligations.PhaseContinuesAcrossBlocks := by
  refine ⟨fun m n s hp hmn => ?_, fun m n s ⟨hp, hmn, hlegal⟩ => ?_⟩
  · obtain ⟨a, hexecA, hadvA, hframe, -⟩ := exec_oscAdvance_effect hp (n := m) (by omega)
    have hpA : a.prepared = true := by rw [hframe]; exact hp
    have hlimit : a.liveMaxblk = s.liveMaxblk := by rw [hframe]
    obtain ⟨b, hexecB, hadvB, -⟩ := exec_oscAdvance_effect hpA (n := n) (by omega)
    obtain ⟨c, hexecC, hadvC, -⟩ := exec_oscAdvance_effect hp hmn
    exact ⟨a, b, c, hexecA, hexecB, hexecC, hadvA.two_blocks hadvB hadvC⟩
  · obtain ⟨a, hexecA, hadvA, hframe⟩ := exec_process_effect (n := m) ⟨hp, by omega, hlegal⟩
    have hagain : ProcessAccepted { a with pending := s.pending } n := by
      rw [hframe]
      exact ⟨hp, by dsimp only; omega, hlegal⟩
    have hosc : a.osc.forBlock ({ a with pending := s.pending } : State).snap a.liveSr = a.osc := by
      have hsnap : ({ a with pending := s.pending } : State).snap = s.snap := by rw [hframe]; rfl
      have hrate : a.liveSr = s.liveSr := by rw [hframe]
      rw [hsnap, hrate, hadvA.osc]
      exact Osc.setFrequency_after_setFrequency _ _ _ m
    obtain ⟨b, hexecB, hadvB, -⟩ := exec_process_effect hagain
    obtain ⟨c, hexecC, hadvC, -⟩ := exec_process_effect ⟨hp, hmn, hlegal⟩
    rw [hosc] at hadvB
    exact ⟨a, b, c, hexecA, hexecB, hexecC, hadvA.two_blocks hadvB hadvC⟩

/-! ### What moves the phase (R86) -/

theorem State.writeReg_osc (s : State) (v : Word) (r : Reg) : (s.writeReg v r).osc = s.osc := by
  obtain h | h | ⟨S, e, h⟩ := s.writeReg_cases v r <;> rw [h]
  · unfold State.writeCmd
    split <;> rfl
  · rfl

/-- No bus write reaches the oscillator (10_state.md R33). -/
theorem State.busWrite_osc (s : State) (a : BusAddr) (z : AccessSize) (v : Word) :
    (s.busWrite a z v).osc = s.osc := by
  obtain h | h | ⟨r, h⟩ | ⟨-, b, k, -, -, h⟩ := s.busWrite_cases a z v
  · rw [h]; rfl
  · rw [h]
  · rw [h]; exact s.writeReg_osc v r
  · rw [h]; rfl

/-- The host moves the oscillator only by the reset pin. -/
theorem hostStep_osc {s t : State} (h : hostStep s = .next t) :
    t.osc = s.osc ∨ ∃ level rest, s.host = .rst level :: rest ∧ (s.rstN = false ∨ level = false) := by
  unfold hostStep at h
  cases hh : s.host with
  | nil =>
    rw [hh] at h
    cases h
    exact .inl rfl
  | cons op rest =>
    rw [hh] at h
    cases op with
    | read a z =>
      obtain ⟨-, rfl⟩ := whenOutOfReset_next.1 h
      exact .inl (by rw [State.busRead_eq]; rfl)
    | write a z v =>
      obtain ⟨-, rfl⟩ := whenOutOfReset_next.1 h
      exact .inl (State.busWrite_osc _ a z v)
    | wait =>
      obtain ⟨-, rfl⟩ := whenOutOfReset_next.1 h
      exact .inl (by rw [waitStep_eq, State.busRead_eq])
    | rst level =>
      cases h
      obtain ⟨-, -, hkeep⟩ | ⟨hlow, -⟩ := (s.withHost rest).driveReset_cases level
      · exact .inl (by rw [hkeep]; rfl)
      · exact .inr ⟨level, rest, rfl, hlow⟩

/-- A check raises its code, which keeps the oscillator, or leaves the rest to decide. -/
theorem complete_check_osc {p : Prop} [Decidable p] {s : State} {c : ErrCode} {r : CmdResult} {o : Osc}
    (h : (complete s r).osc = s.osc ∨ (complete s r).osc = o) :
    (complete s (if p then .raised c else r)).osc = s.osc ∨
      (complete s (if p then .raised c else r)).osc = o := by
  split
  · exact .inl rfl
  · exact h

theorem complete_oscSetfreq_osc (a : Nat) (s : State) :
    (complete s (perform (.oscSetfreq a) s)).osc = s.osc ∨
      (complete s (perform (.oscSetfreq a) s)).osc = s.osc.setFrequency s.snap.oscFreq s.liveSr := by
  rw [perform, performOscSetfreq_eq]
  exact complete_check_osc (.inr rfl)

theorem complete_oscAdvance_osc (n : Nat) (s : State) :
    (complete s (perform (.oscAdvance n) s)).osc = s.osc ∨
      (complete s (perform (.oscAdvance n) s)).osc = s.osc.after n := by
  rw [perform, performOscAdvance_eq]
  exact complete_check_osc (complete_check_osc (.inr (oscAdvance_osc n s)))

theorem complete_process_osc (n : Nat) (s : State) :
    (complete s (perform (.process n) s)).osc = s.osc ∨
      (complete s (perform (.process n) s)).osc = (s.osc.forBlock s.snap s.liveSr).after n := by
  rw [perform, performProcess_eq]
  exact complete_check_osc (complete_check_osc (complete_check_osc (.inr (processBlock_osc s.snap n s))))

/-- The events of R86 that are performances: `t` comes from `s` by the command `i`. -/
def PhaseEvent (s t : State) (i : Instr) : Prop :=
  (∃ a, i = .prepare a) ∨ (∃ a, i = .oscReset a) ∨
    (∃ n, i = .oscAdvance n ∧ s.osc.en = true) ∨
    (∃ a, i = .oscSetfreq a ∧ t.osc = ⟨0, 0, false⟩) ∨
    (∃ n, i = .process n ∧ (t.osc = ⟨0, 0, false⟩ ∨
      (t.osc.en = true ∧ t.osc.p = s.osc.p + BitVec.ofNat 32 n * t.osc.inc)))

/-- A block's oscillator ends at rest, or advanced by the block from the phase it had before. -/
theorem Osc.forBlock_after (o : Osc) (S : Settings) (sr : Word) (n : Nat) :
    (o.forBlock S sr).after n = Osc.off ∨
      (((o.forBlock S sr).after n).en = true ∧
        ((o.forBlock S sr).after n).p = o.p + BitVec.ofNat 32 n * ((o.forBlock S sr).after n).inc) := by
  unfold forBlock
  obtain h | h := o.setFrequency_cases (if S.anyMod then S.rate else F32.zero) sr <;> rw [h]
  · exact .inr ⟨rfl, rfl⟩
  · exact .inl rfl

/-- A performance that moves the phase is an event of R86, command by command. -/
theorem phaseEvent_of_performance {s t : State} {i : Instr} (ht : t = complete s (perform i s))
    (hp : t.osc.p ≠ s.osc.p) : PhaseEvent s t i := by
  have hmoved : t.osc ≠ s.osc := fun h => hp (congrArg Osc.p h)
  cases i with
  | nop => exact absurd (congrArg State.osc ht) hmoved
  | prepare a => exact .inl ⟨a, rfl⟩
  | reset => exact absurd (congrArg State.osc ht) hmoved
  | process n =>
    have hosc := (ht ▸ complete_process_osc n s).resolve_left hmoved
    have hend := s.osc.forBlock_after s.snap s.liveSr n
    rw [← hosc] at hend
    exact .inr (.inr (.inr (.inr ⟨n, rfl, hend⟩)))
  | oscSetfreq a =>
    have hosc := (ht ▸ complete_oscSetfreq_osc a s).resolve_left hmoved
    obtain hset | hoff := s.osc.setFrequency_cases s.snap.oscFreq s.liveSr
    · exact absurd (by rw [hosc, hset]) hp
    · exact .inr (.inr (.inr (.inl ⟨a, rfl, hosc.trans hoff⟩)))
  | oscAdvance n =>
    have hosc := (ht ▸ complete_oscAdvance_osc n s).resolve_left hmoved
    have hen : s.osc.en = true := by
      by_contra hoff
      exact hmoved (by rw [hosc, Osc.after_eq, if_neg hoff])
    exact .inr (.inr (.inl ⟨n, rfl, hen⟩))
  | oscReset a => exact .inr (.inl ⟨a, rfl⟩)

/-- The engine moves the oscillator only by the performance of a command: a reserved opcode's refusal
keeps it (R71). -/
theorem engineStep_osc {s t : State} (h : engineStep s = .next t) :
    t.osc = s.osc ∨ ∃ c i, s.pending = some c ∧ decode c.word = .ok i ∧
      t = complete s (perform i s) := by
  cases hc : s.pending with
  | none =>
    rw [engineStep, hc] at h
    cases h
    exact .inl rfl
  | some c =>
    cases hd : decode c.word with
    | ok i =>
      rw [engineStep_of_decode hc hd, exec_eq] at h
      cases h
      exact .inr ⟨c, i, rfl, hd, rfl⟩
    | error e =>
      rw [engineStep_of_badOpcode hc hd] at h
      cases h
      exact .inl rfl

/-- Settles O36: the host moves the phase by the reset pin only, the engine by the performances of
`PhaseEvent` only. -/
theorem phaseMovesOnlyByNamedEvents : Obligations.PhaseMovesOnlyByNamedEvents := by
  intro s t hstep hp
  have hmoved : t.osc ≠ s.osc := fun h => hp (congrArg Osc.p h)
  cases ha : s.nextAgent with
  | host =>
    rw [step_of_host ha] at hstep
    exact .inl ⟨rfl, (hostStep_osc hstep).resolve_left hmoved⟩
  | engine =>
    rw [step_of_engine ha] at hstep
    obtain ⟨c, i, hc, hd, ht⟩ := (engineStep_osc hstep).resolve_left hmoved
    exact .inr ⟨rfl, c, i, hc, hd, phaseEvent_of_performance (s := s.takeTurn) ht hp⟩

end Sys2Proof.Machine

/-! Values that rounding keeps, how far it moves the others, and the order of finite numbers (00_scope.md
R12, R13). -/

namespace Sys2Proof.Machine

open Sys2Proof.Claims

/-! ### Values that binary32 holds -/

theorem isPositive32_iff (w : Word) :
    isPositive32 w = true ↔ isFinite32 w = true ∧ 0 < F32.toRat w := by
  unfold isPositive32
  rw [Bool.and_eq_true, and_congr_right_iff]
  intro hw
  rw [lt32_finite F32.finite_zero hw, F32.toRat_zero, decide_eq_true_iff]

theorem sign_rne32 (q : Rat) : F32.sign (rne32 q) = decide (q < 0) := by
  rw [rne32_eq_ofParts, F32.sign_ofParts _ (rneMagnitude_le _)]

theorem roundSigned_false {q : Rat} (h : 0 ≤ q) : roundSigned false q = rne32 q := by
  rw [rne32, decide_eq_false (not_lt.2 h)]

theorem rne32_toRat {w : Word} (hw : isFinite32 w = true) (h0 : F32.toRat w ≠ 0) :
    rne32 (F32.toRat w) = w := by
  rw [rne32, ← F32.sign_eq_of_toRat_ne_zero hw h0, roundSigned_toRat hw]

/-- Rounding keeps the value of a finite encoding (of a zero perhaps not the sign). -/
theorem toRat_rne32_toRat {w : Word} (hw : isFinite32 w = true) :
    isFinite32 (rne32 (F32.toRat w)) = true ∧ F32.toRat (rne32 (F32.toRat w)) = F32.toRat w := by
  by_cases h0 : F32.toRat w = 0
  · rw [h0]
    decide +kernel
  · rw [rne32_toRat hw h0]
    exact ⟨hw, rfl⟩

theorem abs_toRat_lt {w : Word} (hw : isFinite32 w = true) : |F32.toRat w| < 2 ^ 128 - 2 ^ 103 :=
  (isFinite32_rne32_iff_abs_lt _).1 (toRat_rne32_toRat hw).1

/-- What is no larger than a finite value rounds to a finite one. -/
theorem isFinite32_rne32_of_abs_le {q : Rat} {w : Word} (hw : isFinite32 w = true)
    (h : |q| ≤ |F32.toRat w|) : isFinite32 (rne32 q) = true :=
  (isFinite32_rne32_iff_abs_lt q).2 (h.trans_lt (abs_toRat_lt hw))

/-- Rounding does not pass below a value that binary32 holds. -/
theorem toRat_le_toRat_rne32 {w : Word} {q : Rat} (hw : isFinite32 w = true)
    (hq : isFinite32 (rne32 q) = true) (h : F32.toRat w ≤ q) : F32.toRat w ≤ F32.toRat (rne32 q) := by
  obtain ⟨hfin, hval⟩ := toRat_rne32_toRat hw
  have hle := le32_rne32 h
  rwa [le32_finite hfin hq, hval, decide_eq_true_iff] at hle

/-- Nor above one. -/
theorem toRat_rne32_le_toRat {w : Word} {q : Rat} (hw : isFinite32 w = true)
    (hq : isFinite32 (rne32 q) = true) (h : q ≤ F32.toRat w) : F32.toRat (rne32 q) ≤ F32.toRat w := by
  obtain ⟨hfin, hval⟩ := toRat_rne32_toRat hw
  have hle := le32_rne32 h
  rwa [le32_finite hq hfin, hval, decide_eq_true_iff] at hle

/-! ### Dyadic fractions -/

/-- Every significand up to `2^24`, at every exponent, has magnitude bits. -/
theorem exists_units_eq (k : Nat) {n : Nat} (hn : n ≤ 2 ^ 24) : ∃ m, F32.units m = n * 2 ^ k := by
  induction k generalizing n with
  | zero => exact ⟨_, F32.units_significand (.inl rfl) hn⟩
  | succ k ih =>
    rcases Nat.lt_or_ge n (2 ^ 23) with hlow | hhigh
    · obtain ⟨m, hm⟩ := ih (n := 2 * n) (by omega)
      exact ⟨m, by rw [hm, pow_succ]; ring⟩
    · exact ⟨_, F32.units_significand (.inr hhigh) hn⟩

/-- The value of non-negative magnitude bits below those of infinity. -/
theorem F32.toRat_ofParts_false {m : Nat} (hm : m < 0x7F800000) :
    isFinite32 (F32.ofParts false m) = true ∧
      F32.toRat (F32.ofParts false m) = F32.units m / 2 ^ 149 := by
  constructor
  · rw [isFinite32_iff, F32.expField_ofParts _ hm.le]
    omega
  · rw [F32.toRat, F32.value_ofParts _ hm.le, if_neg hm.ne]
    exact F32.finiteMagnitude_eq_units m

theorem exists_toRat_eq_nat {n k : Nat} (hn : n ≤ 2 ^ 24) (hk : k ≤ 149) :
    ∃ w, isFinite32 w = true ∧ F32.toRat w = n / 2 ^ k := by
  obtain ⟨m, hm⟩ := exists_units_eq (149 - k) hn
  have hlt : m < 0x7F800000 := by
    by_contra hge
    have hinf : 2 ^ 174 ≤ F32.units m :=
      le_trans (by decide +kernel) (F32.units_mono (Nat.le_of_not_lt hge))
    have hle : F32.units m ≤ 2 ^ 24 * 2 ^ 149 := by
      rw [hm]
      exact Nat.mul_le_mul hn (Nat.pow_le_pow_right (by norm_num) (by omega))
    exact absurd (hinf.trans hle) (by norm_num)
  obtain ⟨hfin, hval⟩ := F32.toRat_ofParts_false hlt
  refine ⟨_, hfin, ?_⟩
  rw [hval, hm, div_eq_div_iff (by positivity) (by positivity)]
  push_cast
  rw [mul_assoc, ← pow_add, Nat.sub_add_cancel hk]

/-- Binary32 holds every fraction `z / 2^k` with `|z|` up to `2^24`. -/
theorem exists_toRat_eq {z : Int} {k : Nat} (hz : |z| ≤ 2 ^ 24) (hk : k ≤ 149) :
    ∃ w, isFinite32 w = true ∧ F32.toRat w = z / 2 ^ k := by
  obtain ⟨n, rfl | rfl⟩ := Int.eq_nat_or_neg z
  · rw [Nat.abs_cast] at hz
    exact exists_toRat_eq_nat (by exact_mod_cast hz) hk
  · rw [abs_neg, Nat.abs_cast] at hz
    obtain ⟨w, hfin, hval⟩ := exists_toRat_eq_nat (n := n) (by exact_mod_cast hz) hk
    refine ⟨neg32 w, by rw [isFinite32_neg32, hfin], ?_⟩
    rw [F32.toRat_neg32 hfin, hval]
    push_cast
    ring

/-- Such a fraction is not rounded. -/
theorem toRat_rne32_dyadic {z : Int} {k : Nat} (hz : |z| ≤ 2 ^ 24) (hk : k ≤ 149) :
    isFinite32 (rne32 (z / 2 ^ k)) = true ∧ F32.toRat (rne32 (z / 2 ^ k)) = z / 2 ^ k := by
  obtain ⟨w, hfin, hval⟩ := exists_toRat_eq hz hk
  rw [← hval]
  exact toRat_rne32_toRat hfin

/-- Small integers are exact (`f32(j)` of R12). -/
theorem toRat_f32 {j : Nat} (hj : j ≤ 2 ^ 24) :
    isFinite32 (f32 j) = true ∧ F32.toRat (f32 j) = j := by
  have h := toRat_rne32_dyadic (z := j) (k := 0) (by rw [Nat.abs_cast]; exact_mod_cast hj) (by omega)
  simpa [f32] using h

/-- In [-1, 1] rounding moves a value by at most `2^-24`: a multiple of that is as near. -/
theorem toRat_rne32_near {q : Rat} (h : |q| ≤ 1) :
    isFinite32 (rne32 q) = true ∧ |F32.toRat (rne32 q) - q| ≤ 1 / 2 ^ 24 := by
  have hfin : isFinite32 (rne32 q) = true :=
    (isFinite32_rne32_iff_abs_lt q).2 (h.trans_lt (by norm_num))
  obtain ⟨z, hlow, hhigh⟩ : ∃ z : Int, (z : Rat) ≤ q * 2 ^ 24 ∧ q * 2 ^ 24 < z + 1 :=
    ⟨_, Int.floor_le _, Int.lt_floor_add_one _⟩
  have hz : |z| ≤ 2 ^ 24 := by
    obtain ⟨hq, hq'⟩ := abs_le.1 h
    have hmin : ((-2 ^ 24 : Int) : Rat) < ((z + 1 : Int) : Rat) := by push_cast; linarith
    have hmax : (z : Rat) ≤ ((2 ^ 24 : Int) : Rat) := by push_cast; linarith
    exact abs_le.2 ⟨Int.le_of_lt_add_one (Int.cast_lt.1 hmin), Int.cast_le.1 hmax⟩
  obtain ⟨w, hw, hval⟩ := exists_toRat_eq hz (k := 24) (by omega)
  refine ⟨hfin, (rne32_nearest hfin hw).1.trans ?_⟩
  rw [hval, abs_le]
  constructor <;> linarith

/-! ### Order -/

/-- The comparisons of a finite value with 0 and 1 are those of its rational. -/
theorem compare_zero_one {t : Word} (ht : isFinite32 t = true) :
    (lt32 t F32.zero = true ↔ F32.toRat t < 0) ∧ (lt32 F32.zero t = true ↔ 0 < F32.toRat t) ∧
      (eq32 t F32.zero = true ↔ F32.toRat t = 0) ∧ (lt32 t F32.one = true ↔ F32.toRat t < 1) ∧
      (le32 F32.one t = true ↔ 1 ≤ F32.toRat t) := by
  simp only [lt32_finite, le32_finite, eq32_finite, ht, F32.finite_zero, F32.finite_one, F32.toRat_zero,
    F32.toRat_one, decide_eq_true_iff, and_self]

/-- The order of R12 is total on finite numbers. -/
theorem le32_of_not_lt32 {a b : Word} (ha : isFinite32 a = true) (hb : isFinite32 b = true)
    (h : lt32 b a = false) : le32 a b = true := by
  rw [lt32_finite hb ha, decide_eq_false_iff_not, not_lt] at h
  rw [le32_finite ha hb, decide_eq_true_iff]
  exact h

theorem not_lt32_of_le32 {a b : Word} (ha : isFinite32 a = true) (hb : isFinite32 b = true)
    (h : le32 a b = true) : lt32 b a = false := by
  rw [le32_finite ha hb, decide_eq_true_iff] at h
  rw [lt32_finite hb ha, decide_eq_false_iff_not, not_lt]
  exact h

theorem F32.value_of_not_finite {w : Word} (h : isFinite32 w = false) :
    F32.value w = .nan ∨ ∃ s, F32.value w = .inf s := by
  have he : F32.expField w = 255 := by simpa [isFinite32] using h
  unfold F32.value
  dsimp only
  rw [if_pos he]
  split
  · exact .inr ⟨_, rfl⟩
  · exact .inl rfl

/-- What lies between two finite numbers is finite. -/
theorem isFinite32_of_between {a w b : Word} (ha : isFinite32 a = true) (hb : isFinite32 b = true)
    (haw : le32 a w = true) (hwb : le32 w b = true) : isFinite32 w = true := by
  by_contra hw
  rcases F32.value_of_not_finite (Bool.eq_false_of_not_eq_true hw) with hnan | ⟨s, hinf⟩
  · obtain ⟨-, hle, -⟩ := compare_nan_right a hnan
    exact Bool.false_ne_true (hle.symm.trans haw)
  · have hlow : (!s) = true := by simpa [le32, F32.value_of_finite ha, hinf] using haw
    have hhigh : s = true := by simpa [le32, F32.value_of_finite hb, hinf] using hwb
    rw [hhigh] at hlow
    exact Bool.false_ne_true hlow

/-! ### Numbers: what is no NaN -/

/-- A finite number or an infinity: no NaN. -/
def IsNumber32 (w : Word) : Prop := isFinite32 w = true ∨ ∃ s, w = infOf s

theorem isNumber32_ofParts (s : Bool) {m : Nat} (hm : m ≤ 0x7F800000) :
    IsNumber32 (F32.ofParts s m) := by
  rcases Nat.eq_or_lt_of_le hm with rfl | hlt
  · exact .inr ⟨s, ofParts_inf s⟩
  · refine .inl ?_
    rw [isFinite32_iff, F32.expField_ofParts s hm]
    omega

theorem isNumber32_roundSigned (s : Bool) (q : Rat) : IsNumber32 (roundSigned s q) :=
  isNumber32_ofParts s (rneMagnitude_le _)

theorem isNumber32_mul32 {a b : Word} (ha : isFinite32 a = true) (hb : isFinite32 b = true) :
    IsNumber32 (mul32 a b) := by
  rw [mul32_finite ha hb]
  exact isNumber32_roundSigned _ _

/-- A finite number plus any number is a number: the overflow of the other operand stays one. -/
theorem isNumber32_add32 {a b : Word} (ha : isFinite32 a = true) (hb : IsNumber32 b) :
    IsNumber32 (add32 a b) := by
  rcases hb with hb | ⟨s, rfl⟩
  · rw [add32_finite ha hb]
    split
    · exact isNumber32_ofParts _ (Nat.zero_le _)
    · exact isNumber32_roundSigned _ _
  · rw [add32_finite_inf ha]
    exact .inr ⟨s, rfl⟩

end Sys2Proof.Machine

/-! The update laws (41_update_engine.md): frequency, resonance, the aliasing guard, and the gains. -/

namespace Sys2Proof.Machine

open Sys2Proof.Claims

/-! ### The frequency law (R92 to R94) -/

/-- Settles O48: what is a zero after the bias becomes `TENTH32`, which is none. -/
theorem effectiveDetuneIsNeverZero : Obligations.EffectiveDetuneIsNeverZero := by
  intro S m d hd
  have heff : detuneEff m S = if eq32 d F32.zero then F32.tenth else d := by rw [hd]; rfl
  rw [heff]
  cases hz : eq32 d F32.zero
  · exact ⟨hz, fun _ => rfl, fun h => absurd h Bool.false_ne_true⟩
  · have htenth : eq32 F32.tenth F32.zero = false := by decide +kernel
    exact ⟨htenth, fun h => absurd h.symm Bool.false_ne_true, fun _ => rfl⟩

/-- What legal settings give (R117). -/
structure Settings.Legal (S : Settings) : Prop where
  f0 : isPositive32 S.f0 = true
  qbase : isPositive32 S.qbase = true
  curve : isPositive32 S.curve = true
  timbreFinite : isFinite32 S.timbre = true
  timbreNonneg : 0 ≤ F32.toRat S.timbre
  timbreLeOne : F32.toRat S.timbre ≤ 1
  detune : isFinite32 S.detune = true
  depth : isFinite32 S.depth = true
  rate : isFinite32 S.rate = true

theorem Settings.Legal.of_legal {S : Settings} (h : S.legal = true) : S.Legal := by
  simp only [Settings.legal, Bool.and_eq_true] at h
  obtain ⟨⟨⟨⟨⟨⟨hf0, hqbase⟩, hcurve⟩, ⟨htimbre, hnonneg⟩, hleOne⟩, hdetune⟩, hdepth⟩, hrate⟩ := h
  rw [le32_finite F32.finite_zero htimbre, F32.toRat_zero, decide_eq_true_iff] at hnonneg
  rw [le32_finite htimbre F32.finite_one, F32.toRat_one, decide_eq_true_iff] at hleOne
  exact ⟨hf0, hqbase, hcurve, htimbre, hnonneg, hleOne, hdetune, hdepth, hrate⟩

/-- At modulation value zero the factor is exactly `ONE`. -/
theorem modFactor_zero {S : Settings} (hdepth : isFinite32 S.depth = true) :
    modFactor F32.zero S = F32.one := by
  have hzero : mul32 F32.zero S.depth = zeroOf (F32.sign S.depth) := by
    rw [mul32_finite F32.finite_zero hdepth, F32.toRat_zero, zero_mul, roundSigned_zero,
      show F32.sign F32.zero = false from rfl, Bool.false_xor]
  rw [modFactor, hzero]
  cases F32.sign S.depth <;> decide +kernel

theorem fmFactor_zero {S : Settings} (hdepth : isFinite32 S.depth = true) :
    fmFactor F32.zero S = F32.one := by
  unfold fmFactor
  split
  · exact modFactor_zero hdepth
  · rfl

theorem detuneEff_zero {S : Settings} (hdepth : isFinite32 S.depth = true)
    (hdetune : isFinite32 S.detune = true) :
    detuneEff F32.zero S = if eq32 S.detune F32.zero then F32.tenth else S.detune := by
  unfold detuneEff
  rw [modFactor_zero hdepth, mul32_one_right hdetune, ite_self]

/-- The nominal frequency: both factors of R93 are `ONE` (R94). -/
theorem nominal_eq {S : Settings} (h : S.Legal) (i : Nat) :
    nominal i S = mul32 S.f0 (partialPow i F32.zero S) := by
  have hf0 : isFinite32 S.f0 = true := ((isPositive32_iff _).1 h.f0).1
  rw [nominal, freq, fmFactor_zero h.depth, mul32_one_left hf0]

/-- Without FM_EN and DM_EN no part of the frequency reads the modulation value. -/
theorem freq_of_no_target {S : Settings} (hfm : S.fmEn = false) (hdm : S.dmEn = false) (i : Nat)
    (m m' : Word) : freq i m S = freq i m' S := by
  simp [freq, fmFactor, partialPow, detuneEff, hfm, hdm]

/-- Settles O41: the law by the cases of FM_EN, the nominal frequency by `nominal_eq`. -/
theorem nominalFrequencyWrittenOut : Obligations.NominalFrequencyWrittenOut := by
  intro S i
  refine ⟨fun m hfm => ?_, fun m hfm => ?_, fun m m' hfm hdm => freq_of_no_target hfm hdm i m m',
    fun hlegal => ?_⟩
  · rw [freq, fmFactor, if_pos hfm]
    rfl
  · rw [freq, fmFactor, if_neg (by simp [hfm])]
    rfl
  · have h := Settings.Legal.of_legal hlegal
    refine ⟨?_, fun hi => ?_⟩
    · rw [nominal_eq h, partialPow, if_pos rfl, mul32_one_right ((isPositive32_iff _).1 h.f0).1]
    · rw [nominal_eq h, partialPow, if_neg (by omega), detuneEff_zero h.depth h.detune]

/-! ### The resonance (R99) -/

/-- `i/2 + 1` is exact. -/
theorem half_add_one_exact {i : Nat} (hi : i ≤ 199) :
    add32 (div32 (f32 i) (f32 2)) F32.one = rne32 ((i : Rat) / 2 + 1) ∧
      isFinite32 (rne32 ((i : Rat) / 2 + 1)) = true ∧
      F32.toRat (rne32 ((i : Rat) / 2 + 1)) = (i : Rat) / 2 + 1 := by
  obtain ⟨hfi, hvi⟩ := toRat_f32 (j := i) (by omega)
  obtain ⟨hf2, hv2⟩ := toRat_f32 (j := 2) (by omega)
  have hi0 : (0 : Rat) ≤ i := Nat.cast_nonneg i
  have hquot : div32 (f32 i) (f32 2) = rne32 ((i : Rat) / 2) := by
    rw [div32_finite hfi hf2, hvi, hv2, if_neg (by norm_num), f32, f32, sign_rne32, sign_rne32,
      decide_eq_false (not_lt.2 hi0), decide_eq_false (by norm_num), Bool.xor_false,
      Nat.cast_ofNat, roundSigned_false (by linarith)]
  have hhalf := toRat_rne32_dyadic (z := i) (k := 1)
    (by rw [Nat.abs_cast]; exact_mod_cast (by omega : i ≤ 2 ^ 24)) (by omega)
  have hsum := toRat_rne32_dyadic (z := (i + 2 : Nat)) (k := 1)
    (by rw [Nat.abs_cast]; exact_mod_cast (by omega : i + 2 ≤ 2 ^ 24)) (by omega)
  rw [Int.cast_natCast, pow_one] at hhalf hsum
  rw [show ((i + 2 : Nat) : Rat) / 2 = (i : Rat) / 2 + 1 by push_cast; ring] at hsum
  refine ⟨?_, hsum⟩
  rw [hquot, add32_finite hhalf.1 F32.finite_one, hhalf.2, F32.toRat_one, if_neg (by linarith)]

/-- Settles O42: the factor `i/2 + 1` is exact and positive, so only the product rounds. -/
theorem resonanceIsRoundedOnce : Obligations.ResonanceIsRoundedOnce := by
  intro S i hi hq
  obtain ⟨hfactor, hfin, hval⟩ := half_add_one_exact hi
  have hi0 : (0 : Rat) ≤ i := Nat.cast_nonneg i
  rw [resonance, hfactor, mul32_finite hq hfin, hval, sign_rne32,
    decide_eq_false (by linarith : ¬(i : Rat) / 2 + 1 < 0), Bool.xor_false]

/-! ### The curve gain (R100, R101) -/

/-- The step `-1/N` of the curve base, rounded to within `2^-24`. -/
theorem curveStep_near {N : Nat} (h0 : 0 < N) (hN : N ≤ 200) :
    isFinite32 (div32 F32.negOne (f32 N)) = true ∧
      |F32.toRat (div32 F32.negOne (f32 N)) - -1 / N| ≤ 1 / 2 ^ 24 := by
  obtain ⟨hfin, hval⟩ := toRat_f32 (j := N) (by omega)
  have hone : isFinite32 F32.negOne = true ∧ F32.toRat F32.negOne = -1 := by decide +kernel
  have hN1 : (1 : Rat) ≤ N := Nat.one_le_cast.2 h0
  rw [div32_of_ne_zero hone.1 hfin (by rw [hone.2]; norm_num) (by rw [hval]; linarith), hone.2, hval]
  refine toRat_rne32_near ?_
  rw [abs_div, abs_neg, abs_one, Nat.abs_cast]
  exact (div_le_one₀ (by linarith)).2 hN1

/-- The fundamental's base is exactly 1: the product is a zero of either sign. -/
theorem curveBase_zero {S : Settings} (hN : 0 < S.n) : curveBase 0 S = F32.one := by
  have hle : S.n ≤ 200 := Nat.le_of_lt_succ S.hcount.isLt
  obtain ⟨hfin, -⟩ := curveStep_near hN hle
  obtain ⟨hf0, hv0⟩ := toRat_f32 (j := 0) (by omega)
  rw [curveBase, mul32_finite hfin hf0, hv0, Nat.cast_zero, mul_zero, roundSigned_zero]
  cases F32.sign (div32 F32.negOne (f32 S.n)) ^^ F32.sign (f32 0) <;> decide +kernel

/-- The exact product of the rounded step and the index keeps clear of -1 and of 0. -/
theorem curveProduct_bounds {r : Rat} {N i : Nat} (h0 : 0 < i) (hi : i < N) (hN : N ≤ 200)
    (hr : |r - -1 / N| ≤ 1 / 2 ^ 24) : -(249 / 250) ≤ r * i ∧ r * i ≤ -(1 / 250) := by
  have hi1 : (1 : Rat) ≤ i := Nat.one_le_cast.2 h0
  have hiN : (i : Rat) + 1 ≤ N := by exact_mod_cast hi
  have hN200 : (N : Rat) ≤ 200 := by exact_mod_cast hN
  have hNpos : (0 : Rat) < N := by linarith
  have hlow : (1 : Rat) / 200 ≤ i / N := by
    rw [div_le_div_iff₀ (by norm_num) hNpos]
    linarith
  have hhigh : (i : Rat) / N ≤ 199 / 200 := by
    rw [div_le_div_iff₀ hNpos (by norm_num)]
    linarith
  have hmoved : |r * i + i / N| ≤ 199 / 2 ^ 24 := by
    rw [show r * i + i / N = (r - -1 / N) * i by ring, abs_mul, Nat.abs_cast]
    calc |r - -1 / N| * i ≤ 1 / 2 ^ 24 * 199 := by gcongr; linarith
      _ = 199 / 2 ^ 24 := by ring
  obtain ⟨hmin, hmax⟩ := abs_le.1 hmoved
  constructor <;> linarith

/-- Above the fundamental the base is positive: the exact `1 - i/N` is at least `1/200`, far more than
the three roundings take away. -/
theorem curveBase_pos {S : Settings} {i : Nat} (h0 : 0 < i) (hi : i < S.n) :
    isPositive32 (curveBase i S) = true := by
  have hle : S.n ≤ 200 := Nat.le_of_lt_succ S.hcount.isLt
  obtain ⟨hstep, hnear⟩ := curveStep_near (by omega) hle
  obtain ⟨hfi, hvi⟩ := toRat_f32 (j := i) (by omega)
  obtain ⟨hlow, hhigh⟩ := curveProduct_bounds h0 hi hle hnear
  obtain ⟨hproduct, hproductNear⟩ := toRat_rne32_near
    (q := F32.toRat (div32 F32.negOne (f32 S.n)) * i) (abs_le.2 ⟨by linarith, by linarith⟩)
  obtain ⟨hmin, hmax⟩ := abs_le.1 hproductNear
  obtain ⟨hbase, hbaseNear⟩ := toRat_rne32_near
    (q := F32.toRat (rne32 (F32.toRat (div32 F32.negOne (f32 S.n)) * i)) + 1)
    (abs_le.2 ⟨by linarith, by linarith⟩)
  obtain ⟨hbaseMin, -⟩ := abs_le.1 hbaseNear
  rw [curveBase, mul32_of_ne_zero hstep hfi (by rw [hvi]; linarith), hvi,
    add32_finite hproduct F32.finite_one, F32.toRat_one, if_neg (by linarith), isPositive32_iff]
  exact ⟨hbase, by linarith⟩

/-- Settles O45: the fundamental by `curveBase_zero`, the others by `curveBase_pos`. -/
theorem curveBaseIsPositive : Obligations.CurveBaseIsPositive := by
  intro S i hi
  refine ⟨?_, fun h0 => by rw [h0, curveBase_zero (by omega)], rfl⟩
  rcases Nat.eq_zero_or_pos i with rfl | h0
  · rw [curveBase_zero hi]
    decide +kernel
  · exact curveBase_pos h0 hi

/-! ### The timbre blend and the balance gain (R102, R103) -/

/-- `c` is `t` clamped to [0, 1], up to the sign of a zero (log entry 8). -/
structure IsClampOf (t c : Word) : Prop where
  finite : isFinite32 c = true
  nonneg : 0 ≤ F32.toRat c
  leOne : F32.toRat c ≤ 1
  below : lt32 t F32.zero = true → c = F32.zero
  zero : eq32 t F32.zero = true → eq32 c F32.zero = true
  between : lt32 F32.zero t = true → lt32 t F32.one = true → c = t
  above : le32 F32.one t = true → c = F32.one

/-- `max(+0.0, t)` of a `t` that is no positive number: +0.0 or, of a zero, perhaps `t` (R12). -/
theorem max32_zero_cases {t : Word} (h : lt32 F32.zero t = false) :
    max32 F32.zero t = F32.zero ∨ lt32 t F32.zero = false ∧ max32 F32.zero t = t := by
  rw [max32, if_neg (by simp [h])]
  cases lt32 t F32.zero
  · rw [if_neg Bool.false_ne_true]
    split
    · exact .inl rfl
    · exact (ite_eq_or_eq _ _ _).imp_right fun h => ⟨rfl, h⟩
  · exact .inl rfl

theorem clamp01_of_max {t x : Word} (hmax : max32 F32.zero t = x) (h : lt32 x F32.one = true) :
    clamp01 t = x := by
  rw [clamp01, hmax, min32, if_pos h]

theorem clamp01_of_pos {t : Word} (h : lt32 F32.zero t = true) :
    clamp01 t = if lt32 t F32.one = true then t else F32.one := by
  rw [clamp01, max32, if_pos h, min32]

/-- The clamp of a finite blend, by the order of its rational to 0 and 1. -/
theorem isClampOf_clamp01_finite {t : Word} (ht : isFinite32 t = true) : IsClampOf t (clamp01 t) := by
  obtain ⟨hneg, hpos, hzero, hone, hge⟩ := compare_zero_one ht
  have hvalZero := F32.toRat_zero
  have hvalOne := F32.toRat_one
  by_cases h0 : F32.toRat t ≤ 0
  · have hfalse : lt32 F32.zero t = false := by rw [Bool.eq_false_iff, Ne, hpos]; linarith
    rcases max32_zero_cases hfalse with hmax | ⟨hnot, hmax⟩
    · rw [clamp01_of_max hmax (by decide +kernel)]
      have heq : eq32 F32.zero F32.zero = true := by decide +kernel
      constructor <;> grind [F32.finite_zero]
    · rw [clamp01_of_max hmax (hone.2 (by linarith))]
      constructor <;> grind
  · rw [clamp01_of_pos (hpos.2 (by linarith))]
    split
    · constructor <;> grind
    · constructor <;> grind [F32.finite_one]

theorem isClampOf_clamp01_inf (s : Bool) : IsClampOf (infOf s) (clamp01 (infOf s)) := by
  have hclamp : clamp01 (infOf s) = if s then F32.zero else F32.one := by cases s <;> decide +kernel
  rw [hclamp]
  cases s <;> constructor <;> decide +kernel

/-- Settles O46: without TM_EN the blend is TIMBRE, legal in [0, 1]; with it the clamp of a number. -/
theorem timbreBlendStaysInRange : Obligations.TimbreBlendStaysInRange := by
  intro S m t hlegal hm ht
  have h := Settings.Legal.of_legal hlegal
  cases htm : S.tmEn
  · have heff : timbreEff m S = S.timbre := by rw [timbreEff, htm, if_neg Bool.false_ne_true]
    rw [heff]
    exact ⟨h.timbreFinite, h.timbreNonneg, h.timbreLeOne, fun _ => rfl,
      fun hon => absurd hon Bool.false_ne_true⟩
  · have heff : timbreEff m S = clamp01 t := by rw [timbreEff, htm, if_pos rfl, ht]
    have hclamp : IsClampOf t (clamp01 t) := by
      have hnumber := isNumber32_add32 h.timbreFinite (isNumber32_mul32 hm h.depth)
      rw [← ht] at hnumber
      rcases hnumber with hfin | ⟨s, rfl⟩
      · exact isClampOf_clamp01_finite hfin
      · exact isClampOf_clamp01_inf s
    rw [heff]
    exact ⟨hclamp.finite, hclamp.nonneg, hclamp.leOne, fun hoff => absurd hoff.symm Bool.false_ne_true,
      fun _ => ⟨hclamp.below, hclamp.zero, hclamp.between, hclamp.above⟩⟩

/-- Settles O47: by the parity of the index. -/
theorem balanceGainByParity : Obligations.BalanceGainByParity := by
  intro S m
  refine ⟨rfl, fun j => ?_, fun j => ?_⟩
  · rw [balanceGain, if_neg (by omega), if_pos (by omega)]
  · rw [balanceGain, if_neg (by omega), if_neg (by omega)]

/-! ### The aliasing guard (R96, R98) -/

/-- The Nyquist frequency of a finite positive sample rate is a finite number from 0 to the rate. -/
theorem nyquist_bounds {sr : Word} (h : isPositive32 sr = true) :
    isFinite32 (nyquist sr) = true ∧ 0 ≤ F32.toRat (nyquist sr) ∧
      F32.toRat (nyquist sr) ≤ F32.toRat sr := by
  obtain ⟨hsr, hpos⟩ := (isPositive32_iff sr).1 h
  have hhalf : isFinite32 F32.half = true ∧ F32.toRat F32.half = 1 / 2 := by decide +kernel
  have heq : nyquist sr = rne32 (F32.toRat sr * (1 / 2)) := by
    rw [nyquist, mul32_of_ne_zero hsr hhalf.1 (by rw [hhalf.2]; linarith), hhalf.2]
  have hfin : isFinite32 (rne32 (F32.toRat sr * (1 / 2))) = true :=
    isFinite32_rne32_of_abs_le hsr (by rw [abs_of_pos hpos, abs_of_pos (by linarith)]; linarith)
  have hnonneg := toRat_le_toRat_rne32 F32.finite_zero hfin (by rw [F32.toRat_zero]; linarith)
  rw [F32.toRat_zero] at hnonneg
  rw [heq]
  exact ⟨hfin, hnonneg, toRat_rne32_le_toRat hsr hfin (by linarith)⟩

theorem fold_of_not_above {sr x : Word} (h : lt32 (nyquist sr) x = false) : fold sr x = x := by
  rw [fold, if_neg (by simp [h])]

/-- Above Nyquist the fold takes off the multiple of the sample rate that brings the value into
`(nyq - sr, nyq]`. -/
theorem fold_of_above {sr x : Word} (hsr : isPositive32 sr = true) (hx : isFinite32 x = true)
    (h : lt32 (nyquist sr) x = true) :
    ∃ k : Int, 1 ≤ k ∧
      F32.toRat (nyquist sr) - F32.toRat sr < F32.toRat x - k * F32.toRat sr ∧
      F32.toRat x - k * F32.toRat sr ≤ F32.toRat (nyquist sr) ∧
      fold sr x = rne32 (F32.toRat x - k * F32.toRat sr) := by
  obtain ⟨hnyq, -, -⟩ := nyquist_bounds hsr
  obtain ⟨-, hpos⟩ := (isPositive32_iff sr).1 hsr
  have heq : fold sr x = rne32 (F32.toRat x -
      (((F32.toRat x - F32.toRat (nyquist sr)) / F32.toRat sr).ceil : Rat) * F32.toRat sr) := by
    rw [fold, if_pos h]
  have hlow := Rat.le_ceil (x := (F32.toRat x - F32.toRat (nyquist sr)) / F32.toRat sr)
  have hhigh := Rat.ceil_lt (x := (F32.toRat x - F32.toRat (nyquist sr)) / F32.toRat sr)
  generalize ((F32.toRat x - F32.toRat (nyquist sr)) / F32.toRat sr).ceil = k at *
  rw [lt32_finite hnyq hx, decide_eq_true_iff] at h
  rw [div_le_iff₀ hpos] at hlow
  rw [← sub_lt_iff_lt_add, lt_div_iff₀ hpos] at hhigh
  refine ⟨k, ?_, by linarith, by linarith, heq⟩
  by_contra hk
  have hk0 : (k : Rat) ≤ 0 := by exact_mod_cast (by omega : k ≤ 0)
  linarith [mul_nonpos_of_nonpos_of_nonneg hk0 hpos.le]

/-- A folded value is finite: it is no larger than the sample rate. -/
theorem isFinite32_fold {sr x : Word} (hsr : isPositive32 sr = true) (hx : isFinite32 x = true) :
    isFinite32 (fold sr x) = true := by
  cases h : lt32 (nyquist sr) x
  · rwa [fold_of_not_above h]
  · obtain ⟨k, -, hlow, hhigh, heq⟩ := fold_of_above hsr hx h
    obtain ⟨-, hnonneg, hle⟩ := nyquist_bounds hsr
    obtain ⟨hfin, hpos⟩ := (isPositive32_iff sr).1 hsr
    rw [heq]
    refine isFinite32_rne32_of_abs_le hfin ?_
    rw [abs_of_pos hpos, abs_le]
    constructor <;> linarith

theorem F32.finite_twenty : isFinite32 F32.twenty = true := by decide +kernel
theorem F32.toRat_twenty : F32.toRat F32.twenty = 20 := by decide +kernel

/-- Reflected at 20, a value below it is at least 20, overflow included. -/
theorem twenty_le_reflect {y : Word} (hy : isFinite32 y = true) (h : lt32 y F32.twenty = true) :
    le32 F32.twenty (add32 (sub32 F32.twenty y) F32.twenty) = true := by
  rw [lt32_finite hy F32.finite_twenty, F32.toRat_twenty, decide_eq_true_iff] at h
  rw [sub32_finite F32.finite_twenty hy, F32.toRat_twenty, if_neg (by linarith)]
  cases hfin : isFinite32 (rne32 (20 - F32.toRat y))
  · rw [rne32_overflow hfin, decide_eq_false (by linarith), add32_inf_finite F32.finite_twenty]
    decide +kernel
  · have hnonneg := toRat_le_toRat_rne32 F32.finite_zero hfin (by rw [F32.toRat_zero]; linarith)
    rw [F32.toRat_zero] at hnonneg
    rw [add32_finite hfin F32.finite_twenty, F32.toRat_twenty, if_neg (by linarith)]
    have hle := le32_rne32 (p := F32.toRat F32.twenty) (q := F32.toRat (rne32 (20 - F32.toRat y)) + 20)
      (by rw [F32.toRat_twenty]; linarith)
    rwa [rne32_toRat F32.finite_twenty (by rw [F32.toRat_twenty]; norm_num)] at hle

theorem twenty_le_wrap {sr x : Word} (hsr : isPositive32 sr = true) (hx : isFinite32 x = true) :
    le32 F32.twenty (wrap sr x) = true := by
  have hfin := isFinite32_fold hsr hx
  unfold wrap
  dsimp only
  split
  · next hlt => exact twenty_le_reflect hfin hlt
  · next hlt => exact le32_of_not_lt32 F32.finite_twenty hfin (by simpa using hlt)

theorem wrap_of_in_band {sr x : Word} (hsr : isPositive32 sr = true) (hlow : le32 F32.twenty x = true)
    (hhigh : le32 x (nyquist sr) = true) : wrap sr x = x := by
  obtain ⟨hnyq, -, -⟩ := nyquist_bounds hsr
  have hx := isFinite32_of_between F32.finite_twenty hnyq hlow hhigh
  rw [wrap, fold_of_not_above (not_lt32_of_le32 hx hnyq hhigh), not_lt32_of_le32 F32.finite_twenty hx hlow]
  rfl

/-- Settles O43: the fold by `fold_of_above`, the floor by `twenty_le_wrap`; a value of the band is kept,
so wrapping again keeps one that is at most Nyquist. -/
theorem wrapKeepsTheBandAndTheFloor : Obligations.WrapKeepsTheBandAndTheFloor := by
  intro sr x hsr hx
  have hfloor := twenty_le_wrap hsr hx
  exact ⟨⟨fold sr x, fold_of_not_above, fold_of_above hsr hx, rfl⟩, wrap_of_in_band hsr, hfloor,
    wrap_of_in_band hsr hfloor⟩

/-- Refutes O44: at 48000 Hz 24020 = 20 + nyq folds to -23980, which is reflected to 24020 again. -/
theorem not_wrapIsIdempotentOnlyUpToNyquist : ¬ Obligations.WrapIsIdempotentOnlyUpToNyquist := by
  intro h
  have hfixed : wrap 0x473B8000 0x46BBA800 = 0x46BBA800 := by decide +kernel
  have habove : le32 0x46BBA800 (nyquist 0x473B8000) = false := by decide +kernel
  have hiff := h 0x473B8000 0x46BBA800 (by decide +kernel) (by decide +kernel)
  rw [hfixed, hfixed, habove] at hiff
  exact Bool.false_ne_true (hiff.1 rfl)

end Sys2Proof.Machine

/-! The bank as streams (43_bank_mixer.md): the loops of PROCESS over harmonics and samples compute what a
filter per harmonic, run over the block's modulation and input words, computes. -/

namespace Sys2Proof.Machine

open Sys2Proof.Claims

/-! ### One instant -/

/-- A valid instant is a finite frequency whose wrapped value lies in [20, nyq) (R97). -/
theorem placed_eq_some_iff (sr : Word) (i : Nat) (m : Word) (S : Settings) (y : Word) :
    placed sr i m S = some y ↔
      isFinite32 (freq i m S) = true ∧ y = wrap sr (freq i m S) ∧
        le32 F32.twenty y = true ∧ lt32 y (nyquist sr) = true := by
  unfold placed
  dsimp only
  constructor
  · intro h
    split at h
    · next hfin =>
      split at h
      · next hband =>
        obtain rfl := Option.some.inj h
        rw [Bool.and_eq_true] at hband
        exact ⟨hfin, rfl, hband⟩
      · cases h
    · cases h
  · rintro ⟨hfin, rfl, hlow, hhigh⟩
    rw [if_pos hfin, if_pos (by rw [hlow, hhigh]; rfl)]

/-- One sample of a stream is the channel's step under the harmonic's update (R104, R121). -/
theorem stream_cons (sr : Word) (S : Settings) (i : Nat) (m x : Word) (rest : List (Word × Word))
    (f : Svf) :
    stream sr S i ((m, x) :: rest) f =
      ((channelStep sr (update sr i m S) f x).1 ::
          (stream sr S i rest (channelStep sr (update sr i m S) f x).2).1,
        (stream sr S i rest (channelStep sr (update sr i m S) f x).2).2) := by
  have hstep : channelStep sr (update sr i m S) f x =
      match placed sr i m S with
      | some y => validSample sr S i y (balanceGain i m S) x f
      | none => (F32.zero, f) := by
    unfold channelStep
    rw [show (update sr i m S).y = placed sr i m S from rfl]
    cases placed sr i m S <;> rfl
  rw [hstep]
  rfl

/-- A stream run over one more sample: the same outputs and state, then one step from that state. -/
theorem stream_concat (sr : Word) (S : Settings) (i : Nat) (xs : List (Word × Word)) (m x : Word)
    (f : Svf) :
    stream sr S i (xs ++ [(m, x)]) f =
      ((stream sr S i xs f).1 ++ [(channelStep sr (update sr i m S) (stream sr S i xs f).2 x).1],
        (channelStep sr (update sr i m S) (stream sr S i xs f).2 x).2) := by
  induction xs generalizing f with
  | nil => rw [List.nil_append, stream_cons]; rfl
  | cons p xs ih =>
    obtain ⟨m', x'⟩ := p
    rw [List.cons_append, stream_cons, ih, stream_cons]
    rfl

theorem length_stream (sr : Word) (S : Settings) (i : Nat) (xs : List (Word × Word)) (f : Svf) :
    (stream sr S i xs f).1.length = xs.length := by
  induction xs generalizing f with
  | nil => rfl
  | cons p xs ih => rw [stream_cons, List.length_cons, List.length_cons, ih]

/-! ### One harmonic over the block (R115) -/

/-- The modulation and input words of the first `n` samples, as one side's filters see them. -/
def State.sideInputs (s : State) (n : Nat) (sd : Side) : List (Word × Word) :=
  (List.range n).map fun j => (s.buf .mod j, s.buf sd.inBuf j)

/-- The stream of harmonic `i` on one side, over a state's first `n` samples from its channel. -/
def State.sideStream (s : State) (S : Settings) (n i : Nat) (sd : Side) : List Word × Svf :=
  stream s.liveSr S i (s.sideInputs n sd) (s.svf i sd)

theorem State.sideStream_succ (s : State) (S : Settings) (n i : Nat) (sd : Side) :
    s.sideStream S (n + 1) i sd =
      ((s.sideStream S n i sd).1 ++
          [(channelStep s.liveSr (update s.liveSr i (s.buf .mod n) S) (s.sideStream S n i sd).2
            (s.buf sd.inBuf n)).1],
        (channelStep s.liveSr (update s.liveSr i (s.buf .mod n) S) (s.sideStream S n i sd).2
          (s.buf sd.inBuf n)).2) := by
  unfold sideStream sideInputs
  rw [List.range_succ, List.map_append]
  exact stream_concat _ _ _ _ _ _ _

theorem State.length_sideStream (s : State) (S : Settings) (n i : Nat) (sd : Side) :
    (s.sideStream S n i sd).1.length = n := by
  rw [sideStream, length_stream, sideInputs, List.length_map, List.length_range]

/-- What the stream of a harmonic reads: the modulation and input words, the sample rate and the
channel. -/
theorem State.sideStream_congr {s t : State} (S : Settings) {n i : Nat} {sd : Side}
    (hrate : t.liveSr = s.liveSr) (hmod : ∀ k, k < n → t.buf .mod k = s.buf .mod k)
    (hin : ∀ k, k < n → t.buf sd.inBuf k = s.buf sd.inBuf k) (hsvf : t.svf i sd = s.svf i sd) :
    t.sideStream S n i sd = s.sideStream S n i sd := by
  have hinputs : t.sideInputs n sd = s.sideInputs n sd :=
    List.map_congr_left fun j hj => by
      rw [hmod j (List.mem_range.1 hj), hin j (List.mem_range.1 hj)]
  rw [sideStream, sideStream, hrate, hinputs, hsvf]

theorem Side.inBuf_not_output (sd : Side) : ¬(sd.inBuf = .outL ∨ sd.inBuf = .outR) := by
  cases sd <;> decide

/-- A harmonic's block writes the outputs only. -/
theorem harmonicBlock_keeps_buf (S : Settings) {n : Nat} (i : Nat) (s : State) (hn : n ≤ 4096) {b : Buf}
    (hb : ¬(b = .outL ∨ b = .outR)) {k : Nat} (hk : k < 4096) :
    (harmonicBlock S n i s).buf b k = s.buf b k :=
  State.buf_of_writesOnly (ok := fun b => b = .outL ∨ b = .outR) (harmonicBlock_writes S n i s) hn hb hk

/-- The words after the block's samples stand. -/
theorem harmonicBlock_buf_after (S : Settings) {n : Nat} (i : Nat) (s : State) (b : Buf) {k : Nat}
    (hnk : n ≤ k) (hk : k < 4096) : (harmonicBlock S n i s).buf b k = s.buf b k :=
  (harmonicBlock_writes S n i s).word hk (fun _ _ ⟨_, h⟩ => by omega) fun ⟨_, h⟩ => by omega

/-- A sample changes the output words of its own index only. -/
theorem sampleStep_buf_other (S : Settings) (i : Nat) {k k' : Nat} (s : State) (b : Buf)
    (hk : k < 4096) (hk' : k' < 4096) (hne : k' ≠ k) : (sampleStep S i k s).buf b k' = s.buf b k' :=
  (sampleStep_writes S i k s).word hk' (fun _ _ ⟨_, h⟩ => h ▸ hk) fun ⟨_, h⟩ => hne h

/-- A harmonic's block ends its channel in the stream's last state. -/
theorem harmonicBlock_svf (S : Settings) {n i : Nat} (s : State) (hi : i < 200) (hn : n ≤ 4096)
    (sd : Side) : (harmonicBlock S n i s).svf i sd = (s.sideStream S n i sd).2 := by
  induction n with
  | zero => rfl
  | succ n ih =>
    show (sampleStep S i n (harmonicBlock S n i s)).svf i sd = _
    rw [sampleStep_svf S i n _ i sd hi (by omega), if_pos rfl, ih (by omega), harmonicBlock_liveSr,
      harmonicBlock_keeps_buf S i s (by omega) (by decide) (by omega),
      harmonicBlock_keeps_buf S i s (by omega) sd.inBuf_not_output (by omega), State.sideStream_succ]

/-- A harmonic's block mixes the stream's outputs into the side's output words (R122). -/
theorem harmonicBlock_out (S : Settings) {n i : Nat} (s : State) (hi : i < 200) (hn : n ≤ 4096)
    (sd : Side) {k : Nat} (hk : k < n) :
    (harmonicBlock S n i s).buf sd.outBuf k =
      mixWord i (s.buf sd.outBuf k) ((s.sideStream S n i sd).1.getD k 0) := by
  induction n with
  | zero => omega
  | succ n ih =>
    show (sampleStep S i n (harmonicBlock S n i s)).buf sd.outBuf k = _
    rw [State.sideStream_succ]
    rcases Nat.lt_succ_iff_lt_or_eq.1 hk with hlt | rfl
    · rw [sampleStep_buf_other S i _ _ (by omega) (by omega) (by omega), ih (by omega) hlt,
        List.getD_append _ _ _ _ (by rwa [State.length_sideStream])]
    · have hlen := s.length_sideStream S k i sd
      rw [sampleStep_buf S i k _ sd hi (by omega), harmonicBlock_svf S s hi (by omega), harmonicBlock_liveSr,
        harmonicBlock_buf_after S i s _ le_rfl (by omega), harmonicBlock_buf_after S i s _ le_rfl (by omega),
        harmonicBlock_buf_after S i s _ le_rfl (by omega), List.getD_append_right _ _ _ _ (by omega),
        hlen, Nat.sub_self]
      rfl

/-- A harmonic's block leaves the streams of the others. -/
theorem harmonicBlock_sideStream (S : Settings) {n i j : Nat} (s : State) (hi : i < 200) (hn : n ≤ 4096)
    (sd : Side) (hne : j ≠ i) :
    (harmonicBlock S n i s).sideStream S n j sd = s.sideStream S n j sd :=
  State.sideStream_congr S (harmonicBlock_liveSr S n i s)
    (fun _ hk => harmonicBlock_keeps_buf S i s hn (by decide) (by omega))
    (fun _ hk => harmonicBlock_keeps_buf S i s hn sd.inBuf_not_output (by omega))
    (harmonicBlock_other S n i s j sd hi hn hne)

/-! ### The harmonic loop (R120, R122) -/

/-- Every harmonic the loop processes ends its channel in its stream's last state. -/
theorem harmonicLoop_svf (S : Settings) {n : Nat} (fuel i : Nat) (s : State) (hf : i + fuel ≤ 200)
    (hn : n ≤ 4096) (sd : Side) {j : Nat} (hij : i ≤ j) (hj : j < (harmonicLoop S n fuel i s).2) :
    (harmonicLoop S n fuel i s).1.svf j sd = (s.sideStream S n j sd).2 := by
  induction fuel generalizing i s with
  | zero => exact absurd hj (Nat.not_lt.2 hij)
  | succ fuel ih =>
    unfold harmonicLoop at hj ⊢
    split
    · next htest =>
      rw [if_pos htest] at hj
      rcases Nat.eq_or_lt_of_le hij with rfl | hlt
      · rw [harmonicLoop_other S n fuel (i + 1) _ i sd (by omega) hn (.inl (by omega)),
          harmonicBlock_svf S s (by omega) hn]
      · rw [ih (i + 1) _ (by omega) hlt hj, harmonicBlock_sideStream S s (by omega) hn sd (by omega)]
    · next htest =>
      rw [if_neg htest] at hj
      exact absurd hj (Nat.not_lt.2 hij)

/-- The outputs at sample `k` of the given harmonics' streams, mixed one after the other into a word. -/
def State.mixInto (s : State) (S : Settings) (n : Nat) (sd : Side) (k : Nat) (old : Word)
    (harmonics : List Nat) : Word :=
  harmonics.foldl (fun w j => mixWord j w ((s.sideStream S n j sd).1.getD k 0)) old

/-- A processed harmonic leaves what the later ones mix in. -/
theorem mixInto_harmonicBlock (S : Settings) {n i : Nat} (s : State) (hi : i < 200) (hn : n ≤ 4096)
    (sd : Side) (k : Nat) (old : Word) {harmonics : List Nat} (hlater : i ∉ harmonics) :
    (harmonicBlock S n i s).mixInto S n sd k old harmonics = s.mixInto S n sd k old harmonics :=
  List.foldl_ext _ _ _ fun w j hj => by
    rw [harmonicBlock_sideStream S s hi hn sd fun h => hlater (h ▸ hj)]

/-- The loop mixes the outputs of the harmonics it processes, in rising order. -/
theorem harmonicLoop_out (S : Settings) {n : Nat} (fuel i : Nat) (s : State) (hf : i + fuel ≤ 200)
    (hn : n ≤ 4096) (sd : Side) {k : Nat} (hk : k < n) :
    (harmonicLoop S n fuel i s).1.buf sd.outBuf k =
      s.mixInto S n sd k (s.buf sd.outBuf k)
        (List.range' i ((harmonicLoop S n fuel i s).2 - i)) := by
  induction fuel generalizing i s with
  | zero => rw [harmonicLoop, Nat.sub_self]; rfl
  | succ fuel ih =>
    unfold harmonicLoop
    split
    · obtain ⟨hcount, -⟩ := harmonicLoop_count S n fuel (i + 1) (harmonicBlock S n i s)
      rw [ih (i + 1) _ (by omega), harmonicBlock_out S s (by omega) hn sd hk,
        mixInto_harmonicBlock S s (by omega) hn sd k _ (by simp)]
      obtain ⟨count, hreached⟩ := Nat.exists_eq_add_of_le hcount
      rw [hreached, Nat.add_sub_cancel_left, Nat.add_assoc, Nat.add_sub_cancel_left, Nat.add_comm 1,
        List.range'_succ]
      rfl
    · rw [Nat.sub_self]; rfl

/-- Mixing into +0.0 from harmonic 0 on is the sum of the outputs in order (R122). -/
theorem foldl_mixWord_range (out : Nat → Word) (count : Nat) :
    (List.range count).foldl (fun w j => mixWord j w (out j)) F32.zero =
      mixOf ((List.range count).map out) := by
  cases count with
  | zero => rfl
  | succ count =>
    rw [List.range_succ_eq_map, List.foldl_cons, List.foldl_map, List.map_cons, List.map_map, mixOf,
      List.foldl_map]
    rfl

/-! ### The whole block (R115) -/

/-- Before the loop no channel has changed. -/
theorem preBlock_svf (S : Settings) (n : Nat) (s : State) (i : Nat) (sd : Side) :
    (preBlock S n s).svf i sd = s.svf i sd := by
  rw [preBlock_frame]
  rfl

/-- Before the loop the outputs are silent (R119). -/
theorem preBlock_out (S : Settings) {n : Nat} (s : State) (hn : n ≤ 4096) (sd : Side) {k : Nat}
    (hk : k < n) : (preBlock S n s).buf sd.outBuf k = F32.zero :=
  clearOutput_zero n _ hn sd k hk

/-- The loop leaves every buffer but the outputs. -/
theorem processBlock_keeps_buf (S : Settings) {n : Nat} (s : State) (hn : n ≤ 4096) {b : Buf}
    (hb : ¬(b = .outL ∨ b = .outR)) {k : Nat} (hk : k < 4096) :
    (processBlock S n s).buf b k = (preBlock S n s).buf b k :=
  State.buf_of_writesOnly (ok := fun b => b = .outL ∨ b = .outR) (t := processBlock S n s)
    (harmonicLoop_writes S n S.n 0 (preBlock S n s)) hn hb hk

/-- The streams the loop runs are those over the words the block ends with, from the channels it began
with. -/
theorem preBlock_sideStream (S : Settings) {n : Nat} (s : State) (hn : n ≤ 4096) (i : Nat) (sd : Side) :
    (preBlock S n s).sideStream S n i sd =
      stream s.liveSr S i ((processBlock S n s).sideInputs n sd) (s.svf i sd) := by
  have hrate : (preBlock S n s).liveSr = s.liveSr := by rw [preBlock_frame]
  have hinputs : (processBlock S n s).sideInputs n sd = (preBlock S n s).sideInputs n sd :=
    List.map_congr_left fun j hj => by
      have hj := List.mem_range.1 hj
      rw [processBlock_keeps_buf S s hn (by decide) (by omega),
        processBlock_keeps_buf S s hn sd.inBuf_not_output (by omega)]
  rw [State.sideStream, hrate, preBlock_svf, hinputs]

/-- HDONE is the number of harmonics the loop reached (R123). -/
theorem processBlock_hdone (S : Settings) (n : Nat) (s : State) :
    (processBlock S n s).hdone.toNat = (harmonicLoop S n S.n 0 (preBlock S n s)).2 := by
  obtain ⟨-, hcount, -⟩ := harmonicLoop_count S n S.n 0 (preBlock S n s)
  have hN : S.n < 201 := S.hcount.isLt
  show (BitVec.ofNat 8 _).toNat = _
  rw [BitVec.toNat_ofNat, Nat.mod_eq_of_lt (by omega)]

/-- The bank's outputs: the streams of HDONE harmonics mixed in order (R119, R122). -/
theorem processBlock_out (S : Settings) {n : Nat} (s : State) (hn : n ≤ 4096) (sd : Side) {k : Nat}
    (hk : k < n) :
    (processBlock S n s).buf sd.outBuf k =
      mixOf ((List.range (processBlock S n s).hdone.toNat).map fun i =>
        (stream s.liveSr S i ((processBlock S n s).sideInputs n sd) (s.svf i sd)).1.getD k 0) := by
  have hN : S.n < 201 := S.hcount.isLt
  rw [processBlock_hdone, ← foldl_mixWord_range]
  simp only [← preBlock_sideStream S s hn]
  calc (processBlock S n s).buf sd.outBuf k
    _ = (harmonicLoop S n S.n 0 (preBlock S n s)).1.buf sd.outBuf k := rfl
    _ = _ := harmonicLoop_out S S.n 0 _ (by omega) hn sd hk
    _ = _ := by rw [preBlock_out S s hn sd hk, Nat.sub_zero, ← List.range_eq_range']; rfl

/-- The bank's channels: the processed ones in their stream's last state, the others as they were
(R126). -/
theorem processBlock_svf (S : Settings) {n : Nat} (s : State) (hn : n ≤ 4096) (i : Nat) (sd : Side) :
    (processBlock S n s).svf i sd =
      if i < (processBlock S n s).hdone.toNat then
        (stream s.liveSr S i ((processBlock S n s).sideInputs n sd) (s.svf i sd)).2
      else s.svf i sd := by
  have hN : S.n < 201 := S.hcount.isLt
  rw [processBlock_hdone, ← preBlock_sideStream S s hn]
  show (harmonicLoop S n S.n 0 (preBlock S n s)).1.svf i sd = _
  split
  · next hi => exact harmonicLoop_svf S S.n 0 _ (by omega) hn sd (Nat.zero_le i) hi
  · next hi => rw [harmonicLoop_other S n S.n 0 _ i sd (by omega) hn (.inr (by omega)), preBlock_svf]

/-- Settles O57: the validity bounds by `placed_eq_some_iff`, outputs and channels by `processBlock_out`
and `processBlock_svf`. -/
theorem processIsTheStreamedBank : Obligations.ProcessIsTheStreamedBank := by
  intro n s h
  have ⟨_, hlimit, _⟩ := h
  have hn : n ≤ 4096 := hlimit.trans (Nat.le_of_lt_succ s.liveMaxblk.isLt)
  refine ⟨fun i m y => placed_eq_some_iff s.liveSr i m s.snap y, _, exec_process_of_accepted h,
    fun sd => ⟨fun k hk => ?_, fun i _ => ?_⟩⟩
  · exact processBlock_out s.snap s hn sd hk
  · exact processBlock_svf s.snap s hn i sd

end Sys2Proof.Machine

/-! The filter (42_filter.md) on silence and on a NaN, and what PROCESS leaves unchanged
(43_bank_mixer.md). -/

namespace Sys2Proof.Machine

open Sys2Proof.Claims

/-! ### Zeros of either sign (R12) -/

theorem isFinite32_zeroOf (s : Bool) : isFinite32 (zeroOf s) = true := by cases s <;> decide +kernel
theorem F32.toRat_zeroOf (s : Bool) : F32.toRat (zeroOf s) = 0 := by cases s <;> decide +kernel

/-- A product with a zero is a zero, of whichever sign. -/
theorem mul32_zeroOf_left (s : Bool) {a : Word} (ha : isFinite32 a = true) :
    ∃ z, mul32 (zeroOf s) a = zeroOf z :=
  ⟨_, by rw [mul32_finite (isFinite32_zeroOf s) ha, F32.toRat_zeroOf, zero_mul, roundSigned_zero]⟩

theorem mul32_zeroOf_right {a : Word} (ha : isFinite32 a = true) (s : Bool) :
    ∃ z, mul32 a (zeroOf s) = zeroOf z :=
  ⟨_, by rw [mul32_finite ha (isFinite32_zeroOf s), F32.toRat_zeroOf, mul_zero, roundSigned_zero]⟩

/-- A zero of either sign added to +0.0, or taken from it, leaves +0.0. -/
theorem add32_zeroOf_zero (s : Bool) : add32 (zeroOf s) 0 = 0 := by cases s <;> decide +kernel
theorem sub32_zero_zeroOf (s : Bool) : sub32 0 (zeroOf s) = 0 := by cases s <;> decide +kernel

/-! ### The filter step (R109, R111) -/

/-- Settles O50: every product is a zero of some sign, and every sum has +0.0 as its other term. -/
theorem filterKeepsSilence : Obligations.FilterKeepsSilence := by
  intro c hg _ hh hsum
  obtain ⟨zf, hfeedback⟩ : ∃ z, mul32 0 (add32 c.g c.r2) = zeroOf z := mul32_zeroOf_left false hsum
  obtain ⟨zh, hhigh⟩ : ∃ z, mul32 c.h 0 = zeroOf z := mul32_zeroOf_right hh false
  obtain ⟨zg, hhighGain⟩ := mul32_zeroOf_left zh hg
  obtain ⟨zb, hbandGain⟩ : ∃ z, mul32 0 c.g = zeroOf z := mul32_zeroOf_left false hg
  have hinput : sub32 (sub32 0 (mul32 0 (add32 c.g c.r2))) 0 = 0 := by
    rw [hfeedback, sub32_zero_zeroOf]
    exact sub32_zero_zeroOf false
  simp only [svfStep, hinput, hhigh, hhighGain, add32_zeroOf_zero, hbandGain]

theorem add32_qNaN_left (b : Word) : add32 F32.qNaN b = F32.qNaN := add32_nan_left b F32.value_qNaN
theorem mul32_qNaN_left (b : Word) : mul32 F32.qNaN b = F32.qNaN := mul32_nan_left b F32.value_qNaN
theorem mul32_qNaN_right (a : Word) : mul32 a F32.qNaN = F32.qNaN := mul32_nan_right a F32.value_qNaN

/-- A NaN on its way into the high-pass output reaches the output and both state words. -/
theorem svfStep_of_input_nan {f : Svf} {c : SvfCoeffs} {x : Word}
    (h : sub32 (sub32 x (mul32 f.s1 (add32 c.g c.r2))) f.s2 = F32.qNaN) :
    svfStep f c x = (F32.qNaN, ⟨F32.qNaN, F32.qNaN⟩) := by
  simp only [svfStep, h, mul32_qNaN_right, mul32_qNaN_left, add32_qNaN_left]

/-- Settles O51: a NaN in the input or in either state word makes the high-pass input a NaN. -/
theorem filterNanSticks : Obligations.FilterNanSticks := by
  intro f c x h
  apply svfStep_of_input_nan
  rcases h with hx | hs1 | hs2
  · exact sub32_nan_left _ (by rw [sub32_nan_left _ hx, F32.value_qNaN])
  · have hfeedback : F32.value (mul32 f.s1 (add32 c.g c.r2)) = .nan := by
      rw [mul32_nan_left _ hs1, F32.value_qNaN]
    exact sub32_nan_left _ (by rw [sub32_nan_right x hfeedback, F32.value_qNaN])
  · exact sub32_nan_right _ hs2

/-! ### The frame of PROCESS (R110, R115, R126) -/

/-- A stream whose every instant is invalid holds the filter state (R110). -/
theorem stream_of_invalid {sr : Word} {S : Settings} {i : Nat} {xs : List (Word × Word)} (f : Svf)
    (h : ∀ p ∈ xs, placed sr i p.1 S = none) : (stream sr S i xs f).2 = f := by
  induction xs generalizing f with
  | nil => rfl
  | cons p xs ih =>
    obtain ⟨hp, hxs⟩ := List.forall_mem_cons.1 h
    have hheld : (channelStep sr (update sr i p.1 S) f p.2).2 = f := by
      rw [channelStep, show (update sr i p.1 S).y = none from hp]
    rw [stream_cons, hheld]
    exact ih f hxs

/-- Noise takes two draws a sample (R118). -/
theorem preBlock_drawn (S : Settings) (n : Nat) (s : State) :
    (preBlock S n s).drawn = s.drawn + (if S.noiseEn then 2 * n else 0) := by
  have hmod : (modulate S n s).drawn = s.drawn := by rw [modulate_frame]
  rw [preBlock, clearOutput_frame]
  split
  · rw [noisePrepass_drawn, hmod]
  · exact hmod

theorem processBlock_drawn (S : Settings) (n : Nat) (s : State) :
    (processBlock S n s).drawn = s.drawn + (if S.noiseEn then 2 * n else 0) := by
  rw [processBlock_frame, preBlock_drawn]

/-- A channel whose every instant of the block is invalid keeps its state. -/
theorem processBlock_svf_of_invalid {S : Settings} {n : Nat} {s : State} (hn : n ≤ 4096) {i : Nat}
    (sd : Side) (h : ∀ k, k < n → placed s.liveSr i ((processBlock S n s).buf .mod k) S = none) :
    (processBlock S n s).svf i sd = s.svf i sd := by
  rw [processBlock_svf S s hn]
  split
  · refine stream_of_invalid _ fun p hp => ?_
    obtain ⟨k, hk, rfl⟩ := List.mem_map.1 hp
    exact h k (List.mem_range.1 hk)
  · rfl

/-- Settles O52: the fields by `exec_process_effect`, the channels by `processBlock_svf`, the bytes by
`processBlock_writes`. -/
theorem processFrame : Obligations.ProcessFrame := by
  intro n s h
  have ⟨_, hlimit, _⟩ := h
  have hn : n ≤ 4096 := hlimit.trans (Nat.le_of_lt_succ s.liveMaxblk.isLt)
  obtain ⟨t, hexec, -, hfields⟩ := exec_process_effect h
  obtain rfl : (processBlock s.snap n s).finish = t :=
    Host.Outcome.next.inj ((exec_process_of_accepted h).symm.trans hexec)
  refine ⟨_, hexec, hfields, processBlock_drawn s.snap n s, fun i sd hi => ?_,
    fun i sd hinvalid => processBlock_svf_of_invalid hn sd hinvalid,
    fun a ha => (processBlock_writes s.snap n s).bytes a ha⟩
  exact (processBlock_svf s.snap s hn i sd).trans (if_neg (Nat.not_lt.2 hi))

end Sys2Proof.Machine

/-! PROCESS over the bank and the mixer (43_bank_mixer.md): the settings it accepts, what it leaves in HDONE
and the inputs, the silent block, and the independence of the two sides. -/

namespace Sys2Proof.Machine

open Sys2Proof.Claims

/-! ### The settings PROCESS accepts (R117) -/

/-- The checks hold of settings with what legal settings give (the converse of `Legal.of_legal`). -/
theorem Settings.Legal.legal {S : Settings} (h : S.Legal) : S.legal = true := by
  have hnonneg : le32 F32.zero S.timbre = true := by
    rw [le32_finite F32.finite_zero h.timbreFinite, F32.toRat_zero, decide_eq_true h.timbreNonneg]
  have hleOne : le32 S.timbre F32.one = true := by
    rw [le32_finite h.timbreFinite F32.finite_one, F32.toRat_one, decide_eq_true h.timbreLeOne]
  simp only [Settings.legal, h.f0, h.qbase, h.curve, h.timbreFinite, hnonneg, hleOne, h.detune, h.depth,
    h.rate, Bool.and_self]

/-- Illegal settings are the last cause of refusal, after NOT_PREPARED and BAD_LENGTH (R138). -/
theorem exec_process_of_badSettings {n : Nat} {s : State} (hp : s.prepared = true)
    (hn : n ≤ s.liveMaxblk.val) (hlegal : s.snap.legal = false) :
    exec (.process n) s = .next (s.refuse .badSettings) := by
  rw [exec_eq, perform, performProcess_eq, if_neg (by simp [hp]), if_neg (by simp [State.lengthOk, hn]),
    if_pos hlegal]
  rfl

/-- Settles O14: the checks are the clauses of `Settings.Legal`, in the rationals by `isPositive32_iff`; the
refusal by the order of the causes. -/
theorem settingsLegalBounds : Obligations.SettingsLegalBounds := by
  refine ⟨fun n s hp hn hlegal => exec_process_of_badSettings hp hn hlegal,
    fun S => ⟨fun hlegal => ?_, ?_⟩⟩
  · have h := Settings.Legal.of_legal hlegal
    exact ⟨(isPositive32_iff _).1 h.f0, (isPositive32_iff _).1 h.qbase, (isPositive32_iff _).1 h.curve,
      ⟨h.timbreFinite, h.timbreNonneg, h.timbreLeOne⟩, h.detune, h.depth, h.rate⟩
  · rintro ⟨hf0, hqbase, hcurve, ⟨hfinite, hnonneg, hleOne⟩, hdetune, hdepth, hrate⟩
    exact Settings.Legal.legal ⟨(isPositive32_iff _).2 hf0, (isPositive32_iff _).2 hqbase,
      (isPositive32_iff _).2 hcurve, hfinite, hnonneg, hleOne, hdetune, hdepth, hrate⟩

/-! ### The update without a modulation target (R104, R124) -/

theorem Settings.targets_off_of_anyMod {S : Settings} (h : S.anyMod = false) :
    S.fmEn = false ∧ S.dmEn = false ∧ S.tmEn = false := by
  simpa [Settings.anyMod, and_assoc] using h

/-- An instant's place reads the modulation value through its frequency only. -/
theorem placed_congr (sr : Word) {i : Nat} {m m' : Word} {S : Settings} (h : freq i m S = freq i m' S) :
    placed sr i m S = placed sr i m' S := by
  rw [placed, placed, h]

theorem timbreEff_of_no_target {S : Settings} (htm : S.tmEn = false) (m : Word) :
    timbreEff m S = S.timbre := by
  rw [timbreEff, if_neg (by simp [htm])]

/-- Settles O49: the placed frequency and the balance gain are all of the update that reads the modulation
value, and each does so under its target only. -/
theorem updateIgnoresModulationWhenOff : Obligations.UpdateIgnoresModulationWhenOff := by
  intro sr i m m' S hoff
  obtain ⟨hfm, hdm, htm⟩ := Settings.targets_off_of_anyMod hoff
  have hplaced : placed sr i m S = placed sr i m' S := placed_congr sr (freq_of_no_target hfm hdm i m m')
  have hbalance : balanceGain i m S = balanceGain i m' S := by
    rw [balanceGain, balanceGain, timbreEff_of_no_target htm, timbreEff_of_no_target htm]
  rw [update, update, hplaced, hbalance]

/-! ### HDONE (R120, R123) -/

/-- A block PROCESS accepts fits the buffers (R116). -/
theorem le_bufWords_of_accepted {n : Nat} {s : State} (h : ProcessAccepted s n) : n ≤ 4096 :=
  have ⟨_, hlimit, _⟩ := h
  hlimit.trans (Nat.le_of_lt_succ s.liveMaxblk.isLt)

/-- HDONE is the least index that fails the test of R120, or `N` if there is none. -/
theorem processBlock_hdone_spec (S : Settings) (n : Nat) (s : State) :
    (processBlock S n s).hdone.toNat ≤ S.n ∧
      (∀ i, i < (processBlock S n s).hdone.toNat → lt32 (nominal i S) (nyquist s.liveSr) = true) ∧
      ((processBlock S n s).hdone.toNat < S.n →
        lt32 (nominal (processBlock S n s).hdone.toNat S) (nyquist s.liveSr) = false) := by
  have hrate : (preBlock S n s).liveSr = s.liveSr := by rw [preBlock_frame]
  obtain ⟨-, hle, hbelow, hstop⟩ := harmonicLoop_count S n S.n 0 (preBlock S n s)
  simp only [hrate, Nat.zero_add] at hle hbelow hstop
  rw [processBlock_hdone]
  exact ⟨hle, fun i => hbelow i (Nat.zero_le i), hstop⟩

/-- Settles O53: an accepted PROCESS is the block, whose HDONE is that index. -/
theorem hdoneCountsUpToTheNyquistBreak : Obligations.HdoneCountsUpToTheNyquistBreak :=
  fun n s h => ⟨_, exec_process_of_accepted h, processBlock_hdone_spec s.snap n s⟩

/-- At one sample rate no block reaches a larger HDONE than another: it would have passed the test where
the other stopped. -/
theorem processBlock_hdone_le (S : Settings) (n : Nat) {s s' : State} (hrate : s'.liveSr = s.liveSr) :
    (processBlock S n s').hdone.toNat ≤ (processBlock S n s).hdone.toNat := by
  obtain ⟨hle, hbelow, -⟩ := processBlock_hdone_spec S n s'
  obtain ⟨-, -, hstop⟩ := processBlock_hdone_spec S n s
  by_contra hgt
  have hlt := Nat.lt_of_not_le hgt
  have hpass := hbelow _ hlt
  rw [hrate, hstop (hlt.trans_le hle)] at hpass
  exact Bool.false_ne_true hpass

theorem processBlock_hdone_congr (S : Settings) (n : Nat) {s s' : State} (hrate : s'.liveSr = s.liveSr) :
    (processBlock S n s').hdone = (processBlock S n s).hdone :=
  BitVec.eq_of_toNat_eq
    (Nat.le_antisymm (processBlock_hdone_le S n hrate) (processBlock_hdone_le S n hrate.symm))

/-! ### The silent block (R119, R129) -/

/-- The fundamental's nominal frequency is F0 (R94). -/
theorem nominal_zero {S : Settings} (h : S.legal = true) : nominal 0 S = S.f0 :=
  have ⟨_, _, _, hnominal⟩ := nominalFrequencyWrittenOut S 0
  (hnominal h).1

theorem processBlock_hdone_zero {S : Settings} (n : Nat) {s : State} (hlegal : S.legal = true)
    (h : S.n = 0 ∨ lt32 S.f0 (nyquist s.liveSr) = false) : (processBlock S n s).hdone = 0 := by
  obtain ⟨hle, hbelow, -⟩ := processBlock_hdone_spec S n s
  apply BitVec.eq_of_toNat_eq
  rcases h with hN | hf0
  · exact Nat.eq_zero_of_le_zero (hN ▸ hle)
  · refine Nat.eq_zero_of_not_pos fun hpos => ?_
    have hpass := hbelow 0 hpos
    rw [nominal_zero hlegal, hf0] at hpass
    exact Bool.false_ne_true hpass

/-- Settles O56: with HDONE = 0 the mix is that of no harmonic, and no channel is below it. -/
theorem noHarmonicGivesSilence : Obligations.NoHarmonicGivesSilence := by
  intro n s h hnone
  have hn := le_bufWords_of_accepted h
  have ⟨_, _, hlegal⟩ := h
  have hdone : (processBlock s.snap n s).hdone = 0 := processBlock_hdone_zero n hlegal hnone
  have hsilent (sd : Side) (k : Nat) (hk : k < n) : (processBlock s.snap n s).buf sd.outBuf k = 0 := by
    rw [processBlock_out s.snap s hn sd hk, hdone]
    rfl
  have hheld (i : Nat) (sd : Side) : (processBlock s.snap n s).svf i sd = s.svf i sd := by
    rw [processBlock_svf s.snap s hn, hdone]
    rfl
  exact ⟨_, exec_process_of_accepted h, hdone,
    fun k hk => ⟨hsilent .left k hk, hsilent .right k hk⟩, hheld⟩

/-! ### The inputs of a block (R118) -/

/-- The draw that replaces word `k` of a side's input, in a block whose first draw is number `d`. -/
def inputDraw (d : Nat) (sd : Side) (k : Nat) : Word :=
  match sd with
  | .left => noiseDraw (d + 2 * k)
  | .right => noiseDraw (d + 2 * k + 1)

/-- With noise on the block's input words are its draws. -/
theorem processBlock_input_of_noise {S : Settings} {n : Nat} (s : State) (hn : n ≤ 4096)
    (hnoise : S.noiseEn = true) (sd : Side) {k : Nat} (hk : k < n) :
    (processBlock S n s).buf sd.inBuf k = inputDraw s.drawn sd k := by
  have hpre : (preBlock S n s).buf sd.inBuf k = (noisePrepass n (modulate S n s)).buf sd.inBuf k := by
    rw [preBlock, if_pos hnoise]
    exact State.buf_of_writesOnly (clearOutput_writes n _) hn sd.inBuf_not_output (by omega)
  have hdrawn : (modulate S n s).drawn = s.drawn := by rw [modulate_frame]
  obtain ⟨hleft, hright⟩ := noisePrepass_draw n (modulate S n s) hn k hk
  rw [hdrawn] at hleft hright
  rw [processBlock_keeps_buf S s hn sd.inBuf_not_output (by omega), hpre]
  cases sd with
  | left => exact hleft
  | right => exact hright

/-- A word that is not the block's, or is read with noise off, stands. -/
theorem processBlock_input_kept {S : Settings} {n : Nat} (s : State) (hn : n ≤ 4096) (sd : Side) {k : Nat}
    (hk : k < 4096) (h : S.noiseEn = false ∨ n ≤ k) :
    (processBlock S n s).buf sd.inBuf k = s.buf sd.inBuf k := by
  refine (processBlock_writes S n s).word hk (fun _ _ ⟨hlt, _⟩ => hlt.trans_le hn) ?_
  rintro ⟨hlt, hbuf⟩
  rcases h with hoff | hle
  · rw [hoff] at hbuf
    revert hbuf
    cases sd <;> decide
  · omega

/-- Settles O55: the block's draws with noise on, everything else kept. -/
theorem noiseReplacesTheInputs : Obligations.NoiseReplacesTheInputs := by
  intro n s h
  have hn := le_bufWords_of_accepted h
  have hkept (k : Nat) (hk : k < 4096) (h : s.snap.noiseEn = false ∨ n ≤ k) :
      (processBlock s.snap n s).buf .inL k = s.buf .inL k ∧
        (processBlock s.snap n s).buf .inR k = s.buf .inR k :=
    ⟨processBlock_input_kept s hn .left hk h, processBlock_input_kept s hn .right hk h⟩
  refine ⟨_, exec_process_of_accepted h, fun hnoise k hk => ⟨?_, ?_⟩,
    fun hoff k hk => hkept k hk (.inl hoff), fun k hle hk => hkept k hk (.inr hle)⟩
  · exact processBlock_input_of_noise s hn hnoise .left hk
  · exact processBlock_input_of_noise s hn hnoise .right hk

/-! ### The two sides (R126) -/

/-- What of a state one side of a block reads: the sample rate, the oscillator, the draw counter, and
the side's own input words and channels. -/
structure State.AgreesOn (n : Nat) (sd : Side) (s s' : State) : Prop where
  rate : s'.liveSr = s.liveSr
  osc : s'.osc = s.osc
  drawn : s'.drawn = s.drawn
  input : ∀ k, k < n → s'.buf sd.inBuf k = s.buf sd.inBuf k
  channel : ∀ i, i < 200 → s'.svf i sd = s.svf i sd

section

variable {n : Nat} {sd : Side} {s s' : State} (h : s.AgreesOn n sd s') (S : Settings) (hn : n ≤ 4096)

include h hn

/-- The side's filters see the same modulation values and input words, noise or not. -/
theorem State.AgreesOn.sideInputs :
    (processBlock S n s').sideInputs n sd = (processBlock S n s).sideInputs n sd := by
  refine List.map_congr_left fun k hk => ?_
  have hk := List.mem_range.1 hk
  have hinput : (processBlock S n s').buf sd.inBuf k = (processBlock S n s).buf sd.inBuf k := by
    cases hnoise : S.noiseEn with
    | true => rw [processBlock_input_of_noise s' hn hnoise sd hk,
        processBlock_input_of_noise s hn hnoise sd hk, h.drawn]
    | false => rw [processBlock_input_kept s' hn sd (by omega) (.inl hnoise),
        processBlock_input_kept s hn sd (by omega) (.inl hnoise), h.input k hk]
  rw [processBlock_sample S s' hn hk, processBlock_sample S s hn hk, h.osc, h.rate, hinput]

/-- So each of the side's channels ends alike: its stream runs on the same words from the same state. -/
theorem State.AgreesOn.svf {i : Nat} (hi : i < 200) :
    (processBlock S n s').svf i sd = (processBlock S n s).svf i sd := by
  rw [processBlock_svf S s' hn, processBlock_svf S s hn, processBlock_hdone_congr S n h.rate,
    h.sideInputs S hn, h.rate, h.channel i hi]

/-- And equally many streams are mixed into the side's output. -/
theorem State.AgreesOn.out {k : Nat} (hk : k < n) :
    (processBlock S n s').buf sd.outBuf k = (processBlock S n s).buf sd.outBuf k := by
  have hN : S.n < 201 := S.hcount.isLt
  obtain ⟨hle, -⟩ := processBlock_hdone_spec S n s
  rw [processBlock_out S s' hn sd hk, processBlock_out S s hn sd hk, processBlock_hdone_congr S n h.rate,
    h.sideInputs S hn, h.rate]
  refine congrArg mixOf (List.map_congr_left fun i hi => ?_)
  rw [h.channel i (by have := List.mem_range.1 hi; omega)]

end

/-- Settles O58: two states that agree on a side give blocks that agree on its outputs and channels. -/
theorem sidesDoNotInterfere : Obligations.SidesDoNotInterfere := by
  intro n s s' sd haccepted haccepted' hsnap hrate hosc hdrawn hinput hchannel
  have h : s.AgreesOn n sd s' := ⟨hrate, hosc, hdrawn, hinput, hchannel⟩
  have hn := le_bufWords_of_accepted haccepted
  have hexec' := exec_process_of_accepted haccepted'
  rw [hsnap] at hexec'
  exact ⟨_, _, exec_process_of_accepted haccepted, hexec', fun k hk => h.out s.snap hn hk,
    fun i hi => h.svf s.snap hn hi⟩

end Sys2Proof.Machine

/-! The control commands NOP, PREPARE and RESET (44_control_commands.md). -/

namespace Sys2Proof.Machine

/-! ### What a cleared file reads as -/

/-- Over a cleared channel file every filter is at rest, at any index. -/
theorem State.svf_of_chZero {s : State} (h : s.ch = chZero) (i : Nat) (sd : Side) :
    s.svf i sd = ⟨0, 0⟩ := by
  have hchan : s.chan i = Channel.zero := by
    rw [State.chan, h, chZero, Vector.getElem?_replicate]
    split <;> rfl
  rw [State.svf, hchan]
  cases sd <;> rfl

theorem State.buf_of_zeroed {s : State} (h : s.mem = Memory.zeroed) (b : Buf) (k : Nat) :
    s.buf b k = 0 := by
  rw [State.buf, h, Memory.readWord_zeroed]

/-! ### PREPARE (R131) -/

theorem Settings.configOk_iff (S : Settings) :
    S.configOk = true ↔
      isPositive32 S.srCfg = true ∧ 1 ≤ S.maxblkCfg.toNat ∧ S.maxblkCfg.toNat ≤ 4096 := by
  simp only [Settings.configOk, Bool.and_eq_true, decide_eq_true_eq, and_assoc]

theorem exec_prepare_of_configOk (a : Nat) {s : State} (h : s.snap.configOk = true) :
    exec (.prepare a) s = .next s.prepare.finish := by
  rw [exec_eq, perform, performPrepare_eq, if_neg (by simp [h])]
  rfl

/-- A block limit in range is installed as it stands: LIVE_MAXBLK holds 0 to 4096. -/
theorem State.prepare_liveMaxblk_val {s : State} (h : s.snap.maxblkCfg.toNat ≤ 4096) :
    s.prepare.liveMaxblk.val = s.snap.maxblkCfg.toNat := by
  rw [State.prepare_liveMaxblk, Fin.val_ofNat, Nat.mod_eq_of_lt (Nat.lt_succ_of_le h)]

/-- Settles O29: the configuration passes its check, so the command ends in `State.prepare`, whose channel
file is `chZero` and whose memory is `Memory.zeroed`. -/
theorem prepareInstallsAndClears : Obligations.PrepareInstallsAndClears := by
  intro a s hsr hlo hhi
  have hconfig : s.snap.configOk = true := (Settings.configOk_iff s.snap).2 ⟨hsr, hlo, hhi⟩
  exact ⟨s.prepare.finish, exec_prepare_of_configOk a hconfig, rfl, State.prepare_liveMaxblk_val hhi,
    fun i sd _ => State.svf_of_chZero rfl i sd, fun b k _ => State.buf_of_zeroed rfl b k⟩

/-! ### NOP and RESET, which have no check (R130, R132) -/

/-- Settles O28: NOP performs nothing, so its end is all of its effect. -/
theorem nopOnlySetsDone : Obligations.NopOnlySetsDone :=
  fun a s => exec_eq (.nop a) s

/-- Settles O30: RESET's effect is the channel file `chZero`. -/
theorem resetZeroesTheChannelFileOnly : Obligations.ResetZeroesTheChannelFileOnly :=
  fun a s => ⟨_, exec_eq (.reset a) s, rfl, fun i sd _ => State.svf_of_chZero rfl i sd⟩

end Sys2Proof.Machine

/-! Exceptions and the interrupt (60_exceptions.md): the causes for which a command is refused, in their order
(R137, R138), and what raises and lowers `irq` (R142, R143). -/

namespace Sys2Proof.Machine

/-! ### The causes of a refusal (R137, R138) -/

/-- A performance that raises a code ends in the refusal with that code (R137). -/
theorem exec_of_raised {i : Instr} {s : State} {c : ErrCode} (h : perform i s = .raised c) :
    exec i s = .next (s.refuse c) := by
  rw [exec_eq, h, complete]

section Refusals

variable {s : State}

theorem State.lengthOk_of_lt {n : Nat} (h : s.liveMaxblk.val < n) : s.lengthOk n = false :=
  decide_eq_false (Nat.not_le.2 h)

theorem exec_process_of_notPrepared (n : Nat) (hp : s.prepared = false) :
    exec (.process n) s = .next (s.refuse .notPrepared) :=
  exec_of_raised ((performProcess_eq n s).trans (if_pos hp))

theorem exec_oscSetfreq_of_notPrepared (a : Nat) (hp : s.prepared = false) :
    exec (.oscSetfreq a) s = .next (s.refuse .notPrepared) :=
  exec_of_raised ((performOscSetfreq_eq s).trans (if_pos hp))

theorem exec_oscAdvance_of_notPrepared (n : Nat) (hp : s.prepared = false) :
    exec (.oscAdvance n) s = .next (s.refuse .notPrepared) :=
  exec_of_raised ((performOscAdvance_eq n s).trans (if_pos hp))

/-- BAD_LENGTH comes before the settings are looked at, so they may be anything. -/
theorem exec_process_of_badLength {n : Nat} (hp : s.prepared = true) (hn : s.liveMaxblk.val < n) :
    exec (.process n) s = .next (s.refuse .badLength) := by
  refine exec_of_raised ?_
  rw [perform, performProcess_eq, if_neg (by simp [hp]), if_pos (State.lengthOk_of_lt hn)]

theorem exec_oscAdvance_of_badLength {n : Nat} (hp : s.prepared = true) (hn : s.liveMaxblk.val < n) :
    exec (.oscAdvance n) s = .next (s.refuse .badLength) := by
  refine exec_of_raised ?_
  rw [perform, performOscAdvance_eq, if_neg (by simp [hp]), if_pos (State.lengthOk_of_lt hn)]

theorem exec_prepare_of_badConfig (a : Nat) (h : s.snap.configOk = false) :
    exec (.prepare a) s = .next (s.refuse .badConfig) :=
  exec_of_raised ((performPrepare_eq s).trans (if_pos h))

end Refusals

/-- Settles O13: each cause by the check of its command that it fails, those before it passed. -/
theorem refusalsInPriorityOrder : Obligations.RefusalsInPriorityOrder := by
  refine fun s n a => ⟨fun hp => ?_, fun hp hn => ?_,
    fun hp hn hlegal => exec_process_of_badSettings hp hn hlegal, fun hconfig => ?_, rfl⟩
  · exact ⟨exec_process_of_notPrepared n hp, exec_oscSetfreq_of_notPrepared a hp,
      exec_oscAdvance_of_notPrepared n hp⟩
  · exact ⟨exec_process_of_badLength hp hn, exec_oscAdvance_of_badLength hp hn⟩
  · rw [← Settings.configOk_iff, Bool.not_eq_true] at hconfig
    exact exec_prepare_of_badConfig a hconfig

/-! ### The level of `irq` (R142, R143) -/

theorem State.irq_iff (s : State) : s.irq = true ↔ s.irqEn = true ∧ s.done = true :=
  Bool.and_eq_true_iff

/-- A performance ends with DONE set, which leaves `irq` to IRQ_EN (R142). -/
theorem irq_of_exec {i : Instr} {s t : State} (h : exec i s = .next t) : t.irq = s.irqEn := by
  obtain ⟨t', ht', -, -, hirq, -⟩ := everyPerformanceEndsDone i s
  cases ht'.symm.trans h
  exact hirq

theorem State.irq_busRead (s : State) (a : BusAddr) (z : AccessSize) : (s.busRead a z).irq = s.irq := by
  rw [State.busRead_eq]
  rfl

/-- An issue clears DONE and with it `irq`; a rejected word keeps both (R73, R74). -/
theorem State.irq_writeCmd (s : State) (w : Word) : (s.writeCmd w).irq = (s.busy && s.irq) := by
  cases hbusy : s.busy with
  | true => rw [State.writeCmd_of_busy w hbusy, Bool.true_and]; rfl
  | false => rw [State.writeCmd_of_idle w hbusy, Bool.false_and]; exact Bool.and_false _

/-- The host acknowledges the interrupt by a 1 in STATUS.DONE (R143). -/
theorem State.irq_writeStatus (s : State) (v : Word) :
    (s.writeStatus v).irq = (s.irq && !v.getLsbD 1) :=
  (Bool.and_assoc _ _ _).symm

/-- Settles O24: `irq` is IRQ_EN and DONE, so each clause is what its event does to these two. -/
theorem interruptFollowsDoneAndEnable : Obligations.InterruptFollowsDoneAndEnable := by
  refine ⟨rfl, fun s => ⟨s.irq_iff, fun i t ht => irq_of_exec ht, s.irq_busRead, fun a z v h => ?_,
    fun v => ?_, fun v => ?_, fun v => ?_⟩⟩
  · rw [State.busWrite_of_busError v h]
    rfl
  · rw [State.busWrite_cmd]
    exact s.irq_writeCmd v
  · exact (congrArg State.irq (s.busWrite_offset .status v)).trans (s.irq_writeStatus v)
  · exact congrArg State.irq (s.busWrite_offset .ctrl v)

end Sys2Proof.Machine

/-! The reset pin in the host's step: what a power-on reset leaves, the pin driven to a level, and a bus
access while the pin is low (70_reset_and_hazards.md R153). -/

namespace Sys2Proof.Machine

/-! ### What a power-on reset leaves (table T11) -/

/-- Registers read no field that a power-on reset keeps. -/
@[simp] theorem State.readReg_powerOn (s : State) (level : Bool) (r : Reg) :
    (s.powerOn level).readReg r = State.reset.readReg r := by
  cases r <;> rfl

@[simp] theorem State.svf_powerOn (s : State) (level : Bool) (i : Nat) (sd : Side) :
    (s.powerOn level).svf i sd = Svf.zero :=
  State.svf_of_chZero rfl i sd

@[simp] theorem State.irq_powerOn (s : State) (level : Bool) : (s.powerOn level).irq = false := rfl

/-- No byte is listed after a power-on reset, so each is the draw of that reset's number (log entry
4). -/
theorem State.readByte_powerOn (s : State) (level : Bool) (a : Nat) :
    (s.powerOn level).mem.readByte a = Config.powerOnByte (s.powerOn level).powerOns a := rfl

/-! ### The host's step at the reset pin -/

section ResetPin

variable {s : State} {rest : List HostOp}

theorem step_of_rst {level : Bool} (ha : s.nextAgent = .host) (hh : s.host = .rst level :: rest) :
    step s = .next ((s.takeTurn.withHost rest).driveReset level) :=
  (step_of_host ha).trans (hostStep_of_rst hh)

theorem step_of_rst_low {level : Bool} (ha : s.nextAgent = .host) (hh : s.host = .rst level :: rest)
    (hlow : s.rstN = false ∨ level = false) :
    step s = .next ((s.takeTurn.withHost rest).powerOn level) := by
  rw [step_of_rst ha hh, State.driveReset_of_low (s := s.takeTurn.withHost rest) hlow]

theorem step_of_rst_high (ha : s.nextAgent = .host) (hh : s.host = .rst true :: rest)
    (hrst : s.rstN = true) : step s = .next (s.takeTurn.withHost rest) := by
  rw [step_of_rst ha hh, State.driveReset_of_high (s := s.takeTurn.withHost rest) hrst]

theorem whenOutOfReset_of_low (t : State) (h : s.rstN = false) :
    whenOutOfReset s t = .fault .accessDuringReset :=
  if_neg (by simp [h])

/-- Every operation of the host but the pin's goes through `whenOutOfReset`. -/
theorem hostStep_of_low {op : HostOp} (hrst : s.rstN = false) (hh : s.host = op :: rest)
    (hop : ∀ level, op ≠ .rst level) : hostStep s = .fault .accessDuringReset := by
  rw [hostStep, hh]
  cases op with
  | read a z => exact whenOutOfReset_of_low _ hrst
  | write a z v => exact whenOutOfReset_of_low _ hrst
  | wait => exact whenOutOfReset_of_low _ hrst
  | rst level => exact absurd rfl (hop level)

end ResetPin

/-- Settles O26: the step is a power-on reset, read off piece by piece, or a turn that only drops the
operation. -/
theorem resetPinRestoresEverything : Obligations.ResetPinRestoresEverything := by
  refine fun s level rest ha hh => ⟨fun hlow => ?_, fun hrst hlevel => ?_⟩
  · exact ⟨_, step_of_rst_low ha hh hlow, rfl, State.readReg_powerOn _ level, rfl, rfl, rfl, rfl,
      State.svf_powerOn _ level, State.irq_powerOn _ level, rfl, State.readByte_powerOn _ level, rfl⟩
  · subst hlevel
    exact step_of_rst_high ha hh hrst

/-- Settles O27: taking the turn leaves the pin low, where `hostStep` faults on a bus operation. -/
theorem accessDuringResetStops : Obligations.AccessDuringResetStops :=
  fun s _ _ ha hrst hh hop =>
    (step_of_host ha).trans (hostStep_of_low (s := s.takeTurn) hrst hh hop)

end Sys2Proof.Machine

/-! The word of a decoded command (30_encoding.md R68 to R70), and sample words of tables T5 and T6. -/

namespace Sys2Proof

/-- OP and ARG of a decoded command are the fields of its word: the word is in a row of table T6, and
the row gives a command with these fields. -/
theorem fields_of_decode {w : Word} {i : Instr} (h : decode w = .ok i) :
    i.opcode = opField w ∧ i.arg = argField w := by
  have htabled : opField w ∈ tabledOpcodes := by
    by_contra hbad
    cases h.symm.trans (decode_of_untabled hbad)
  obtain ⟨j, hop, harg⟩ := exists_instr_of_tabled htabled (argField w)
  cases h.symm.trans (decode_of_fields hop.symm harg.symm)
  exact ⟨hop, harg⟩

theorem argField_lt (w : Word) : argField w < 2 ^ 24 := (w.extractLsb' 8 24).isLt

/-- Two fields that are a word's own make up that word (table T5). -/
theorem encode_of_fields {w : Word} {i : Instr} (hwf : i.wellFormed = true)
    (hop : i.opcode = opField w) (harg : i.arg = argField w) : encode i = w := by
  refine BitVec.eq_of_toNat_eq ?_
  rw [Laws.toNat_encode hwf, hop, harg, Laws.toNat_opField, Laws.argField_eq, Nat.div_add_mod']

/-- Settles O2: decoding keeps both fields, ARG has 24 bits, and the fields make up the word. -/
theorem encodeOfDecodeIsTheWord : Obligations.EncodeOfDecodeIsTheWord := by
  intro w i h
  obtain ⟨hop, harg⟩ := fields_of_decode h
  have hwf : i.wellFormed = true := decide_eq_true (harg.trans_lt (argField_lt w))
  exact ⟨hwf, encode_of_fields hwf hop harg⟩

/-- Settles O4: a word of a command decodes by its two fields, a reserved OP by being in no row. -/
theorem sampleWordsDecodeAsTabled : Obligations.SampleWordsDecodeAsTabled :=
  ⟨decode_of_fields rfl rfl, decode_of_fields rfl rfl, decode_of_fields rfl rfl,
    decode_of_fields rfl rfl, decode_of_fields rfl rfl, decode_of_fields rfl rfl,
    decode_of_fields rfl rfl, decode_of_fields rfl rfl, decode_of_fields rfl rfl,
    decode_of_untabled (by decide), decode_of_untabled (by decide), decode_of_untabled (by decide),
    decode_of_untabled (by decide)⟩

end Sys2Proof
